-- ==== Sys2Proof/Word.lean ====
section
/-! DEFINITION. The bit-vector widths of the block (00_scope.md R10, R11): bytes, 16-bit views, 32-bit
registers and 20-bit physical addresses. -/

namespace Sys2Proof

/-- One byte of the store or of the instruction stream. -/
abbrev Byte := BitVec 8

/-- A 16-bit value: a register's 16-bit view, a segment value, a 16-bit offset. -/
abbrev Half := BitVec 16

/-- A 32-bit value: a whole register, EIP, EFLAGS, a 32-bit offset. -/
abbrev Word := BitVec 32

/-- A physical address of the 2^20-byte store (10_state.md R36). -/
abbrev Phys := BitVec 20

end Sys2Proof
end

