-- ==== Sys2Proof/Config.lean ====
section
/-! DEFINITION. The fixed parameters of the block (00_scope.md R10) and its one open parameter,
`SREG_WRITE_UPPER` (10_state.md R29, 92_eei_decisions.md D11). -/

namespace Sys2Proof

/-- What a 16-bit write to a segment register does to its bits 31:16 (10_state.md R29). -/
inductive SregUpper where
  | preserve
  | zero
  deriving DecidableEq, Repr, Inhabited

/-- `SREG_WRITE_UPPER`: OPEN in the spec (D11), so it has no body and no proof can learn its value.
Log entry 3. -/
opaque Config.sregWriteUpper : SregUpper

/-- `MEM_SIZE`, 2^20 bytes (00_scope.md R10, 10_state.md R36). -/
abbrev Config.memSize : Nat := 1048576

/-- How many prefix bytes one instruction may fetch before the block is stuck (30_encoding.md R74,
92_eei_decisions.md D8): 2^20. -/
abbrev Config.prefixLimit : Nat := 1048576

/-- The longest instruction after its prefixes (30_encoding.md R71): opcode, ModRM, SIB, a 4-byte
displacement and a 4-byte immediate (0xC7 with `AW` = `OW` = 32). -/
abbrev Config.maxBody : Nat := 11

end Sys2Proof
end

