-- ==== Sys2Proof/Syntax.lean ====
section
/-! DEFINITION. The instructions, one constructor for each mnemonic of spec/opcode_table.json, and their
operand forms (30_encoding.md §1 to §6). -/

namespace Sys2Proof

/-- The eight general-purpose registers in index order (10_state.md R21). -/
inductive Reg where
  | eax | ecx | edx | ebx | esp | ebp | esi | edi
  deriving DecidableEq, Repr

/-- The eight 8-bit views in index order (10_state.md R24). -/
inductive Reg8 where
  | al | cl | dl | bl | ah | ch | dh | bh
  deriving DecidableEq, Repr

/-- The six segment registers in index order (10_state.md R27). -/
inductive Sreg where
  | es | cs | ss | ds | fs | gs
  deriving DecidableEq, Repr

/-- The segment registers an instruction may write: all but CS (10_state.md R29). -/
inductive SregDst where
  | es | ss | ds | fs | gs
  deriving DecidableEq, Repr

/-- The operand width `OW` (30_encoding.md R83). -/
inductive OpWidth where
  | w16 | w32
  deriving DecidableEq, Repr

/-- The address width `AW` (30_encoding.md R82). -/
inductive AddrWidth where
  | a16 | a32
  deriving DecidableEq, Repr

/-- A value of the operand width: 16 or 32 bits (30_encoding.md R83, R84). -/
inductive Val where
  | v16 (v : Half)
  | v32 (v : Word)
  deriving DecidableEq, Repr

/-- The base values of the 16-bit addressing table, in the order of rm (30_encoding.md R88). -/
inductive Base16 where
  | bxSi | bxDi | bpSi | bpDi | si | di | bp | bx
  deriving DecidableEq, Repr

/-- A memory operand under `AW` = 16 (30_encoding.md R87, R88). -/
inductive Mem16 where
  /-- mod = 0, rm not 6: a base and no displacement. -/
  | base (b : Base16)
  /-- mod = 0, rm = 6: a 16-bit displacement and no base. -/
  | direct (d : Half)
  /-- mod = 1: a base and a sign-extended byte. -/
  | disp8 (b : Base16) (d : Byte)
  /-- mod = 2: a base and a word. -/
  | disp16 (b : Base16) (d : Half)
  deriving DecidableEq, Repr

/-- The scaled index of a SIB byte; `index` = ESP means no index (30_encoding.md R81). -/
structure SibIndex where
  scale : BitVec 2
  index : Reg
  deriving DecidableEq, Repr

/-- A memory operand under `AW` = 32 (30_encoding.md R87, R90 to R94). -/
inductive Mem32 where
  /-- mod = 0, rm not 4 or 5: a base register alone. -/
  | base (r : Reg)
  /-- mod = 0, rm = 5: a 32-bit displacement and no base (R91). -/
  | direct (d : Word)
  /-- mod = 1, rm not 4: a base register and a sign-extended byte. -/
  | disp8 (r : Reg) (d : Byte)
  /-- mod = 2, rm not 4: a base register and a dword. -/
  | disp32 (r : Reg) (d : Word)
  /-- mod = 0, rm = 4, SIB.base not 5: scaled index and base. -/
  | sib (x : SibIndex) (r : Reg)
  /-- mod = 0, rm = 4, SIB.base = 5: scaled index and a 32-bit displacement, no base (R93). -/
  | sibDirect (x : SibIndex) (d : Word)
  /-- mod = 1, rm = 4: scaled index, base and a sign-extended byte. -/
  | sibDisp8 (x : SibIndex) (r : Reg) (d : Byte)
  /-- mod = 2, rm = 4: scaled index, base and a dword. -/
  | sibDisp32 (x : SibIndex) (r : Reg) (d : Word)
  deriving DecidableEq, Repr

/-- A memory operand of a ModRM byte, mod = 0, 1 or 2 (30_encoding.md R77, R86). -/
inductive MemOp where
  | m16 (m : Mem16)
  | m32 (m : Mem32)
  deriving DecidableEq, Repr

/-- A ModRM r/m operand: a register view when mod = 3, else memory (30_encoding.md R77, R79). `ρ` is the
type of the register views of the operand's width. -/
inductive Rm (ρ : Type) where
  | reg (r : ρ)
  | mem (m : MemOp)
  deriving DecidableEq, Repr

/-- A moffs literal of the address width (42_mov_moffs.md R140). -/
inductive Moffs where
  | o16 (o : Half)
  | o32 (o : Word)
  deriving DecidableEq, Repr

/-- The fields of a ModRM byte (30_encoding.md R76); kept whole in the invalid encodings only, which
fetch no byte after it (60_exceptions.md R172). -/
structure ModRm where
  mod : BitVec 2
  reg : BitVec 3
  rm  : BitVec 3
  deriving DecidableEq, Repr

/-- The two prefix bytes (30_encoding.md R73, R75). -/
inductive PrefixByte where
  | operandSize
  | addressSize
  deriving DecidableEq, Repr

/-- The instructions, one constructor for each mnemonic of spec/opcode_table.json (log entries 21, 22). A
prefix is a row of its own, matched by the prefix scan against each byte it fetches; every other row
is matched against the bytes after the prefixes (30_encoding.md R104). -/
inductive Instr where
  /-- 0x66 (R73). -/
  | prefixOperandSize
  /-- 0x67 (R73). -/
  | prefixAddressSize
  /-- 0x00, the halt sentinel (R115). -/
  | halt
  /-- 0x88 (R125). -/
  | movRm8R8 (dst : Rm Reg8) (src : Reg8)
  /-- 0x89 (R126). -/
  | movRmR (w : OpWidth) (dst : Rm Reg) (src : Reg)
  /-- 0x8A (R127). -/
  | movR8Rm8 (dst : Reg8) (src : Rm Reg8)
  /-- 0x8B (R128). -/
  | movRRm (w : OpWidth) (dst : Reg) (src : Rm Reg)
  /-- 0x8C with reg 0 to 5 (R130). -/
  | movRm16Sreg (dst : Rm Reg) (src : Sreg)
  /-- 0x8E with reg 0, 2, 3, 4 or 5 (R131). -/
  | movSregRm16 (dst : SregDst) (src : Rm Reg)
  /-- 0xA0 (R141). -/
  | movAlMoffs (src : Moffs)
  /-- 0xA1 (R142). -/
  | movAxMoffs (w : OpWidth) (src : Moffs)
  /-- 0xA2 (R143). -/
  | movMoffsAl (dst : Moffs)
  /-- 0xA3 (R144). -/
  | movMoffsAx (w : OpWidth) (dst : Moffs)
  /-- 0xB0 to 0xB7 (R150). -/
  | movR8Imm (dst : Reg8) (imm : Byte)
  /-- 0xB8 to 0xBF (R151). -/
  | movRImm (dst : Reg) (imm : Val)
  /-- 0xC6 /0 (R152). -/
  | movRm8Imm (dst : Rm Reg8) (imm : Byte)
  /-- 0xC7 /0 (R153). -/
  | movRmImm (dst : Rm Reg) (imm : Val)
  /-- 0xFF /6 (R161). -/
  | pushRm (w : OpWidth) (src : Rm Reg)
  /-- 0xC6 with reg 1 to 7 (R152). -/
  | invalidC6 (m : ModRm)
  /-- 0xC7 with reg 1 to 7 (R153). -/
  | invalidC7 (m : ModRm)
  /-- 0xFF with reg 0 to 5 or 7 (R162). -/
  | invalidFF (m : ModRm)
  /-- 0x8E with reg 1, CS (R131). -/
  | invalid8ECs (m : ModRm)
  /-- 0x8E with reg 6 or 7 (R131). -/
  | invalid8EReg (m : ModRm)
  /-- 0x8C with reg 6 or 7 (R130). -/
  | invalid8CReg (m : ModRm)
  /-- Any other opcode byte (R116). -/
  | unknown (op : Byte)
  deriving DecidableEq, Repr

end Sys2Proof
end

