-- ==== Sys2Proof/WellFormed.lean ====
section
/-! DEFINITION. Which instructions have an encoding under an address width and an operand width
(30_encoding.md R71, R82 to R84, R87 to R94, R99, R100). -/

namespace Sys2Proof

/-- rm = 6 with mod = 0 has no base, so BP needs a displacement (30_encoding.md R88). -/
def Mem16.wf : Mem16 → Bool
  | .base b => b ≠ .bp
  | .direct _ => true
  | .disp8 _ _ => true
  | .disp16 _ _ => true

/-- rm = 4 selects the SIB byte (R80); rm = 5 or SIB.base = 5 with mod = 0 has no base register (R91,
R93). -/
def Mem32.wf : Mem32 → Bool
  | .base r => r ≠ .esp && r ≠ .ebp
  | .direct _ => true
  | .disp8 r _ => r ≠ .esp
  | .disp32 r _ => r ≠ .esp
  | .sib _ r => r ≠ .ebp
  | .sibDirect _ _ => true
  | .sibDisp8 _ _ _ => true
  | .sibDisp32 _ _ _ => true

/-- The addressing table is the one `AW` selects (R82, R86). -/
def MemOp.wf (aw : AddrWidth) : MemOp → Bool
  | .m16 m => aw = .a16 && m.wf
  | .m32 m => aw = .a32 && m.wf

def Rm.wf {ρ : Type} (aw : AddrWidth) : Rm ρ → Bool
  | .reg _ => true
  | .mem m => m.wf aw

/-- The literal has `AW`/8 bytes (R84). -/
def Moffs.wf (aw : AddrWidth) : Moffs → Bool
  | .o16 _ => aw = .a16
  | .o32 _ => aw = .a32

/-- The width of a value. -/
def Val.width : Val → OpWidth
  | .v16 _ => .w16
  | .v32 _ => .w32

/-- The opcode bytes that have an entry in the one-byte map (30_encoding.md R99): the 29 handler bytes,
the halt sentinel and the two prefixes. -/
def mappedOpcodes : List Byte :=
  [0x00, 0x66, 0x67, 0x88, 0x89, 0x8A, 0x8B, 0x8C, 0x8E, 0xA0, 0xA1, 0xA2, 0xA3,
    0xB0, 0xB1, 0xB2, 0xB3, 0xB4, 0xB5, 0xB6, 0xB7, 0xB8, 0xB9, 0xBA, 0xBB, 0xBC, 0xBD, 0xBE, 0xBF,
    0xC6, 0xC7, 0xFF]

/-- `i.wf aw ow`: the instruction has an encoding under `AW` = `aw` and `OW` = `ow`. -/
def Instr.wf (aw : AddrWidth) (ow : OpWidth) : Instr → Bool
  | .prefixOperandSize => true
  | .prefixAddressSize => true
  | .halt => true
  | .movRm8R8 dst _ => dst.wf aw
  | .movRmR w dst _ => w = ow && dst.wf aw
  | .movR8Rm8 _ src => src.wf aw
  | .movRRm w _ src => w = ow && src.wf aw
  | .movRm16Sreg dst _ => dst.wf aw
  | .movSregRm16 _ src => src.wf aw
  | .movAlMoffs src => src.wf aw
  | .movAxMoffs w src => w = ow && src.wf aw
  | .movMoffsAl dst => dst.wf aw
  | .movMoffsAx w dst => w = ow && dst.wf aw
  | .movR8Imm _ _ => true
  | .movRImm _ imm => imm.width = ow
  | .movRm8Imm dst _ => dst.wf aw
  | .movRmImm dst imm => imm.width = ow && dst.wf aw
  | .pushRm w src => w = ow && src.wf aw
  | .invalidC6 m => m.reg ≠ 0
  | .invalidC7 m => m.reg ≠ 0
  | .invalidFF m => m.reg ≠ 6
  | .invalid8ECs m => m.reg = 1
  | .invalid8EReg m => m.reg = 6 || m.reg = 7
  | .invalid8CReg m => m.reg = 6 || m.reg = 7
  | .unknown op => !mappedOpcodes.contains op

/-- Is the row a prefix row? A whole instruction's body is not (30_encoding.md R70, R73). -/
def Instr.isPrefix : Instr → Bool
  | .prefixOperandSize => true
  | .prefixAddressSize => true
  | .halt => false
  | .movRm8R8 _ _ => false
  | .movRmR _ _ _ => false
  | .movR8Rm8 _ _ => false
  | .movRRm _ _ _ => false
  | .movRm16Sreg _ _ => false
  | .movSregRm16 _ _ => false
  | .movAlMoffs _ => false
  | .movAxMoffs _ _ => false
  | .movMoffsAl _ => false
  | .movMoffsAx _ _ => false
  | .movR8Imm _ _ => false
  | .movRImm _ _ => false
  | .movRm8Imm _ _ => false
  | .movRmImm _ _ => false
  | .pushRm _ _ => false
  | .invalidC6 _ => false
  | .invalidC7 _ => false
  | .invalidFF _ => false
  | .invalid8ECs _ => false
  | .invalid8EReg _ => false
  | .invalid8CReg _ => false
  | .unknown _ => false

end Sys2Proof
end

