-- ==== Sys2Proof/Decode.lean ====
section
/-! DEFINITION. The decoder and the encoder of one row of spec/opcode_table.json (30_encoding.md R70 to
R100), the index maps of the register views (10_state.md R21, R24, R27) and the byte order of the
instruction stream (20_memory.md R55). -/

namespace Sys2Proof

/-! ### Byte order: the least significant byte first (20_memory.md R55) -/

def le16 (b0 b1 : Byte) : Half := b1 ++ b0

def le32 (b0 b1 b2 b3 : Byte) : Word := (b3 ++ b2 : Half) ++ (b1 ++ b0 : Half)

def bytes16 (v : Half) : List Byte := [v.extractLsb' 0 8, v.extractLsb' 8 8]

def bytes32 (v : Word) : List Byte :=
  [v.extractLsb' 0 8, v.extractLsb' 8 8, v.extractLsb' 16 8, v.extractLsb' 24 8]

/-! ### Index maps of the register views -/

/-- 10_state.md R21. -/
def Reg.ofIndex (i : BitVec 3) : Reg :=
  match i.toNat with
  | 0 => .eax | 1 => .ecx | 2 => .edx | 3 => .ebx | 4 => .esp | 5 => .ebp | 6 => .esi | _ => .edi

def Reg.index : Reg → BitVec 3
  | .eax => 0 | .ecx => 1 | .edx => 2 | .ebx => 3 | .esp => 4 | .ebp => 5 | .esi => 6 | .edi => 7

/-- 10_state.md R24, 92_eei_decisions.md D1 (log entry 13). -/
def Reg8.ofIndex (i : BitVec 3) : Reg8 :=
  match i.toNat with
  | 0 => .al | 1 => .cl | 2 => .dl | 3 => .bl | 4 => .ah | 5 => .ch | 6 => .dh | _ => .bh

def Reg8.index : Reg8 → BitVec 3
  | .al => 0 | .cl => 1 | .dl => 2 | .bl => 3 | .ah => 4 | .ch => 5 | .dh => 6 | .bh => 7

/-- 10_state.md R27, 92_eei_decisions.md D2 (log entry 13); 6 and 7 name no segment register. -/
def Sreg.ofIndex? (i : BitVec 3) : Option Sreg :=
  match i.toNat with
  | 0 => some .es | 1 => some .cs | 2 => some .ss | 3 => some .ds | 4 => some .fs | 5 => some .gs
  | _ => none

def Sreg.index : Sreg → BitVec 3
  | .es => 0 | .cs => 1 | .ss => 2 | .ds => 3 | .fs => 4 | .gs => 5

def SregDst.toSreg : SregDst → Sreg
  | .es => .es | .ss => .ss | .ds => .ds | .fs => .fs | .gs => .gs

/-- The destinations of opcode 0x8E: index 1 (CS), 6 and 7 are none (41_mov_modrm.md R131). -/
def SregDst.ofIndex? (i : BitVec 3) : Option SregDst :=
  match i.toNat with
  | 0 => some .es | 2 => some .ss | 3 => some .ds | 4 => some .fs | 5 => some .gs | _ => none

/-- 30_encoding.md R88: the base values in the order of rm. -/
def Base16.ofIndex (i : BitVec 3) : Base16 :=
  match i.toNat with
  | 0 => .bxSi | 1 => .bxDi | 2 => .bpSi | 3 => .bpDi | 4 => .si | 5 => .di | 6 => .bp | _ => .bx

def Base16.index : Base16 → BitVec 3
  | .bxSi => 0 | .bxDi => 1 | .bpSi => 2 | .bpDi => 3 | .si => 4 | .di => 5 | .bp => 6 | .bx => 7

/-! ### ModRM and SIB bytes (30_encoding.md R76, R80) -/

/-- The fields at bits 7:6, 5:3 and 2:0. -/
def ModRm.ofByte (b : Byte) : ModRm := ⟨b.extractLsb' 6 2, b.extractLsb' 3 3, b.extractLsb' 0 3⟩

def ModRm.toByte (m : ModRm) : Byte := (m.mod ++ m.reg : BitVec 5) ++ m.rm

/-- SIB: scale at bits 7:6 and index at bits 5:3. -/
def SibIndex.ofByte (b : Byte) : SibIndex := ⟨b.extractLsb' 6 2, Reg.ofIndex (b.extractLsb' 3 3)⟩

/-- SIB.base at bits 2:0. -/
def sibBase (b : Byte) : Reg := Reg.ofIndex (b.extractLsb' 0 3)

def SibIndex.toByte (x : SibIndex) (base : Reg) : Byte :=
  (x.scale ++ x.index.index : BitVec 5) ++ base.index

/-! ### Taking bytes from the stream -/

/-- Why the decoder rejects a byte list. Every list that is long enough decodes (30_encoding.md R101). -/
inductive DecodeReject where
  /-- The list ends inside the instruction. -/
  | truncated
  deriving DecidableEq, Repr

/-- What a decoder of an `α` answers: the value and the bytes after it, or the reason it rejects. -/
abbrev Decoded (α : Type) := Except DecodeReject (α × List Byte)

def take1 : List Byte → Decoded Byte
  | b :: bs => .ok (b, bs)
  | [] => .error .truncated

def take2 : List Byte → Decoded Half
  | b0 :: b1 :: bs => .ok (le16 b0 b1, bs)
  | _ => .error .truncated

def take4 : List Byte → Decoded Word
  | b0 :: b1 :: b2 :: b3 :: bs => .ok (le32 b0 b1 b2 b3, bs)
  | _ => .error .truncated

/-- An immediate of width `OW` (30_encoding.md R84). -/
def takeVal (ow : OpWidth) (bs : List Byte) : Decoded Val :=
  match ow with
  | .w16 => (take2 bs).map fun (v, bs) => (.v16 v, bs)
  | .w32 => (take4 bs).map fun (v, bs) => (.v32 v, bs)

/-- A moffs literal of width `AW` (30_encoding.md R84, 42_mov_moffs.md R140). -/
def takeMoffs (aw : AddrWidth) (bs : List Byte) : Decoded Moffs :=
  match aw with
  | .a16 => (take2 bs).map fun (v, bs) => (.o16 v, bs)
  | .a32 => (take4 bs).map fun (v, bs) => (.o32 v, bs)

/-! ### Memory operands (30_encoding.md R86 to R93, R96) -/

/-- The memory operand of ModRM (mod, rm), mod not 3, under `AW` = 16 (R87, R88). -/
def decodeMem16 (m : ModRm) (bs : List Byte) : Decoded Mem16 :=
  if m.mod = 0 then
    if m.rm = 6 then (take2 bs).map fun (d, bs) => (.direct d, bs)
    else .ok (.base (Base16.ofIndex m.rm), bs)
  else if m.mod = 1 then (take1 bs).map fun (d, bs) => (.disp8 (Base16.ofIndex m.rm) d, bs)
  else (take2 bs).map fun (d, bs) => (.disp16 (Base16.ofIndex m.rm) d, bs)

/-- The memory operand after a SIB byte `b` (R92, R93). -/
def decodeSib (mod : BitVec 2) (b : Byte) (bs : List Byte) : Decoded Mem32 :=
  if mod = 0 then
    if sibBase b = .ebp then (take4 bs).map fun (d, bs) => (.sibDirect (SibIndex.ofByte b) d, bs)
    else .ok (.sib (SibIndex.ofByte b) (sibBase b), bs)
  else if mod = 1 then
    (take1 bs).map fun (d, bs) => (.sibDisp8 (SibIndex.ofByte b) (sibBase b) d, bs)
  else (take4 bs).map fun (d, bs) => (.sibDisp32 (SibIndex.ofByte b) (sibBase b) d, bs)

/-- The memory operand of ModRM (mod, rm), mod not 3, under `AW` = 32 (R80, R87, R90, R91). -/
def decodeMem32 (m : ModRm) (bs : List Byte) : Decoded Mem32 :=
  if m.rm = 4 then (take1 bs).bind fun (b, bs) => decodeSib m.mod b bs
  else if m.mod = 0 then
    if m.rm = 5 then (take4 bs).map fun (d, bs) => (.direct d, bs)
    else .ok (.base (Reg.ofIndex m.rm), bs)
  else if m.mod = 1 then (take1 bs).map fun (d, bs) => (.disp8 (Reg.ofIndex m.rm) d, bs)
  else (take4 bs).map fun (d, bs) => (.disp32 (Reg.ofIndex m.rm) d, bs)

/-- The r/m operand of a ModRM byte: a register view when mod = 3, which fetches nothing more
(R77, R79, R85), else memory. -/
def decodeRm {ρ : Type} (aw : AddrWidth) (regOf : BitVec 3 → ρ) (m : ModRm) (bs : List Byte) :
    Decoded (Rm ρ) :=
  if m.mod = 3 then .ok (.reg (regOf m.rm), bs)
  else match aw with
    | .a16 => (decodeMem16 m bs).map fun (x, bs) => (.mem (.m16 x), bs)
    | .a32 => (decodeMem32 m bs).map fun (x, bs) => (.mem (.m32 x), bs)

/-! ### The opcode map (30_encoding.md R99, 40_step_and_halt.md R112) -/

/-- The entries of the dispatch table. -/
inductive OpcodeEntry where
  | halt | operandSize | addressSize
  | movRm8R8 | movRmR | movR8Rm8 | movRRm | movRm16Sreg | movSregRm16
  | movAlMoffs | movAxMoffs | movMoffsAl | movMoffsAx
  | movR8Imm | movRImm | movRm8Imm | movRmImm | groupFF
  | unmapped
  deriving DecidableEq, Repr

/-- `Dispatch(opcode)`: a constant function of the opcode byte. -/
def opcodeEntry (op : Byte) : OpcodeEntry :=
  if op = 0x00 then .halt
  else if op = 0x66 then .operandSize
  else if op = 0x67 then .addressSize
  else if op = 0x88 then .movRm8R8
  else if op = 0x89 then .movRmR
  else if op = 0x8A then .movR8Rm8
  else if op = 0x8B then .movRRm
  else if op = 0x8C then .movRm16Sreg
  else if op = 0x8E then .movSregRm16
  else if op = 0xA0 then .movAlMoffs
  else if op = 0xA1 then .movAxMoffs
  else if op = 0xA2 then .movMoffsAl
  else if op = 0xA3 then .movMoffsAx
  else if op &&& 0xF8 = 0xB0 then .movR8Imm
  else if op &&& 0xF8 = 0xB8 then .movRImm
  else if op = 0xC6 then .movRm8Imm
  else if op = 0xC7 then .movRmImm
  else if op = 0xFF then .groupFF
  else .unmapped

/-- The register index in bits 2:0 of an opcode of format `OP+r, imm` (30_encoding.md R70). -/
def opcodeReg (op : Byte) : BitVec 3 := op.extractLsb' 0 3

/-! ### The bytes after a ModRM byte, opcode by opcode (41_mov_modrm.md, 43_mov_imm.md, 44_push.md) -/

def decode88 (aw : AddrWidth) (m : ModRm) (bs : List Byte) : Decoded Instr :=
  (decodeRm aw Reg8.ofIndex m bs).map fun (x, bs) => (.movRm8R8 x (Reg8.ofIndex m.reg), bs)

def decode89 (aw : AddrWidth) (ow : OpWidth) (m : ModRm) (bs : List Byte) : Decoded Instr :=
  (decodeRm aw Reg.ofIndex m bs).map fun (x, bs) => (.movRmR ow x (Reg.ofIndex m.reg), bs)

def decode8A (aw : AddrWidth) (m : ModRm) (bs : List Byte) : Decoded Instr :=
  (decodeRm aw Reg8.ofIndex m bs).map fun (x, bs) => (.movR8Rm8 (Reg8.ofIndex m.reg) x, bs)

def decode8B (aw : AddrWidth) (ow : OpWidth) (m : ModRm) (bs : List Byte) : Decoded Instr :=
  (decodeRm aw Reg.ofIndex m bs).map fun (x, bs) => (.movRRm ow (Reg.ofIndex m.reg) x, bs)

/-- reg 6 and 7 are invalid, and nothing after the ModRM byte is fetched then (R130, R172). -/
def decode8C (aw : AddrWidth) (m : ModRm) (bs : List Byte) : Decoded Instr :=
  match Sreg.ofIndex? m.reg with
  | some s => (decodeRm aw Reg.ofIndex m bs).map fun (x, bs) => (.movRm16Sreg x s, bs)
  | none => .ok (.invalid8CReg m, bs)

/-- reg 1 (CS), 6 and 7 are invalid (R131, R172). -/
def decode8E (aw : AddrWidth) (m : ModRm) (bs : List Byte) : Decoded Instr :=
  match SregDst.ofIndex? m.reg with
  | some s => (decodeRm aw Reg.ofIndex m bs).map fun (x, bs) => (.movSregRm16 s x, bs)
  | none => .ok (if m.reg = 1 then .invalid8ECs m else .invalid8EReg m, bs)

/-- reg must be 0; the immediate follows the displacement (R152). -/
def decodeC6 (aw : AddrWidth) (m : ModRm) (bs : List Byte) : Decoded Instr :=
  if m.reg = 0 then
    (decodeRm aw Reg8.ofIndex m bs).bind fun (x, bs) =>
      (take1 bs).map fun (v, bs) => (.movRm8Imm x v, bs)
  else .ok (.invalidC6 m, bs)

/-- reg must be 0; the immediate follows the displacement (R153). -/
def decodeC7 (aw : AddrWidth) (ow : OpWidth) (m : ModRm) (bs : List Byte) : Decoded Instr :=
  if m.reg = 0 then
    (decodeRm aw Reg.ofIndex m bs).bind fun (x, bs) =>
      (takeVal ow bs).map fun (v, bs) => (.movRmImm x v, bs)
  else .ok (.invalidC7 m, bs)

/-- reg must be 6 (R161, R162). -/
def decodeFF (aw : AddrWidth) (ow : OpWidth) (m : ModRm) (bs : List Byte) : Decoded Instr :=
  if m.reg = 6 then (decodeRm aw Reg.ofIndex m bs).map fun (x, bs) => (.pushRm ow x, bs)
  else .ok (.invalidFF m, bs)

/-- The ModRM byte, and then the rest as `k` reads it (R76). -/
def withModRm (bs : List Byte) (k : ModRm → List Byte → Decoded Instr) : Decoded Instr :=
  (take1 bs).bind fun (b, bs) => k (ModRm.ofByte b) bs

/-- The row of the opcode table at the head of a byte list, under the address width and operand width in
force (R102), and the bytes after it. -/
def decode (aw : AddrWidth) (ow : OpWidth) : List Byte → Decoded Instr
  | [] => .error .truncated
  | op :: bs =>
    match opcodeEntry op with
    | .halt => .ok (.halt, bs)
    | .operandSize => .ok (.prefixOperandSize, bs)
    | .addressSize => .ok (.prefixAddressSize, bs)
    | .movRm8R8 => withModRm bs (decode88 aw)
    | .movRmR => withModRm bs (decode89 aw ow)
    | .movR8Rm8 => withModRm bs (decode8A aw)
    | .movRRm => withModRm bs (decode8B aw ow)
    | .movRm16Sreg => withModRm bs (decode8C aw)
    | .movSregRm16 => withModRm bs (decode8E aw)
    | .movAlMoffs => (takeMoffs aw bs).map fun (o, bs) => (.movAlMoffs o, bs)
    | .movAxMoffs => (takeMoffs aw bs).map fun (o, bs) => (.movAxMoffs ow o, bs)
    | .movMoffsAl => (takeMoffs aw bs).map fun (o, bs) => (.movMoffsAl o, bs)
    | .movMoffsAx => (takeMoffs aw bs).map fun (o, bs) => (.movMoffsAx ow o, bs)
    | .movR8Imm => (take1 bs).map fun (v, bs) => (.movR8Imm (Reg8.ofIndex (opcodeReg op)) v, bs)
    | .movRImm => (takeVal ow bs).map fun (v, bs) => (.movRImm (Reg.ofIndex (opcodeReg op)) v, bs)
    | .movRm8Imm => withModRm bs (decodeC6 aw)
    | .movRmImm => withModRm bs (decodeC7 aw ow)
    | .groupFF => withModRm bs (decodeFF aw ow)
    | .unmapped => .ok (.unknown op, bs)

/-! ### The encoder -/

/-- The ModRM byte of a memory operand with `reg`, then its SIB and displacement bytes (R70, R87, R96). -/
def encodeMem (reg : BitVec 3) : MemOp → List Byte
  | .m16 (.base b) => [ModRm.toByte ⟨0, reg, b.index⟩]
  | .m16 (.direct d) => ModRm.toByte ⟨0, reg, 6⟩ :: bytes16 d
  | .m16 (.disp8 b d) => [ModRm.toByte ⟨1, reg, b.index⟩, d]
  | .m16 (.disp16 b d) => ModRm.toByte ⟨2, reg, b.index⟩ :: bytes16 d
  | .m32 (.base r) => [ModRm.toByte ⟨0, reg, r.index⟩]
  | .m32 (.direct d) => ModRm.toByte ⟨0, reg, 5⟩ :: bytes32 d
  | .m32 (.disp8 r d) => [ModRm.toByte ⟨1, reg, r.index⟩, d]
  | .m32 (.disp32 r d) => ModRm.toByte ⟨2, reg, r.index⟩ :: bytes32 d
  | .m32 (.sib x r) => [ModRm.toByte ⟨0, reg, 4⟩, x.toByte r]
  | .m32 (.sibDirect x d) => ModRm.toByte ⟨0, reg, 4⟩ :: x.toByte .ebp :: bytes32 d
  | .m32 (.sibDisp8 x r d) => [ModRm.toByte ⟨1, reg, 4⟩, x.toByte r, d]
  | .m32 (.sibDisp32 x r d) => ModRm.toByte ⟨2, reg, 4⟩ :: x.toByte r :: bytes32 d

/-- The ModRM byte of an r/m operand with `reg`, then its SIB and displacement bytes. -/
def encodeRm {ρ : Type} (indexOf : ρ → BitVec 3) (reg : BitVec 3) : Rm ρ → List Byte
  | .reg r => [ModRm.toByte ⟨3, reg, indexOf r⟩]
  | .mem m => encodeMem reg m

def encodeMoffs : Moffs → List Byte
  | .o16 o => bytes16 o
  | .o32 o => bytes32 o

def encodeVal : Val → List Byte
  | .v16 v => bytes16 v
  | .v32 v => bytes32 v

/-- The bytes of a row of the opcode table, its operands included (30_encoding.md R70). -/
def encode : Instr → List Byte
  | .prefixOperandSize => [0x66]
  | .prefixAddressSize => [0x67]
  | .halt => [0x00]
  | .movRm8R8 dst src => 0x88 :: encodeRm Reg8.index src.index dst
  | .movRmR _ dst src => 0x89 :: encodeRm Reg.index src.index dst
  | .movR8Rm8 dst src => 0x8A :: encodeRm Reg8.index dst.index src
  | .movRRm _ dst src => 0x8B :: encodeRm Reg.index dst.index src
  | .movRm16Sreg dst src => 0x8C :: encodeRm Reg.index src.index dst
  | .movSregRm16 dst src => 0x8E :: encodeRm Reg.index dst.toSreg.index src
  | .movAlMoffs src => 0xA0 :: encodeMoffs src
  | .movAxMoffs _ src => 0xA1 :: encodeMoffs src
  | .movMoffsAl dst => 0xA2 :: encodeMoffs dst
  | .movMoffsAx _ dst => 0xA3 :: encodeMoffs dst
  | .movR8Imm dst imm => [(0b10110 : BitVec 5) ++ dst.index, imm]
  | .movRImm dst imm => ((0b10111 : BitVec 5) ++ dst.index) :: encodeVal imm
  | .movRm8Imm dst imm => 0xC6 :: (encodeRm Reg8.index 0 dst ++ [imm])
  | .movRmImm dst imm => 0xC7 :: (encodeRm Reg.index 0 dst ++ encodeVal imm)
  | .pushRm _ src => 0xFF :: encodeRm Reg.index 6 src
  | .invalidC6 m => [0xC6, m.toByte]
  | .invalidC7 m => [0xC7, m.toByte]
  | .invalidFF m => [0xFF, m.toByte]
  | .invalid8ECs m => [0x8E, m.toByte]
  | .invalid8EReg m => [0x8E, m.toByte]
  | .invalid8CReg m => [0x8C, m.toByte]
  | .unknown op => [op]

/-- 30_encoding.md R73. -/
def PrefixByte.toByte : PrefixByte → Byte
  | .operandSize => 0x66
  | .addressSize => 0x67

/-- The prefix row that a prefix byte is. -/
def PrefixByte.row : PrefixByte → Instr
  | .operandSize => .prefixOperandSize
  | .addressSize => .prefixAddressSize

/-- The bytes of a whole instruction: its prefixes in stream order and its body (30_encoding.md R70). -/
def encodeWhole (ps : List PrefixByte) (i : Instr) : List Byte :=
  ps.map PrefixByte.toByte ++ encode i

/-! ### The opcode table's words -/

/-- The bytes of a table word, first byte first, every bit above `nbits` zero, up to the longest body. -/
def tableBytes (nbits w : Nat) : List Byte :=
  (List.range (max Config.maxBody (nbits / 8))).map fun k =>
    BitVec.ofNat 8 (w % 2 ^ nbits / 2 ^ (8 * k))

/-- The row the decoder reads from a table word, with no prefix before it in Real mode: `AW` = `OW` = 16
(30_encoding.md R82, R83). -/
def decodeTableWord (nbits w : Nat) : Option Instr :=
  match decode .a16 .w16 (tableBytes nbits w) with
  | .ok (i, _) => some i
  | .error _ => none

end Sys2Proof
end

