-- ==== Sys2Proof/Machine/State.lean ====
section
/-! DEFINITION. The state of the block (10_state.md R20), the reasons a step can stop, and the launch
state (10_state.md R40, 70_reset_and_hazards.md R190). -/

namespace Sys2Proof.Machine

/-- The eight 32-bit general-purpose registers (10_state.md R21). -/
structure Gprs where
  eax : Word
  ecx : Word
  edx : Word
  ebx : Word
  esp : Word
  ebp : Word
  esi : Word
  edi : Word
  deriving DecidableEq, Repr

/-- A 32-bit segment register as its two halves (10_state.md R27, R28, log entry 12): `upper` is bits
31:16, which no rule reads, and `low` is the 16-bit view. -/
structure SegReg where
  upper : Half
  low   : Half
  deriving DecidableEq, Repr

/-- The six segment registers (10_state.md R27). -/
structure Sregs where
  es : SegReg
  cs : SegReg
  ss : SegReg
  ds : SegReg
  fs : SegReg
  gs : SegReg
  deriving DecidableEq, Repr

/-- The CPU mode (10_state.md R33). -/
inductive Mode where
  | real
  | protectedMode
  | virtual8086
  deriving DecidableEq, Repr

/-- The fault conditions (60_exceptions.md R170). -/
inductive FaultCode where
  | unimplementedMode
  | invalidOpcode
  | unknownOpcode
  | programmingError
  deriving DecidableEq, Repr

/-- The fault record (60_exceptions.md R175). -/
structure FaultRecord where
  code   : FaultCode
  cs     : Half
  eip    : Word
  opcode : Option Byte
  reg    : Option (BitVec 3)
  mode   : Option Mode
  deriving DecidableEq, Repr

/-- The run status (10_state.md R35). -/
inductive Status where
  | running
  | halted
  | faulted (r : FaultRecord)
  deriving DecidableEq, Repr

/-- The byte store (10_state.md R36): the bytes that differ from `blankByte`, by physical address, rising.
Every content of the 2^20 bytes has exactly one such list. -/
abbrev Memory := List Host.Cell

/-- What an unlisted address reads as (log entry 2). -/
abbrev blankByte : Byte := 0

/-- The state of one block instance (10_state.md R20). -/
structure State where
  gpr    : Gprs
  sreg   : Sregs
  eip    : Word
  eflags : Word
  mode   : Mode
  /-- Operand-size override, set by byte 0x66 (R34). -/
  opsz   : Bool
  /-- Address-size override, set by byte 0x67 (R34). -/
  adsz   : Bool
  status : Status
  mem    : Memory
  deriving DecidableEq, Repr

/-- Why the block takes no step. The four fault conditions of 60_exceptions.md R170 are not among them:
a step that raises one answers a next state whose status is Faulted. -/
inductive Fault where
  /-- Raised by `step` on a block whose status is Halted or Faulted, which takes no further step
  (10_state.md R35). Safe: there is no next state to be wrong about. Log entry 5. -/
  | runEnded
  /-- Raised by `step` when the prefix scan has fetched 2^20 prefix bytes: the block is stuck
  (30_encoding.md R74, 40_step_and_halt.md R118). Safe, as D8 says. Log entry 6. -/
  | prefixHang
  deriving DecidableEq, Repr

/-- Why the model gives an instruction no meaning. -/
inductive Refusal where
  /-- An arm of `exec` without a meaning. Safe. No arm answers it. -/
  | notModelled (mnemonic : String)
  /-- Raised by `step` if the decoder rejects the eleven bytes it is given. Safe. No step answers it,
  because every instruction body has at most eleven bytes (30_encoding.md R71, R101). -/
  | undecodable (r : DecodeReject)
  deriving DecidableEq, Repr

/-- The launch parameters the host chooses (00_scope.md R10), but for `MEM0`. -/
structure Launch where
  esp0 : Word
  eip0 : Word
  cs0  : SegReg
  ds0  : SegReg
  es0  : SegReg
  ss0  : SegReg
  fs0  : SegReg
  gs0  : SegReg
  deriving DecidableEq, Repr

/-- The state right after launch (10_state.md R40, 70_reset_and_hazards.md R190, R191). -/
def State.launch (p : Launch) (mem0 : Memory) : State where
  gpr := { eax := 0, ecx := 0, edx := 0, ebx := 0, esp := p.esp0, ebp := 0, esi := 0, edi := 0 }
  sreg := { es := p.es0, cs := p.cs0, ss := p.ss0, ds := p.ds0, fs := p.fs0, gs := p.gs0 }
  eip := p.eip0
  eflags := 0
  mode := .real
  opsz := false
  adsz := false
  status := .running
  mem := mem0

/-- The launch parameters of `State.reset`: those of the conventions of 95_test_vectors.md. The spec leaves
them to the host. DESIGN CHOICE, unsafe, log entry 1. -/
def Launch.default : Launch where
  esp0 := 0x00007C00
  eip0 := 0x00000100
  cs0 := ⟨0, 0⟩
  ds0 := ⟨0, 0⟩
  es0 := ⟨0, 0⟩
  ss0 := ⟨0, 0⟩
  fs0 := ⟨0, 0⟩
  gs0 := ⟨0, 0⟩

/-- The block right after launch with nothing loaded (log entries 1, 2, 4). -/
def State.reset : State := State.launch Launch.default []

end Sys2Proof.Machine
end

