-- ==== Sys2Proof/Machine/Ops.lean ====
section
/-! DEFINITION. The shared operations on registers and memory (10_state.md §2 to §6, 20_memory.md §1, §2,
44_push.md R160), and the taking of a fault (60_exceptions.md R175, R176). -/

namespace Sys2Proof.Machine

/-! ### General-purpose registers and their views (10_state.md R21 to R26) -/

def Gprs.get (g : Gprs) : Reg → Word
  | .eax => g.eax | .ecx => g.ecx | .edx => g.edx | .ebx => g.ebx
  | .esp => g.esp | .ebp => g.ebp | .esi => g.esi | .edi => g.edi

def Gprs.set (g : Gprs) (r : Reg) (v : Word) : Gprs :=
  match r with
  | .eax => { g with eax := v } | .ecx => { g with ecx := v }
  | .edx => { g with edx := v } | .ebx => { g with ebx := v }
  | .esp => { g with esp := v } | .ebp => { g with ebp := v }
  | .esi => { g with esi := v } | .edi => { g with edi := v }

/-- `GPR32[i]` (R22). -/
def State.gpr32 (s : State) (r : Reg) : Word := s.gpr.get r

/-- `GPR32[i] <- v` (R22). -/
def State.setGpr32 (s : State) (r : Reg) (v : Word) : State := { s with gpr := s.gpr.set r v }

/-- `GPR16[i]`, bits 15:0 (R23). -/
def State.gpr16 (s : State) (r : Reg) : Half := (s.gpr32 r).extractLsb' 0 16

/-- `GPR16[i] <- v` keeps bits 31:16 (R23). -/
def State.setGpr16 (s : State) (r : Reg) (v : Half) : State :=
  s.setGpr32 r ((s.gpr32 r).extractLsb' 16 16 ++ v)

/-- The 32-bit register an 8-bit view is part of (R24). -/
def Reg8.parent : Reg8 → Reg
  | .al => .eax | .cl => .ecx | .dl => .edx | .bl => .ebx
  | .ah => .eax | .ch => .ecx | .dh => .edx | .bh => .ebx

/-- Is the view bits 15:8 of its register (R24)? -/
def Reg8.isHigh : Reg8 → Bool
  | .al => false | .cl => false | .dl => false | .bl => false
  | .ah => true | .ch => true | .dh => true | .bh => true

/-- `GPR8[j]` (R24). -/
def State.gpr8 (s : State) (r : Reg8) : Byte :=
  if Reg8.isHigh r then (s.gpr32 (Reg8.parent r)).extractLsb' 8 8
  else (s.gpr32 (Reg8.parent r)).extractLsb' 0 8

/-- `GPR8[j] <- v` changes one byte (R25). -/
def State.setGpr8 (s : State) (r : Reg8) (v : Byte) : State :=
  let old := s.gpr32 (Reg8.parent r)
  if Reg8.isHigh r then
    s.setGpr32 (Reg8.parent r) (old.extractLsb' 16 16 ++ (v ++ old.extractLsb' 0 8 : Half))
  else s.setGpr32 (Reg8.parent r) (old.extractLsb' 8 24 ++ v)

/-- `GPR_OW[i]` (30_encoding.md R83). -/
def State.gprOw (s : State) (w : OpWidth) (r : Reg) : Val :=
  match w with
  | .w16 => .v16 (s.gpr16 r)
  | .w32 => .v32 (s.gpr32 r)

/-- `GPR_OW[i] <- v`, the width being the value's (30_encoding.md R83). -/
def State.setGprOw (s : State) (r : Reg) : Val → State
  | .v16 v => s.setGpr16 r v
  | .v32 v => s.setGpr32 r v

/-! ### Segment registers (10_state.md R27 to R29) -/

def Sregs.get (g : Sregs) : Sreg → SegReg
  | .es => g.es | .cs => g.cs | .ss => g.ss | .ds => g.ds | .fs => g.fs | .gs => g.gs

def Sregs.set (g : Sregs) (r : Sreg) (v : SegReg) : Sregs :=
  match r with
  | .es => { g with es := v } | .cs => { g with cs := v } | .ss => { g with ss := v }
  | .ds => { g with ds := v } | .fs => { g with fs := v } | .gs => { g with gs := v }

/-- The whole 32-bit register. -/
def SegReg.full (r : SegReg) : Word := r.upper ++ r.low

def SegReg.ofFull (v : Word) : SegReg := ⟨v.extractLsb' 16 16, v.extractLsb' 0 16⟩

/-- A 16-bit write: bits 31:16 as `SREG_WRITE_UPPER` says (R29). -/
def SegReg.write (p : SregUpper) (r : SegReg) (v : Half) : SegReg where
  upper := match p with
    | .preserve => r.upper
    | .zero => 0
  low := v

/-- `SREG16[i]` (R28). -/
def State.sreg16 (s : State) (r : Sreg) : Half := (s.sreg.get r).low

/-- `SREG[i] <- v16` by an instruction, under a given `SREG_WRITE_UPPER` (R29). -/
def State.writeSregAs (p : SregUpper) (s : State) (r : Sreg) (v : Half) : State :=
  { s with sreg := s.sreg.set r ((s.sreg.get r).write p v) }

/-- `SREG[i] <- v16` of this implementation (R29, D11, log entry 3): by 0x8E, and by the host through the 16-bit view. -/
def State.writeSreg (s : State) (r : Sreg) (v : Half) : State :=
  s.writeSregAs Config.sregWriteUpper r v

/-! ### Prefix flags and instruction pointer (10_state.md R30, R31, R34) -/

/-- The prefix flags are reset at the start of every instruction (R34). -/
def State.clearPrefixes (s : State) : State := { s with opsz := false, adsz := false }

/-- What a prefix byte does (30_encoding.md R73). -/
def State.applyPrefix (s : State) : PrefixByte → State
  | .operandSize => { s with opsz := true }
  | .addressSize => { s with adsz := true }

/-- EIP advances modulo 2^32 (R31, D7). -/
def State.advanceEip (s : State) (n : Nat) : State := { s with eip := s.eip + BitVec.ofNat 32 n }

def State.setStatus (s : State) (st : Status) : State := { s with status := st }

/-! ### Faults (60_exceptions.md R170 to R176) -/

/-- What `raise F(info)` says (R175): the fault conditions a step can raise. -/
inductive FaultInfo where
  | unimplementedMode (m : Mode)
  | invalidOpcode (opcode : Byte) (reg : BitVec 3)
  | unknownOpcode (opcode : Byte)
  deriving DecidableEq, Repr

/-- The record of a fault raised by the instruction that starts at `s` (R175, D5): `cs` and `eip` are the
instruction start. -/
def faultRecord (s : State) : FaultInfo → FaultRecord
  | .unimplementedMode m =>
    { code := .unimplementedMode, cs := s.sreg16 .cs, eip := s.eip, opcode := none, reg := none, mode := some m }
  | .invalidOpcode op reg =>
    { code := .invalidOpcode, cs := s.sreg16 .cs, eip := s.eip, opcode := some op, reg := some reg, mode := none }
  | .unknownOpcode op =>
    { code := .unknownOpcode, cs := s.sreg16 .cs, eip := s.eip, opcode := some op, reg := none, mode := none }

/-- Taking a fault: `pre`, the state before the instruction, with status Faulted (R176). Nothing is saved
elsewhere, no mode changes and no handler runs (R180), and there is no return from a fault (R181). -/
def takeFault (pre : State) (f : FaultInfo) : State := pre.setStatus (.faulted (faultRecord pre f))

/-- The end of an instruction's meaning: its result, or the fault it raised, taken from the state the
meaning started in. -/
def complete (pre : State) : Except FaultInfo State → Host.Outcome State Fault Refusal
  | .ok t => .next t
  | .error f => .next (takeFault pre f)

/-- Has the block left a run by a fault (10_state.md R35)? -/
def Status.isFaulted : Status → Bool
  | .running => false
  | .halted => false
  | .faulted _ => true

/-! ### The byte store (10_state.md R36, 20_memory.md R52) -/

/-- The byte at an address: the listed one, else `blankByte`. -/
def Memory.read : Memory → Nat → Byte
  | [], _ => blankByte
  | (k, v) :: m, a => if a = k then v else Memory.read m a

/-- Put a byte at an address, keeping the canonical form. -/
def Memory.write : Memory → Nat → Byte → Memory
  | [], a, b => if b = blankByte then [] else [(a, b)]
  | (k, v) :: m, a, b =>
    if a < k then (if b = blankByte then (k, v) :: m else (a, b) :: (k, v) :: m)
    else if a = k then (if b = blankByte then m else (a, b) :: m)
    else (k, v) :: Memory.write m a b

/-- The addresses are at least `lo`, rising, and inside the store, and no byte is `blankByte`. -/
def Memory.wfFrom : Nat → Memory → Bool
  | _, [] => true
  | lo, (k, v) :: m =>
    decide (lo ≤ k) && decide (k < Config.memSize) && !(v == blankByte) && Memory.wfFrom (k + 1) m

/-- The canonical form. -/
def Memory.wf (m : Memory) : Bool := Memory.wfFrom 0 m

/-- `PhysRead(p)` (R52). -/
def State.physRead (s : State) (p : Phys) : Byte := Memory.read s.mem p.toNat

/-- `PhysWrite(p, b)` (R52). -/
def State.physWrite (s : State) (p : Phys) (b : Byte) : State :=
  { s with mem := Memory.write s.mem p.toNat b }

/-! ### Address translation (20_memory.md R50, R51) -/

/-- Real mode: the sum taken without loss, then reduced modulo 2^20. -/
def realAddress (seg : Half) (off : Word) : Phys := BitVec.ofNat 20 (seg.toNat * 16 + off.toNat)

/-- `translate(mode, seg, off)`. -/
def translateAddress (mode : Mode) (seg : Half) (off : Word) : Except FaultInfo Phys :=
  match mode with
  | .real => .ok (realAddress seg off)
  | .protectedMode => .error (.unimplementedMode .protectedMode)
  | .virtual8086 => .error (.unimplementedMode .virtual8086)

/-- The address of byte `k` of an access at seg:off; `off + k` is taken modulo 2^32 (R53, R54). -/
def State.byteAddress (s : State) (seg : Half) (off : Word) (k : Nat) : Except FaultInfo Phys :=
  translateAddress s.mode seg (off + BitVec.ofNat 32 k)

/-! ### Reads and writes (20_memory.md R53 to R56): little-endian, each byte wrapped on its own -/

/-- Byte `k` of a read at seg:off. -/
def State.readByte (s : State) (seg : Half) (off : Word) (k : Nat) : Except FaultInfo Byte :=
  (s.byteAddress seg off k).map s.physRead

/-- `MemRead(seg, off, 1)`. -/
def State.readU8 (s : State) (seg : Half) (off : Word) : Except FaultInfo Byte := s.readByte seg off 0

/-- `MemRead(seg, off, 2)`. -/
def State.readU16 (s : State) (seg : Half) (off : Word) : Except FaultInfo Half := do
  let b0 ← s.readByte seg off 0
  let b1 ← s.readByte seg off 1
  return le16 b0 b1

/-- `MemRead(seg, off, 4)`. -/
def State.readU32 (s : State) (seg : Half) (off : Word) : Except FaultInfo Word := do
  let b0 ← s.readByte seg off 0
  let b1 ← s.readByte seg off 1
  let b2 ← s.readByte seg off 2
  let b3 ← s.readByte seg off 3
  return le32 b0 b1 b2 b3

/-- Write the bytes `bs` at byte `k` of seg:off and after. The mode does not change on the way, so a
translation that fails does so at the first byte, before anything is written (R54). -/
def State.writeBytes (s : State) (seg : Half) (off : Word) : Nat → List Byte → Except FaultInfo State
  | _, [] => .ok s
  | k, b :: bs =>
    match s.byteAddress seg off k with
    | .ok p => (s.physWrite p b).writeBytes seg off (k + 1) bs
    | .error f => .error f

/-- `MemWrite(seg, off, 1, v)`. -/
def State.writeU8 (s : State) (seg : Half) (off : Word) (v : Byte) : Except FaultInfo State :=
  s.writeBytes seg off 0 [v]

/-- `MemWrite(seg, off, 2, v)`. -/
def State.writeU16 (s : State) (seg : Half) (off : Word) (v : Half) : Except FaultInfo State :=
  s.writeBytes seg off 0 (bytes16 v)

/-- `MemWrite(seg, off, 4, v)`. -/
def State.writeU32 (s : State) (seg : Half) (off : Word) (v : Word) : Except FaultInfo State :=
  s.writeBytes seg off 0 (bytes32 v)

/-- `MemRead(seg, off, OW/8)`. -/
def State.readOw (s : State) (w : OpWidth) (seg : Half) (off : Word) : Except FaultInfo Val :=
  match w with
  | .w16 => (s.readU16 seg off).map .v16
  | .w32 => (s.readU32 seg off).map .v32

/-- `MemWrite(seg, off, OW/8, v)`, the width being the value's. -/
def State.writeOw (s : State) (seg : Half) (off : Word) : Val → Except FaultInfo State
  | .v16 v => s.writeU16 seg off v
  | .v32 v => s.writeU32 seg off v

/-- `OW`/8 of a value. -/
def Val.bytes : Val → Nat
  | .v16 _ => 2
  | .v32 _ => 4

/-- The physical addresses of the `n` bytes of a Real-mode access at seg:off. -/
def storedAddrs (seg : Half) (off : Word) (n : Nat) : List Phys :=
  (List.range n).map fun k => realAddress seg (off + BitVec.ofNat 32 k)

/-! ### The stack push (44_push.md R160) -/

/-- SP after a push of `v` (R160, D13): lowered by the value's bytes modulo 2^16. -/
def State.pushedSp (s : State) (v : Val) : Half := s.gpr16 .esp - BitVec.ofNat 16 (Val.bytes v)

/-- `Push(w, v)`: first SP is lowered, then `v` is written at SS and the new SP. Outside Real mode the
write raises UnimplementedMode, so the stack-pointer width there is never seen (log entry 11). -/
def State.push (s : State) (v : Val) : Except FaultInfo State :=
  let t := s.setGpr16 .esp (s.pushedSp v)
  t.writeOw (t.sreg16 .ss) ((s.pushedSp v).setWidth 32) v

end Sys2Proof.Machine
end

