-- ==== Sys2Proof/Machine/Flags.lean ====
section
/-! DEFINITION. The flags: the prefix flags and the widths they select (10_state.md R34, 30_encoding.md
R82, R83), and the views of EFLAGS (10_state.md R32), which no instruction reads or writes
(40_step_and_halt.md R122), so that there is no flag computation. -/

namespace Sys2Proof.Machine

/-- `AW` (30_encoding.md R82): the prefix toggles the mode's default. -/
def State.addrWidth (s : State) : AddrWidth :=
  if (s.mode ≠ .real ∧ s.adsz = false) ∨ (s.mode = .real ∧ s.adsz = true) then .a32 else .a16

/-- `OW` (30_encoding.md R83). -/
def State.opWidth (s : State) : OpWidth :=
  if (s.mode ≠ .real ∧ s.opsz = false) ∨ (s.mode = .real ∧ s.opsz = true) then .w32 else .w16

/-- The low-16 view of EFLAGS (10_state.md R32). -/
def State.flags16 (s : State) : Half := s.eflags.extractLsb' 0 16

/-- The IP view, the low 16 bits of EIP (10_state.md R30). -/
def State.ip (s : State) : Half := s.eip.extractLsb' 0 16

end Sys2Proof.Machine
end

