-- ==== Sys2Proof/Machine/Operands.lean ====
section
/-! DEFINITION. The effective-address calculator (30_encoding.md R86 to R95), the moffs offset
(42_mov_moffs.md R140) and the reading and writing of r/m operands (30_encoding.md R98). -/

namespace Sys2Proof.Machine

/-- The base value under `AW` = 16: 16-bit views, summed modulo 2^16 (R88). -/
def State.base16 (s : State) : Base16 → Half
  | .bxSi => s.gpr16 .ebx + s.gpr16 .esi
  | .bxDi => s.gpr16 .ebx + s.gpr16 .edi
  | .bpSi => s.gpr16 .ebp + s.gpr16 .esi
  | .bpDi => s.gpr16 .ebp + s.gpr16 .edi
  | .si => s.gpr16 .esi
  | .di => s.gpr16 .edi
  | .bp => s.gpr16 .ebp
  | .bx => s.gpr16 .ebx

/-- The default segment of a 16-bit base: SS for the forms with BP, else DS (R88). -/
def Base16.segment : Base16 → Sreg
  | .bxSi => .ds | .bxDi => .ds | .bpSi => .ss | .bpDi => .ss
  | .si => .ds | .di => .ds | .bp => .ss | .bx => .ds

/-- The offset under `AW` = 16, modulo 2^16 (R87, R89). -/
def State.offset16 (s : State) : Mem16 → Half
  | .base b => s.base16 b
  | .direct d => d
  | .disp8 b d => s.base16 b + d.signExtend 16
  | .disp16 b d => s.base16 b + d

def Mem16.segment : Mem16 → Sreg
  | .base b => Base16.segment b
  | .direct _ => .ds
  | .disp8 b _ => Base16.segment b
  | .disp16 b _ => Base16.segment b

/-- The index contribution of a SIB byte; index 4 (ESP) is none (R81, R92). -/
def State.scaledIndex (s : State) (x : SibIndex) : Word :=
  if x.index = .esp then 0 else s.gpr32 x.index <<< x.scale.toNat

/-- The offset under `AW` = 32 before the Real-mode mask, modulo 2^32 (R87, R90 to R95). -/
def State.offset32 (s : State) : Mem32 → Word
  | .base r => s.gpr32 r
  | .direct d => d
  | .disp8 r d => s.gpr32 r + d.signExtend 32
  | .disp32 r d => s.gpr32 r + d
  | .sib x r => s.scaledIndex x + s.gpr32 r
  | .sibDirect x d => s.scaledIndex x + d
  | .sibDisp8 x r d => s.scaledIndex x + s.gpr32 r + d.signExtend 32
  | .sibDisp32 x r d => s.scaledIndex x + s.gpr32 r + d

/-- The default segment of a base register without a SIB byte: SS for EBP (R90). -/
def Reg.segment32 (r : Reg) : Sreg := if r = .ebp then .ss else .ds

/-- The default segment of a SIB base: SS for ESP and EBP (R92, R94). -/
def Reg.sibSegment (r : Reg) : Sreg := if r = .esp ∨ r = .ebp then .ss else .ds

/-- The index register never changes the segment (R94). -/
def Mem32.segment : Mem32 → Sreg
  | .base r => Reg.segment32 r
  | .direct _ => .ds
  | .disp8 r _ => Reg.segment32 r
  | .disp32 r _ => Reg.segment32 r
  | .sib _ r => Reg.sibSegment r
  | .sibDirect _ _ => .ds
  | .sibDisp8 _ r _ => Reg.sibSegment r
  | .sibDisp32 _ r _ => Reg.sibSegment r

/-- The segment register of `EA(mod, rm)`. -/
def MemOp.segment : MemOp → Sreg
  | .m16 m => Mem16.segment m
  | .m32 m => Mem32.segment m

/-- The offset of `EA(mod, rm)`: in Real mode a 32-bit offset is masked to 16 bits, once, here (R95,
90_conflicts.md C10). -/
def State.offset (s : State) : MemOp → Word
  | .m16 m => (s.offset16 m).setWidth 32
  | .m32 m => if s.mode = .real then s.offset32 m &&& 0x0000FFFF else s.offset32 m

/-- The 16-bit segment value of a memory operand, `SREG16[m.seg]` (R98). -/
def State.segOf (s : State) (m : MemOp) : Half := s.sreg16 (MemOp.segment m)

/-- The moffs offset, never masked (42_mov_moffs.md R140, D10). -/
def Moffs.offset : Moffs → Word
  | .o16 o => o.setWidth 32
  | .o32 o => o

/-! ### `RM_read` and `RM_write` (R98) -/

def State.readRm8 (s : State) : Rm Reg8 → Except FaultInfo Byte
  | .reg r => .ok (s.gpr8 r)
  | .mem m => s.readU8 (s.segOf m) (s.offset m)

def State.readRmOw (s : State) (w : OpWidth) : Rm Reg → Except FaultInfo Val
  | .reg r => .ok (s.gprOw w r)
  | .mem m => s.readOw w (s.segOf m) (s.offset m)

/-- `RM_read(16)` whatever `OW` is, for opcode 0x8E (41_mov_modrm.md R131). -/
def State.readRm16 (s : State) : Rm Reg → Except FaultInfo Half
  | .reg r => .ok (s.gpr16 r)
  | .mem m => s.readU16 (s.segOf m) (s.offset m)

def State.writeRm8 (s : State) (v : Byte) : Rm Reg8 → Except FaultInfo State
  | .reg r => .ok (s.setGpr8 r v)
  | .mem m => s.writeU8 (s.segOf m) (s.offset m) v

def State.writeRmOw (s : State) (v : Val) : Rm Reg → Except FaultInfo State
  | .reg r => .ok (s.setGprOw r v)
  | .mem m => s.writeOw (s.segOf m) (s.offset m) v

end Sys2Proof.Machine
end

