-- ==== Sys2Proof/Machine/Control.lean ====
section
/-! DEFINITION. The prefixes, the halt sentinel, and the encodings that raise a fault
(30_encoding.md R73, R100; 40_step_and_halt.md R115, R116; 60_exceptions.md R172, R173). -/

namespace Sys2Proof.Machine

/-- 0x66: `opsz <- true`; the scan continues in the same step (R73). -/
def execPrefixOperandSize (s : State) : Host.Outcome State Fault Refusal :=
  .next (s.applyPrefix .operandSize)

/-- 0x67: `adsz <- true`; the scan continues in the same step (R73). -/
def execPrefixAddressSize (s : State) : Host.Outcome State Fault Refusal :=
  .next (s.applyPrefix .addressSize)

/-- The halt sentinel 0x00 (R115). -/
def execHalt (s : State) : Host.Outcome State Fault Refusal := .next (s.setStatus .halted)

/-- 0xC6 with reg not 0 (R152). -/
def execInvalidC6 (m : ModRm) (s : State) : Host.Outcome State Fault Refusal :=
  complete s (.error (.invalidOpcode 0xC6 m.reg))

/-- 0xC7 with reg not 0 (R153). -/
def execInvalidC7 (m : ModRm) (s : State) : Host.Outcome State Fault Refusal :=
  complete s (.error (.invalidOpcode 0xC7 m.reg))

/-- 0xFF with reg not 6 (R162). -/
def execInvalidFF (m : ModRm) (s : State) : Host.Outcome State Fault Refusal :=
  complete s (.error (.invalidOpcode 0xFF m.reg))

/-- 0x8E with reg 1, CS (R131). -/
def execInvalid8ECs (m : ModRm) (s : State) : Host.Outcome State Fault Refusal :=
  complete s (.error (.invalidOpcode 0x8E m.reg))

/-- 0x8E with reg 6 or 7 (R131, D3). -/
def execInvalid8EReg (m : ModRm) (s : State) : Host.Outcome State Fault Refusal :=
  complete s (.error (.invalidOpcode 0x8E m.reg))

/-- 0x8C with reg 6 or 7 (R130, D3). -/
def execInvalid8CReg (m : ModRm) (s : State) : Host.Outcome State Fault Refusal :=
  complete s (.error (.invalidOpcode 0x8C m.reg))

/-- An opcode byte with no entry (R116). -/
def execUnknown (op : Byte) (s : State) : Host.Outcome State Fault Refusal :=
  complete s (.error (.unknownOpcode op))

end Sys2Proof.Machine
end

