-- ==== Sys2Proof/Machine/MovImm.lean ====
section
/-! DEFINITION. MOV of an immediate, opcodes 0xB0 to 0xBF, 0xC6 and 0xC7 (43_mov_imm.md). -/

namespace Sys2Proof.Machine

/-- MOV r8, imm8 (R150). -/
def execMovR8Imm (dst : Reg8) (imm : Byte) (s : State) : Host.Outcome State Fault Refusal :=
  .next (s.setGpr8 dst imm)

/-- MOV r16/32, imm16/32 (R151). -/
def execMovRImm (dst : Reg) (imm : Val) (s : State) : Host.Outcome State Fault Refusal :=
  .next (s.setGprOw dst imm)

/-- MOV r/m8, imm8 (R152). -/
def execMovRm8Imm (dst : Rm Reg8) (imm : Byte) (s : State) : Host.Outcome State Fault Refusal :=
  complete s (s.writeRm8 imm dst)

/-- MOV r/m16/32, imm16/32 (R153). -/
def execMovRmImm (dst : Rm Reg) (imm : Val) (s : State) : Host.Outcome State Fault Refusal :=
  complete s (s.writeRmOw imm dst)

end Sys2Proof.Machine
end

