-- ==== Sys2Proof/Machine/MovModrm.lean ====
section
/-! DEFINITION. MOV with a ModRM operand, opcodes 0x88, 0x89, 0x8A, 0x8B, 0x8C, 0x8E (41_mov_modrm.md).
Each reads its source and then writes its destination (R129). -/

namespace Sys2Proof.Machine

/-- MOV r/m8, r8 (R125). -/
def execMovRm8R8 (dst : Rm Reg8) (src : Reg8) (s : State) : Host.Outcome State Fault Refusal :=
  complete s (s.writeRm8 (s.gpr8 src) dst)

/-- MOV r/m16/32, r16/32 (R126). -/
def execMovRmR (w : OpWidth) (dst : Rm Reg) (src : Reg) (s : State) : Host.Outcome State Fault Refusal :=
  complete s (s.writeRmOw (s.gprOw w src) dst)

/-- MOV r8, r/m8 (R127). -/
def execMovR8Rm8 (dst : Reg8) (src : Rm Reg8) (s : State) : Host.Outcome State Fault Refusal :=
  complete s ((s.readRm8 src).map (s.setGpr8 dst))

/-- MOV r16/32, r/m16/32 (R128). -/
def execMovRRm (w : OpWidth) (dst : Reg) (src : Rm Reg) (s : State) : Host.Outcome State Fault Refusal :=
  complete s ((s.readRmOw w src).map (s.setGprOw dst))

/-- MOV r/m16, Sreg: 16 bits whatever `OW` is (R130). -/
def execMovRm16Sreg (dst : Rm Reg) (src : Sreg) (s : State) : Host.Outcome State Fault Refusal :=
  complete s (s.writeRmOw (.v16 (s.sreg16 src)) dst)

/-- MOV Sreg, r/m16: 16 bits whatever `OW` is; the source is read with the old segment values (R131). -/
def execMovSregRm16 (dst : SregDst) (src : Rm Reg) (s : State) : Host.Outcome State Fault Refusal :=
  complete s ((s.readRm16 src).map (s.writeSreg dst.toSreg))

end Sys2Proof.Machine
end

