-- ==== Sys2Proof/Machine/MovMoffs.lean ====
section
/-! DEFINITION. MOV between the accumulator and a moffs operand, opcodes 0xA0 to 0xA3 (42_mov_moffs.md).
The data access is at DS (R140); the direction and widths are the spec's decision D19 (log entry 17). -/

namespace Sys2Proof.Machine

/-- MOV AL, moffs8 (R141). -/
def execMovAlMoffs (src : Moffs) (s : State) : Host.Outcome State Fault Refusal :=
  complete s ((s.readU8 (s.sreg16 .ds) (Moffs.offset src)).map (s.setGpr8 .al))

/-- MOV AX/EAX, moffs16/32 (R142). -/
def execMovAxMoffs (w : OpWidth) (src : Moffs) (s : State) : Host.Outcome State Fault Refusal :=
  complete s ((s.readOw w (s.sreg16 .ds) (Moffs.offset src)).map (s.setGprOw .eax))

/-- MOV moffs8, AL (R143). -/
def execMovMoffsAl (dst : Moffs) (s : State) : Host.Outcome State Fault Refusal :=
  complete s (s.writeU8 (s.sreg16 .ds) (Moffs.offset dst) (s.gpr8 .al))

/-- MOV moffs16/32, AX/EAX (R144). -/
def execMovMoffsAx (w : OpWidth) (dst : Moffs) (s : State) : Host.Outcome State Fault Refusal :=
  complete s (s.writeOw (s.sreg16 .ds) (Moffs.offset dst) (s.gprOw w .eax))

end Sys2Proof.Machine
end

