-- ==== Sys2Proof/Machine/Push.lean ====
section
/-! DEFINITION. PUSH r/m16/32, opcode 0xFF /6 (44_push.md). -/

namespace Sys2Proof.Machine

/-- PUSH r/m16/32 (R161): the source and its address are taken before SP is lowered (D12). -/
def execPushRm (w : OpWidth) (src : Rm Reg) (s : State) : Host.Outcome State Fault Refusal :=
  complete s ((s.readRmOw w src).bind s.push)

end Sys2Proof.Machine
end

