-- ==== Sys2Proof/Machine/Dispatch.lean ====
section
/-! DEFINITION. One arm for each instruction. `exec` runs an instruction whose bytes have been fetched, at the
EIP of the instruction start; `step` moves EIP past the bytes (log entry 7). -/

namespace Sys2Proof.Machine

def exec (i : Instr) (s : State) : Host.Outcome State Fault Refusal :=
  match i with
  | .prefixOperandSize => Sys2Proof.Machine.execPrefixOperandSize s
  | .prefixAddressSize => Sys2Proof.Machine.execPrefixAddressSize s
  | .halt => Sys2Proof.Machine.execHalt s
  | .movRm8R8 dst src => Sys2Proof.Machine.execMovRm8R8 dst src s
  | .movRmR w dst src => Sys2Proof.Machine.execMovRmR w dst src s
  | .movR8Rm8 dst src => Sys2Proof.Machine.execMovR8Rm8 dst src s
  | .movRRm w dst src => Sys2Proof.Machine.execMovRRm w dst src s
  | .movRm16Sreg dst src => Sys2Proof.Machine.execMovRm16Sreg dst src s
  | .movSregRm16 dst src => Sys2Proof.Machine.execMovSregRm16 dst src s
  | .movAlMoffs src => Sys2Proof.Machine.execMovAlMoffs src s
  | .movAxMoffs w src => Sys2Proof.Machine.execMovAxMoffs w src s
  | .movMoffsAl dst => Sys2Proof.Machine.execMovMoffsAl dst s
  | .movMoffsAx w dst => Sys2Proof.Machine.execMovMoffsAx w dst s
  | .movR8Imm dst imm => Sys2Proof.Machine.execMovR8Imm dst imm s
  | .movRImm dst imm => Sys2Proof.Machine.execMovRImm dst imm s
  | .movRm8Imm dst imm => Sys2Proof.Machine.execMovRm8Imm dst imm s
  | .movRmImm dst imm => Sys2Proof.Machine.execMovRmImm dst imm s
  | .pushRm w src => Sys2Proof.Machine.execPushRm w src s
  | .invalidC6 m => Sys2Proof.Machine.execInvalidC6 m s
  | .invalidC7 m => Sys2Proof.Machine.execInvalidC7 m s
  | .invalidFF m => Sys2Proof.Machine.execInvalidFF m s
  | .invalid8ECs m => Sys2Proof.Machine.execInvalid8ECs m s
  | .invalid8EReg m => Sys2Proof.Machine.execInvalid8EReg m s
  | .invalid8CReg m => Sys2Proof.Machine.execInvalid8CReg m s
  | .unknown op => Sys2Proof.Machine.execUnknown op s

end Sys2Proof.Machine
end

