-- ==== Sys2Proof/Machine/Fetch.lean ====
section
/-! DEFINITION. Fetching an instruction's bytes at CS:EIP (30_encoding.md R72 to R75), the end of a step
(10_state.md R30, 60_exceptions.md R176) and the loading of a word where the next step fetches. -/

namespace Sys2Proof.Machine

/-- The byte `k` bytes after the instruction start: CS:(EIP + k), EIP modulo 2^32 (R72, 10_state.md R31). -/
def State.fetchByte (s : State) (k : Nat) : Except FaultInfo Byte :=
  s.readByte (s.sreg16 .cs) s.eip k

/-- The `n` bytes from `k` on. Reading a byte has no side effect (20_memory.md R58), so that the bytes
after an instruction's end may be among them (log entry 9). -/
def State.fetchBytes (s : State) (k : Nat) : Nat → Except FaultInfo (List Byte)
  | 0 => .ok []
  | n + 1 =>
    match s.fetchByte k with
    | .error f => .error f
    | .ok b => (s.fetchBytes (k + 1) n).map (b :: ·)

/-- Is a byte a prefix, and which (R73, R75)? -/
def prefixOf? (b : Byte) : Option PrefixByte :=
  if b = 0x66 then some .operandSize else if b = 0x67 then some .addressSize else none

/-- How a prefix scan ends. -/
inductive Scan where
  /-- The scan has fetched `prefixLimit` prefix bytes: the block is stuck (R74). -/
  | hang
  /-- A fetch raised a fault. -/
  | raised (f : FaultInfo)
  /-- The opcode stands `k` bytes after the instruction start; `s` has the prefix flags. -/
  | opcodeAt (s : State) (k : Nat)
  deriving DecidableEq, Repr

/-- `PrefixScan` with at most `fuel` more prefix bytes, `k` being fetched already (R73, R74). -/
def State.prefixScan : Nat → State → Nat → Scan
  | 0, _, _ => .hang
  | fuel + 1, s, k =>
    match s.fetchByte k with
    | .error f => .raised f
    | .ok b =>
      match prefixOf? b with
      | some p => State.prefixScan fuel (s.applyPrefix p) (k + 1)
      | none => .opcodeAt s k

/-- The end of a step of the instruction that started at `pre` and has `len` bytes: a fault restores the
whole of `pre` and sets the status (R176, 40_step_and_halt.md R111); else EIP moves past the bytes
(10_state.md R30), past a halt sentinel too (R115, D6). -/
def finish (pre : State) (len : Nat) : Host.Outcome State Fault Refusal → Host.Outcome State Fault Refusal
  | .next t => if t.status.isFaulted then .next (pre.setStatus t.status) else .next (t.advanceEip len)
  | .fault r => .fault r
  | .refused r => .refused r

/-- The bytes `bs` put at `k` bytes after CS:EIP and on, in Real mode. -/
def State.loadCode (s : State) (k : Nat) : List Byte → State
  | [] => s
  | b :: bs =>
    (s.physWrite (realAddress (s.sreg16 .cs) (s.eip + BitVec.ofNat 32 k)) b).loadCode (k + 1) bs

end Sys2Proof.Machine
end

