-- ==== Sys2Proof/Machine/Step.lean ====
section
/-! DEFINITION. One step: one whole instruction (40_step_and_halt.md R110, R111). -/

namespace Sys2Proof.Machine

/-- The step of a running block (R111): reset the prefix flags, scan the prefixes, decode the body under the
widths they select, run it, and end the step. -/
def stepRunning (s : State) : Host.Outcome State Fault Refusal :=
  match State.prefixScan Config.prefixLimit s.clearPrefixes 0 with
  | .hang => .fault .prefixHang
  | .raised f => .next (takeFault s f)
  | .opcodeAt t k =>
    match t.fetchBytes k Config.maxBody with
    | .error f => .next (takeFault s f)
    | .ok bs =>
      match decode t.addrWidth t.opWidth bs with
      | .error r => .refused (.undecodable r)
      | .ok (i, rest) => finish s (k + (bs.length - rest.length)) (exec i t)

/-- A block whose status is Halted or Faulted takes no step (10_state.md R35). -/
def step (s : State) : Host.Outcome State Fault Refusal :=
  match s.status with
  | .running => stepRunning s
  | .halted => .fault .runEnded
  | .faulted _ => .fault .runEnded

/-- `s` with a table word's bytes stored at CS:EIP. The block fetches only while Running and in Real mode, so
these are set too (both hold after reset). It stands for the host's load of a program (log entry 4). -/
def State.withFetchWord (s : State) (nbits w : Nat) : State :=
  { s with status := .running, mode := .real }.loadCode 0 (tableBytes nbits w)

end Sys2Proof.Machine
end

