-- ==== Sys2Proof/Machine/HostPort.lean ====
section
/-! DEFINITION. The host's transactions (00_scope.md R4; 40_step_and_halt.md R110; 70_reset_and_hazards.md R190,
R191, R194, R195; 60_exceptions.md R174, R177). The three that write, `loadState`, `loadMemory` and `setView`, test no
status: what a write does in mid-run the spec leaves open (R196, U22), and here it succeeds. DESIGN CHOICE, log entry
20. -/

namespace Sys2Proof.Machine

/-- `load_state(regs, mode)` (00_scope.md R4, R190): the launch values, over the store as it is. The mode is the
host's; Real is the one of this scope (10_state.md R33). Of a Running block too: DESIGN CHOICE, log entry 20. -/
def State.loadState (s : State) (p : Launch) (m : Mode) : State := { State.launch p s.mem with mode := m }

/-- The canonical list of the bytes `bs` standing at `a` and on; bytes past the end of the store have no
place in it (R191). -/
def Memory.ofImage : Nat → List Byte → Memory
  | _, [] => []
  | a, b :: bs =>
    if b = blankByte ∨ Config.memSize ≤ a then Memory.ofImage (a + 1) bs
    else (a, b) :: Memory.ofImage (a + 1) bs

/-- `load_memory(image)` (R191): every byte of the store, from physical address 0 on. An image shorter than the store
leaves `blankByte` after its end (log entry 2). Of a Running block too: DESIGN CHOICE, log entry 20. -/
def State.loadMemory (s : State) (image : List Byte) : State := { s with mem := Memory.ofImage 0 image }

/-- How `run()` comes out under a bound on the number of steps (R194, log entry 24). -/
inductive RunEnd where
  /-- The run ended in `t`, which is Halted or Faulted. -/
  | ended (t : State)
  /-- The bound ran out while the block was Running in `t`: no ending of the run (R194). -/
  | unfinished (t : State)
  /-- A step hangs: the run has no result (40_step_and_halt.md R118). -/
  | stuck (r : Fault)
  /-- A step was refused. No step is. -/
  | refused (r : Refusal)
  deriving DecidableEq, Repr

/-- `run()` (40_step_and_halt.md R110): steps while the status is Running, at most `n` of them (log entry 24). -/
def State.run : Nat → State → RunEnd
  | 0, s =>
    match s.status with
    | .running => .unfinished s
    | .halted => .ended s
    | .faulted _ => .ended s
  | n + 1, s =>
    match s.status with
    | .running =>
      match step s with
      | .next t => State.run n t
      | .fault r => .stuck r
      | .refused r => .refused r
    | .halted => .ended s
    | .faulted _ => .ended s

/-- What `run()` reports (R177). -/
inductive RunResult where
  | halted
  | faulted (r : FaultRecord)
  deriving DecidableEq, Repr

/-- `result()`; there is none while the block is Running (R177, R194). -/
def State.result (s : State) : Option RunResult :=
  match s.status with
  | .running => none
  | .halted => some .halted
  | .faulted r => some (.faulted r)

/-- The register views the host can name (10_state.md R22 to R24, R27, R30, R32). -/
inductive RegView where
  | gpr8 | gpr16 | gpr32 | sreg | sreg16 | eip | ip | eflags | flags16
  deriving DecidableEq, Repr

/-- Why the host's transaction has no effect. -/
inductive HostError where
  /-- A register index out of range (60_exceptions.md R174), code 4. -/
  | programmingError
  /-- A read while the block is Running, which 70_reset_and_hazards.md R196 leaves outside every claim. DESIGN
  CHOICE, log entry 20. -/
  | running
  deriving DecidableEq, Repr

/-- How many indices a view has (10_state.md R41). That the views of EIP and EFLAGS have the one index 0 is the
model's: DESIGN CHOICE, log entry 20. -/
def RegView.count : RegView → Nat
  | .gpr8 => 8 | .gpr16 => 8 | .gpr32 => 8 | .sreg => 6 | .sreg16 => 6
  | .eip => 1 | .ip => 1 | .eflags => 1 | .flags16 => 1

/-- The segment register of an index below 6. -/
def sregOfNat (i : Nat) : Sreg := (Sreg.ofIndex? (BitVec.ofNat 3 i)).getD .es

/-- The accessor of a view by number, zero-extended to 32 bits (10_state.md R41). -/
def State.getView (s : State) (v : RegView) (i : Nat) : Except HostError Word :=
  if v.count ≤ i then .error .programmingError
  else .ok <| match v with
    | .gpr8 => (s.gpr8 (Reg8.ofIndex (BitVec.ofNat 3 i))).setWidth 32
    | .gpr16 => (s.gpr16 (Reg.ofIndex (BitVec.ofNat 3 i))).setWidth 32
    | .gpr32 => s.gpr32 (Reg.ofIndex (BitVec.ofNat 3 i))
    | .sreg => SegReg.full (s.sreg.get (sregOfNat i))
    | .sreg16 => (s.sreg16 (sregOfNat i)).setWidth 32
    | .eip => s.eip
    | .ip => s.ip.setWidth 32
    | .eflags => s.eflags
    | .flags16 => s.flags16.setWidth 32

/-- The setter of a view by number, at launch (10_state.md R41, R42); the host may write CS too
(90_conflicts.md C4). A narrow view of a general-purpose register keeps the bits outside it (R23, R25), and so do the
16-bit views of EIP and EFLAGS (DEDUCED from the duality of R30 and R32, log entry 20). What a write through the 16-bit
view of a segment register does to bits 31:16 the source leaves open (91_not_in_source.md N5): they are as
`SREG_WRITE_UPPER` says, as after 0x8E. That the host's write follows that one parameter is the model's choice: DESIGN
CHOICE, log entry 3. A write to a Running block in mid-run succeeds as well: DESIGN CHOICE, log entry 20. -/
def State.setView (s : State) (v : RegView) (i : Nat) (x : Word) : Except HostError State :=
  if v.count ≤ i then .error .programmingError
  else .ok <| match v with
    | .gpr8 => s.setGpr8 (Reg8.ofIndex (BitVec.ofNat 3 i)) (x.extractLsb' 0 8)
    | .gpr16 => s.setGpr16 (Reg.ofIndex (BitVec.ofNat 3 i)) (x.extractLsb' 0 16)
    | .gpr32 => s.setGpr32 (Reg.ofIndex (BitVec.ofNat 3 i)) x
    | .sreg => { s with sreg := s.sreg.set (sregOfNat i) (SegReg.ofFull x) }
    | .sreg16 => s.writeSreg (sregOfNat i) (x.extractLsb' 0 16)
    | .eip => { s with eip := x }
    | .ip => { s with eip := s.eip.extractLsb' 16 16 ++ x.extractLsb' 0 16 }
    | .eflags => { s with eflags := x }
    | .flags16 => { s with eflags := s.eflags.extractLsb' 16 16 ++ x.extractLsb' 0 16 }

/-- `read_reg(view, index)` after a run (R195). An index out of range is ProgrammingError whatever the status
(60_exceptions.md R174, U20); that an access in range is turned away while Running is the model's: DESIGN CHOICE, log
entry 20. -/
def State.readReg (s : State) (v : RegView) (i : Nat) : Except HostError Word :=
  match s.getView v i with
  | .error e => .error e
  | .ok x =>
    match s.status with
    | .running => .error .running
    | .halted => .ok x
    | .faulted _ => .ok x

/-- `read_mem(phys)` after a run (R195); turned away while Running: DESIGN CHOICE, log entry 20. -/
def State.readMem (s : State) (p : Phys) : Except HostError Byte :=
  match s.status with
  | .running => .error .running
  | .halted => .ok (s.physRead p)
  | .faulted _ => .ok (s.physRead p)

/-- The spec's own numbers of the fault conditions (60_exceptions.md R170, D5); labels only. -/
def FaultCode.number : FaultCode → Nat
  | .unimplementedMode => 1
  | .invalidOpcode => 2
  | .unknownOpcode => 3
  | .programmingError => 4

end Sys2Proof.Machine
end

