-- ==== Sys2Proof/Safety.lean ====
section
/-! DEFINITION. The terms the claims use: the invariant of the block, what an instruction may change, what a
memory access holds, and the literal tables of the spec that the decoder is held against. -/

namespace Sys2Proof.Machine

/-! ### The invariant -/

/-- The ModRM.reg values an opcode does not permit (30_encoding.md R100). -/
def invalidEncoding (op : Byte) (reg : BitVec 3) : Bool :=
  (op = 0xC6 && reg ≠ 0) || (op = 0xC7 && reg ≠ 0) || (op = 0xFF && reg ≠ 6) ||
  (op = 0x8E && (reg = 1 || reg = 6 || reg = 7)) || (op = 0x8C && (reg = 6 || reg = 7))

/-- The record names the instruction the block stopped at, and its fields are those of its code
(60_exceptions.md R170 to R175). No step raises ProgrammingError. -/
def FaultRecord.Fits (r : FaultRecord) (s : State) : Prop :=
  r.cs = s.sreg16 .cs ∧ r.eip = s.eip ∧
  match r.code with
  | .unimplementedMode =>
    s.mode ≠ .real ∧ r.mode = some s.mode ∧ r.opcode = none ∧ r.reg = none
  | .invalidOpcode =>
    s.mode = .real ∧ r.mode = none ∧
      ∃ op reg, r.opcode = some op ∧ r.reg = some reg ∧ invalidEncoding op reg = true
  | .unknownOpcode =>
    s.mode = .real ∧ r.mode = none ∧ r.reg = none ∧
      ∃ op, r.opcode = some op ∧ mappedOpcodes.contains op = false
  | .programmingError => False

/-- What every step keeps: the store's canonical form; a block halts only in Real mode; the record of a
fault fits the state it left. -/
structure Inv (s : State) : Prop where
  memory : Memory.wf s.mem = true
  halted : s.status = .halted → s.mode = .real
  record : ∀ r, s.status = .faulted r → r.Fits s

/-! ### Frames: what an instruction leaves alone -/

/-- EIP, EFLAGS, the mode, the prefix flags and the status. -/
structure KeepsControl (s t : State) : Prop where
  eip    : t.eip = s.eip
  eflags : t.eflags = s.eflags
  mode   : t.mode = s.mode
  opsz   : t.opsz = s.opsz
  adsz   : t.adsz = s.adsz
  status : t.status = s.status

/-- Every byte of memory outside `ps` reads as before. -/
def KeepsMemoryBut (ps : List Phys) (s t : State) : Prop := ∀ p, p ∉ ps → t.physRead p = s.physRead p

/-- Only the bytes `ps` of memory change. -/
structure OnlyBytes (ps : List Phys) (s t : State) : Prop where
  control : KeepsControl s t
  gpr     : ∀ r, t.gpr32 r = s.gpr32 r
  sreg    : ∀ r, t.sreg.get r = s.sreg.get r
  memory  : KeepsMemoryBut ps s t

/-- Only general-purpose register `r` changes, and of it none of the bytes in `kept` (byte `k` is bits
8k+7:8k). -/
structure OnlyGpr (r : Reg) (kept : List Nat) (s t : State) : Prop where
  control : KeepsControl s t
  gpr     : ∀ r', r' ≠ r → t.gpr32 r' = s.gpr32 r'
  bytes   : ∀ k, k ∈ kept → (t.gpr32 r).extractLsb' (8 * k) 8 = (s.gpr32 r).extractLsb' (8 * k) 8
  sreg    : ∀ r', t.sreg.get r' = s.sreg.get r'
  memory  : KeepsMemoryBut [] s t

/-- Only segment register `r` changes. -/
structure OnlySreg (r : Sreg) (s t : State) : Prop where
  control : KeepsControl s t
  gpr     : ∀ r', t.gpr32 r' = s.gpr32 r'
  sreg    : ∀ r', r' ≠ r → t.sreg.get r' = s.sreg.get r'
  memory  : KeepsMemoryBut [] s t

/-! ### Operands as the spec describes them -/

/-- The `n` bytes at seg:off hold the low 8n bits of `v`, the least significant first, each byte's address
wrapped on its own (20_memory.md R50, R53 to R55). -/
def Holds (s : State) (seg : Half) (off : Word) (n : Nat) (v : Word) : Prop :=
  ∀ k, k < n →
    s.physRead (BitVec.ofNat 20 (seg.toNat * 16 + (off + BitVec.ofNat 32 k).toNat)) = v.extractLsb' (8 * k) 8

/-- `OW`/8. -/
def OpWidth.bytes : OpWidth → Nat
  | .w16 => 2
  | .w32 => 4

/-- A value of operand width as a 32-bit number. -/
def Val.word : Val → Word
  | .v16 v => v.setWidth 32
  | .v32 v => v

/-- The bytes of a register that a write of width `OW` leaves alone (10_state.md R22, R23). -/
def OpWidth.kept : OpWidth → List Nat
  | .w16 => [2, 3]
  | .w32 => []

/-- The bytes of its register that an 8-bit view is not (10_state.md R25). -/
def Reg8.kept (r : Reg8) : List Nat := if Reg8.isHigh r then [0, 2, 3] else [1, 2, 3]

/-- `v` is the value of an 8-bit r/m operand in `s` (30_encoding.md R98). -/
def Source8 (s : State) : Rm Reg8 → Byte → Prop
  | .reg r, v => v = s.gpr8 r
  | .mem m, v => Holds s (s.segOf m) (s.offset m) 1 (v.setWidth 32)

/-- The low `OW` bits of `v` are the value of an r/m operand of width `OW` in `s` (30_encoding.md R98). -/
def SourceOw (s : State) (w : OpWidth) : Rm Reg → Word → Prop
  | .reg r, v => v = Val.word (s.gprOw w r)
  | .mem m, v => Holds s (s.segOf m) (s.offset m) (OpWidth.bytes w) v

/-- The width-`OW` view of register `r` is the low `OW` bits of `v`. -/
def GprIs (t : State) (w : OpWidth) (r : Reg) (v : Word) : Prop :=
  match w with
  | .w16 => t.gpr16 r = v.extractLsb' 0 16
  | .w32 => t.gpr32 r = v

/-- `t` is `s` with `v` written to an 8-bit r/m operand, whose address is computed in `s`, and nothing else
(30_encoding.md R98). -/
def Stored8 (s t : State) : Rm Reg8 → Byte → Prop
  | .reg r, v => t.gpr8 r = v ∧ OnlyGpr (Reg8.parent r) (Reg8.kept r) s t
  | .mem m, v =>
    Holds t (s.segOf m) (s.offset m) 1 (v.setWidth 32) ∧
      OnlyBytes (storedAddrs (s.segOf m) (s.offset m) 1) s t

/-- The same of an r/m operand of width `OW` and the low `OW` bits of `v`. -/
def StoredOw (s t : State) (w : OpWidth) : Rm Reg → Word → Prop
  | .reg r, v => GprIs t w r v ∧ OnlyGpr r (OpWidth.kept w) s t
  | .mem m, v =>
    Holds t (s.segOf m) (s.offset m) (OpWidth.bytes w) v ∧
      OnlyBytes (storedAddrs (s.segOf m) (s.offset m) (OpWidth.bytes w)) s t

/-- An r/m operand can be accessed: a register always, memory in Real mode (20_memory.md R59, R62). -/
def Accessible {ρ : Type} (s : State) (x : Rm ρ) : Prop := ∀ m, x = .mem m → s.mode = .real

/-! ### Outcomes -/

/-- Change the next state of an outcome. -/
def mapNext (g : State → State) : Host.Outcome State Fault Refusal → Host.Outcome State Fault Refusal
  | .next t => .next (g t)
  | .fault r => .fault r
  | .refused r => .refused r

/-- `k` steps lead from `s` to `t`. -/
def StepsTo : Nat → State → State → Prop
  | 0, s, t => s = t
  | k + 1, s, t => ∃ u, step s = .next u ∧ StepsTo k u t

/-- A state with other EFLAGS. -/
def State.withEflags (f : Word) (s : State) : State := { s with eflags := f }

/-- A state with bits 31:16 of every segment register forgotten. -/
def State.forgetUpper (s : State) : State :=
  { s with sreg :=
    { es := ⟨0, s.sreg.es.low⟩, cs := ⟨0, s.sreg.cs.low⟩, ss := ⟨0, s.sreg.ss.low⟩
      ds := ⟨0, s.sreg.ds.low⟩, fs := ⟨0, s.sreg.fs.low⟩, gs := ⟨0, s.sreg.gs.low⟩ } }

/-! ### Literal tables of the spec -/

/-- The bytes `bs` stand at CS:EIP and after (30_encoding.md R72). -/
def CodeAt (s : State) (bs : List Byte) : Prop :=
  ∀ k (h : k < bs.length),
    s.physRead (BitVec.ofNat 20 ((s.sreg16 .cs).toNat * 16 + (s.eip + BitVec.ofNat 32 k).toNat)) = bs[k]

/-- The state in which the body of an instruction with prefixes `ps` is decoded and run (R73). -/
def State.afterPrefixes (s : State) (ps : List PrefixByte) : State :=
  ps.foldl State.applyPrefix s.clearPrefixes

/-- S + D of 30_encoding.md R71: the SIB and displacement bytes, from `AW`, ModRM and the byte after it. -/
def r71Operand (aw : AddrWidth) (modrm sib : Byte) : Nat :=
  let mod := modrm >>> 6
  let rm := modrm &&& 7
  let base := sib &&& 7
  match aw with
  | .a16 =>
    if mod = 0 then (if rm = 6 then 2 else 0) else if mod = 1 then 1 else if mod = 2 then 2 else 0
  | .a32 =>
    (if mod ≠ 3 ∧ rm = 4 then 1 else 0) +
    (if mod = 0 then (if rm = 5 ∨ (rm = 4 ∧ base = 5) then 4 else 0)
      else if mod = 1 then 1 else if mod = 2 then 4 else 0)

/-- L of 30_encoding.md R71, from the opcode, the ModRM byte and the byte after it; 0 for an opcode that
R71 gives no length. -/
def r71Length (aw : AddrWidth) (ow : OpWidth) (op modrm sib : Byte) : Nat :=
  let moffs := match aw with | .a16 => 2 | .a32 => 4
  if op = 0x00 then 1
  else if op ≥ 0xB0 ∧ op ≤ 0xB7 then 2
  else if op ≥ 0xB8 ∧ op ≤ 0xBF then 1 + OpWidth.bytes ow
  else if op ≥ 0xA0 ∧ op ≤ 0xA3 then 1 + moffs
  else if op = 0x88 ∨ op = 0x89 ∨ op = 0x8A ∨ op = 0x8B ∨ op = 0x8C ∨ op = 0x8E ∨ op = 0xFF then
    2 + r71Operand aw modrm sib
  else if op = 0xC6 then 2 + r71Operand aw modrm sib + 1
  else if op = 0xC7 then 2 + r71Operand aw modrm sib + OpWidth.bytes ow
  else 0

/-- The indices a host register access may name: 0 to 7 for the general-purpose views, 0 to 5 for the segment
registers (10_state.md R41, 60_exceptions.md R174); 0 alone for EIP and EFLAGS (log entry 20). -/
def RegView.InRange (v : RegView) (i : Nat) : Prop :=
  match v with
  | .gpr8 => i ≤ 7
  | .gpr16 => i ≤ 7
  | .gpr32 => i ≤ 7
  | .sreg => i ≤ 5
  | .sreg16 => i ≤ 5
  | .eip => i = 0
  | .ip => i = 0
  | .eflags => i = 0
  | .flags16 => i = 0

/-- The bits of a value that a view holds (10_state.md R22 to R24, R27, R28, R30, R32). -/
def RegView.mask : RegView → Word
  | .gpr8 => 0xFF
  | .gpr16 => 0xFFFF
  | .gpr32 => 0xFFFFFFFF
  | .sreg => 0xFFFFFFFF
  | .sreg16 => 0xFFFF
  | .eip => 0xFFFFFFFF
  | .ip => 0xFFFF
  | .eflags => 0xFFFFFFFF
  | .flags16 => 0xFFFF

/-- Does the instruction raise a fault by its encoding (30_encoding.md R99, R100)? -/
def Instr.faults : Instr → Bool
  | .invalidC6 _ => true
  | .invalidC7 _ => true
  | .invalidFF _ => true
  | .invalid8ECs _ => true
  | .invalid8EReg _ => true
  | .invalid8CReg _ => true
  | .unknown _ => true
  | .prefixOperandSize => false
  | .prefixAddressSize => false
  | .halt => false
  | .movRm8R8 _ _ => false
  | .movRmR _ _ _ => false
  | .movR8Rm8 _ _ => false
  | .movRRm _ _ _ => false
  | .movRm16Sreg _ _ => false
  | .movSregRm16 _ _ => false
  | .movAlMoffs _ => false
  | .movAxMoffs _ _ => false
  | .movMoffsAl _ => false
  | .movMoffsAx _ _ => false
  | .movR8Imm _ _ => false
  | .movRImm _ _ => false
  | .movRm8Imm _ _ => false
  | .movRmImm _ _ => false
  | .pushRm _ _ => false

/-- The 16-bit effective address of ModRM (mod, rm), mod not 3, as 30_encoding.md R86 to R89 give it from
the two bytes after the ModRM byte: the segment, the offset, and how many of the bytes are fetched. -/
def ea16Rule (s : State) (mod : BitVec 2) (rm : BitVec 3) (b0 b1 : Byte) : Sreg × Half × Nat :=
  let bx := s.gpr16 .ebx
  let si := s.gpr16 .esi
  let di := s.gpr16 .edi
  let bp := s.gpr16 .ebp
  let disp : Half := if mod = 0 then 0 else if mod = 1 then b0.signExtend 16 else b1 ++ b0
  let n := if mod = 0 then 0 else if mod = 1 then 1 else 2
  if rm = 0 then (.ds, bx + si + disp, n)
  else if rm = 1 then (.ds, bx + di + disp, n)
  else if rm = 2 then (.ss, bp + si + disp, n)
  else if rm = 3 then (.ss, bp + di + disp, n)
  else if rm = 4 then (.ds, si + disp, n)
  else if rm = 5 then (.ds, di + disp, n)
  else if rm = 6 then (if mod = 0 then (.ds, b1 ++ b0, 2) else (.ss, bp + disp, n))
  else (.ds, bx + disp, n)

/-- `Disp32(mod)` from the four bytes that follow, with the number fetched (30_encoding.md R87). -/
def disp32Rule (mod : BitVec 2) (b0 b1 b2 b3 : Byte) : Word × Nat :=
  if mod = 0 then (0, 0)
  else if mod = 1 then (b0.signExtend 32, 1)
  else ((b3 ++ b2 : Half) ++ (b1 ++ b0 : Half), 4)

/-- The 32-bit effective address before the Real-mode mask (30_encoding.md R86, R90 to R94), from the five
bytes after the ModRM byte. -/
def ea32Rule (s : State) (mod : BitVec 2) (rm : BitVec 3) (b0 b1 b2 b3 b4 : Byte) : Sreg × Word × Nat :=
  if rm = 4 then
    let scale := (b0 >>> 6).toNat
    let index := (b0 >>> 3) &&& 7
    let base := b0 &&& 7
    let indexv : Word := if index = 4 then 0 else s.gpr32 (Reg.ofIndex (index.setWidth 3)) <<< scale
    if base = 5 ∧ mod = 0 then (.ds, indexv + ((b4 ++ b3 : Half) ++ (b2 ++ b1 : Half)), 5)
    else
      (if base = 4 ∨ base = 5 then .ss else .ds,
        indexv + s.gpr32 (Reg.ofIndex (base.setWidth 3)) + (disp32Rule mod b1 b2 b3 b4).1,
        1 + (disp32Rule mod b1 b2 b3 b4).2)
  else if rm = 5 ∧ mod = 0 then (.ds, (b3 ++ b2 : Half) ++ (b1 ++ b0 : Half), 4)
  else
    (if rm = 5 then .ss else .ds,
      s.gpr32 (Reg.ofIndex rm) + (disp32Rule mod b0 b1 b2 b3).1, (disp32Rule mod b0 b1 b2 b3).2)

end Sys2Proof.Machine
end

