-- ==== Sys2Proof/Certificates/Slice0/Obligations.lean ====
section
/-! DEFINITION. The statements about the model that are given to the provers. Each docstring names the rule of
spec/ it rests on; where a clause rests on a decision of 92_eei_decisions.md (the spec's own choice, D<n>) or on
a choice of the model, it says so. A statement about `exec` speaks of the meaning alone, which runs with EIP at the
instruction start and leaves it there; the step moves EIP afterwards (log entry 7). -/

open Sys2Proof Sys2Proof.Machine

/-! ### Registers and memory -/

/-- 10_state.md R22, R23: the 32-bit view reads and writes the whole register; the 16-bit view is its bits
15:0, and a write through it keeps bits 31:16. Both leave the other registers alone. -/
def Obligations.WideViewsReadAndWriteTheirBits : Prop :=
  ∀ (s : State) (r : Reg),
    s.gpr16 r = (s.gpr32 r).extractLsb' 0 16 ∧
    (∀ v, (s.setGpr32 r v).gpr32 r = v ∧ ∀ r', r' ≠ r → (s.setGpr32 r v).gpr32 r' = s.gpr32 r') ∧
    (∀ v, (s.setGpr16 r v).gpr32 r = (s.gpr32 r).extractLsb' 16 16 ++ v ∧
      (s.setGpr16 r v).gpr16 r = v ∧ ∀ r', r' ≠ r → (s.setGpr16 r v).gpr32 r' = s.gpr32 r')

/-- 10_state.md R25, with the index of R24 (D1, the spec's own choice, log entry 13): a write through 8-bit view `j` sets
bits 7:0 of register `j`, or bits 15:8 of register `j` - 4, keeps the other three bytes and the other
registers, and is read back through the same view. -/
def Obligations.ByteViewWriteChangesOneByte : Prop :=
  ∀ (s : State) (j : BitVec 3) (v : Byte),
    let t := s.setGpr8 (Reg8.ofIndex j) v
    let r := if j.toNat < 4 then Reg.ofIndex j else Reg.ofIndex (j - 4)
    t.gpr32 r = (if j.toNat < 4 then (s.gpr32 r).extractLsb' 8 24 ++ v
      else (s.gpr32 r).extractLsb' 16 16 ++ (v ++ (s.gpr32 r).extractLsb' 0 8 : Half)) ∧
    t.gpr8 (Reg8.ofIndex j) = v ∧
    ∀ r', r' ≠ r → t.gpr32 r' = s.gpr32 r'

/-- 20_memory.md R50, R51: in Real mode every segment value and offset translates, to the sum modulo 2^20; in
each other mode translation raises UnimplementedMode with the mode. -/
def Obligations.TranslationIsSumModuloTwoTo20 : Prop :=
  ∀ (seg : Half) (off : Word),
    (∃ p : Phys, translateAddress .real seg off = .ok p ∧ p.toNat = (seg.toNat * 16 + off.toNat) % 1048576) ∧
    ∀ m, m ≠ .real → translateAddress m seg off = .error (.unimplementedMode m)

/-- 20_memory.md R53, R59: a Real-mode read of 1, 2 or 4 bytes never fails and gives the bytes at seg:off,
little-endian, each address wrapped on its own; in another mode every read raises UnimplementedMode. -/
def Obligations.ReadsAreLittleEndianAndWrapPerByte : Prop :=
  ∀ (s : State) (seg : Half) (off : Word),
    (s.mode = .real →
      (∃ v, s.readU8 seg off = .ok v ∧ Holds s seg off 1 (v.setWidth 32)) ∧
      (∃ v, s.readU16 seg off = .ok v ∧ Holds s seg off 2 (v.setWidth 32)) ∧
      (∃ v, s.readU32 seg off = .ok v ∧ Holds s seg off 4 v)) ∧
    (s.mode ≠ .real →
      s.readU8 seg off = .error (.unimplementedMode s.mode) ∧
      s.readU16 seg off = .error (.unimplementedMode s.mode) ∧
      s.readU32 seg off = .error (.unimplementedMode s.mode))

/-- 20_memory.md R54, R58, R59: a Real-mode write of 1, 2 or 4 bytes never fails, puts the low bits at seg:off,
little-endian, each address wrapped on its own, changes nothing but those bytes and keeps the canonical form
of the store; in another mode every write raises UnimplementedMode. The canonical form is a premise: it is kept
by every step (`StepKeepsInvariant`). -/
def Obligations.WritesChangeExactlyTheirBytes : Prop :=
  ∀ (s : State) (seg : Half) (off : Word),
    (s.mode = .real → Memory.wf s.mem = true →
      (∀ v, ∃ t, s.writeU8 seg off v = .ok t ∧ Holds t seg off 1 (v.setWidth 32) ∧
        OnlyBytes (storedAddrs seg off 1) s t ∧ Memory.wf t.mem = true) ∧
      (∀ v, ∃ t, s.writeU16 seg off v = .ok t ∧ Holds t seg off 2 (v.setWidth 32) ∧
        OnlyBytes (storedAddrs seg off 2) s t ∧ Memory.wf t.mem = true) ∧
      (∀ v, ∃ t, s.writeU32 seg off v = .ok t ∧ Holds t seg off 4 v ∧
        OnlyBytes (storedAddrs seg off 4) s t ∧ Memory.wf t.mem = true)) ∧
    (s.mode ≠ .real →
      (∀ v, s.writeU8 seg off v = .error (.unimplementedMode s.mode)) ∧
      (∀ v, s.writeU16 seg off v = .error (.unimplementedMode s.mode)) ∧
      (∀ v, s.writeU32 seg off v = .error (.unimplementedMode s.mode)))

/-- 95_test_vectors.md L1-4: what a Real-mode write stored, a read at the same address gives back, near the
2^20 wrap too. -/
def Obligations.WriteThenReadGivesTheValue : Prop :=
  ∀ (s : State) (seg : Half) (off : Word), s.mode = .real → Memory.wf s.mem = true →
    (∀ v, (s.writeU8 seg off v).bind (fun t => t.readU8 seg off) = .ok v) ∧
    (∀ v, (s.writeU16 seg off v).bind (fun t => t.readU16 seg off) = .ok v) ∧
    (∀ v, (s.writeU32 seg off v).bind (fun t => t.readU32 seg off) = .ok v)

/-! ### Widths and effective addresses -/

/-- 30_encoding.md R82, R83: the widths are 32 exactly when the mode is not Real and the override is absent, or
the mode is Real and the override is present; else 16. -/
def Obligations.WidthsToggleTheModeDefault : Prop :=
  ∀ s : State,
    (s.addrWidth = .a32 ↔ (s.mode = .real ↔ s.adsz = true)) ∧
    (s.addrWidth = .a16 ↔ ¬(s.mode = .real ↔ s.adsz = true)) ∧
    (s.opWidth = .w32 ↔ (s.mode = .real ↔ s.opsz = true)) ∧
    (s.opWidth = .w16 ↔ ¬(s.mode = .real ↔ s.opsz = true))

/-- 30_encoding.md R88, R89: from the raw mod and rm bits and the bytes that follow, the 16-bit addressing table
gives the segment and the offset modulo 2^16, zero-extended, and the bytes fetched; no register is changed by
it, the calculator being a function of the state. -/
def Obligations.EffectiveAddress16FollowsTheTable : Prop :=
  ∀ (s : State) (mod : BitVec 2) (reg rm : BitVec 3) (b0 b1 : Byte) (bs : List Byte), mod ≠ 3 →
    ∃ m rest, decodeRm .a16 Reg.ofIndex ⟨mod, reg, rm⟩ (b0 :: b1 :: bs) = .ok (.mem m, rest) ∧
      MemOp.segment m = (ea16Rule s mod rm b0 b1).1 ∧
      s.offset m = ((ea16Rule s mod rm b0 b1).2.1).setWidth 32 ∧
      rest = (b0 :: b1 :: bs).drop (ea16Rule s mod rm b0 b1).2.2

/-- 30_encoding.md R90 to R93, R95: from the raw mod and rm bits and the bytes that follow, the 32-bit table and
the SIB byte give the segment, the bytes fetched, and the offset modulo 2^32, masked to 16 bits in Real mode
and left whole in the others. -/
def Obligations.EffectiveAddress32FollowsTheTables : Prop :=
  ∀ (s : State) (mod : BitVec 2) (reg rm : BitVec 3) (b0 b1 b2 b3 b4 : Byte) (bs : List Byte), mod ≠ 3 →
    ∃ m rest,
      decodeRm .a32 Reg.ofIndex ⟨mod, reg, rm⟩ (b0 :: b1 :: b2 :: b3 :: b4 :: bs) = .ok (.mem m, rest) ∧
      MemOp.segment m = (ea32Rule s mod rm b0 b1 b2 b3 b4).1 ∧
      s.offset m = (if s.mode = .real then (ea32Rule s mod rm b0 b1 b2 b3 b4).2.1 &&& 0xFFFF
        else (ea32Rule s mod rm b0 b1 b2 b3 b4).2.1) ∧
      rest = (b0 :: b1 :: b2 :: b3 :: b4 :: bs).drop (ea32Rule s mod rm b0 b1 b2 b3 b4).2.2

/-- 30_encoding.md R89, R95: in Real mode every effective address has an offset below 2^16; under 16-bit
addressing in every mode. -/
def Obligations.RealModeOffsetsFitSixteenBits : Prop :=
  ∀ (s : State) (m : MemOp),
    (s.mode = .real ∨ ∃ x, m = .m16 x) → (s.offset m).toNat < 65536

/-! ### The instructions: each completes, with its result and its frame -/

/-- 41_mov_modrm.md R125: MOV r/m8, r8 writes the source view to the register byte or the memory byte, and
nothing else changes. -/
def Obligations.MovRm8R8WritesTheByte : Prop :=
  ∀ (s : State) (dst : Rm Reg8) (src : Reg8), Accessible s dst → Memory.wf s.mem = true →
    ∃ t, exec (.movRm8R8 dst src) s = .next t ∧ Stored8 s t dst (s.gpr8 src)

/-- 41_mov_modrm.md R126: MOV r/m16/32, r16/32 writes the source register at the operand width. -/
def Obligations.MovRmRWritesTheRegister : Prop :=
  ∀ (s : State) (w : OpWidth) (dst : Rm Reg) (src : Reg), Accessible s dst → Memory.wf s.mem = true →
    ∃ t, exec (.movRmR w dst src) s = .next t ∧ StoredOw s t w dst (Val.word (s.gprOw w src))

/-- 41_mov_modrm.md R127: MOV r8, r/m8 loads the operand into the register byte. -/
def Obligations.MovR8Rm8LoadsTheByte : Prop :=
  ∀ (s : State) (dst : Reg8) (src : Rm Reg8), Accessible s src →
    ∃ t v, exec (.movR8Rm8 dst src) s = .next t ∧ Source8 s src v ∧
      t.gpr8 dst = v ∧ OnlyGpr (Reg8.parent dst) (Reg8.kept dst) s t

/-- 41_mov_modrm.md R128: MOV r16/32, r/m16/32 loads the operand, addressed with the old register values. -/
def Obligations.MovRRmLoadsTheOperand : Prop :=
  ∀ (s : State) (w : OpWidth) (dst : Reg) (src : Rm Reg), Accessible s src →
    ∃ t v, exec (.movRRm w dst src) s = .next t ∧ SourceOw s w src v ∧
      GprIs t w dst v ∧ OnlyGpr dst (OpWidth.kept w) s t

/-- 41_mov_modrm.md R130: MOV r/m16, Sreg stores bits 15:0 of the segment register, 16 bits whatever the
operand width. -/
def Obligations.MovRm16SregStoresSixteenBits : Prop :=
  ∀ (s : State) (dst : Rm Reg) (src : Sreg), Accessible s dst → Memory.wf s.mem = true →
    ∃ t, exec (.movRm16Sreg dst src) s = .next t ∧ StoredOw s t .w16 dst ((s.sreg16 src).setWidth 32)

/-- 41_mov_modrm.md R131, 10_state.md R29: MOV Sreg, r/m16 puts the 16-bit source, read with the old segment
values, in bits 15:0 of the segment register; bits 31:16 are kept or cleared as `SREG_WRITE_UPPER` says
(D11, OPEN); nothing else changes. -/
def Obligations.MovSregRm16WritesTheSegment : Prop :=
  ∀ (s : State) (dst : SregDst) (src : Rm Reg), Accessible s src →
    ∃ t v, exec (.movSregRm16 dst src) s = .next t ∧ SourceOw s .w16 src v ∧
      t.sreg16 dst.toSreg = v.extractLsb' 0 16 ∧
      (t.sreg.get dst.toSreg).upper =
        (if Config.sregWriteUpper = .preserve then (s.sreg.get dst.toSreg).upper else 0) ∧
      OnlySreg dst.toSreg s t

/-- 42_mov_moffs.md R140 to R142 (direction D19 and unmasked offset D10, the spec's own choices): 0xA0 loads AL
and 0xA1 loads AX or EAX from DS:moffs. -/
def Obligations.MoffsLoadsReadTheDataSegment : Prop :=
  ∀ (s : State) (o : Moffs), s.mode = .real →
    (∃ t v, exec (.movAlMoffs o) s = .next t ∧
      Holds s (s.sreg16 .ds) (Moffs.offset o) 1 (v.setWidth 32) ∧
      t.gpr8 .al = v ∧ OnlyGpr .eax [1, 2, 3] s t) ∧
    ∀ w, ∃ t v, exec (.movAxMoffs w o) s = .next t ∧
      Holds s (s.sreg16 .ds) (Moffs.offset o) (OpWidth.bytes w) v ∧
      GprIs t w .eax v ∧ OnlyGpr .eax (OpWidth.kept w) s t

/-- 42_mov_moffs.md R140, R143, R144 (D10, D19, the spec's own choices): 0xA2 stores AL and 0xA3 stores AX or
EAX at DS:moffs. -/
def Obligations.MoffsStoresWriteTheDataSegment : Prop :=
  ∀ (s : State) (o : Moffs), s.mode = .real → Memory.wf s.mem = true →
    (∃ t, exec (.movMoffsAl o) s = .next t ∧
      Holds t (s.sreg16 .ds) (Moffs.offset o) 1 ((s.gpr8 .al).setWidth 32) ∧
      OnlyBytes (storedAddrs (s.sreg16 .ds) (Moffs.offset o) 1) s t) ∧
    ∀ w, ∃ t, exec (.movMoffsAx w o) s = .next t ∧
      Holds t (s.sreg16 .ds) (Moffs.offset o) (OpWidth.bytes w) (Val.word (s.gprOw w .eax)) ∧
      OnlyBytes (storedAddrs (s.sreg16 .ds) (Moffs.offset o) (OpWidth.bytes w)) s t

/-- 42_mov_moffs.md R140: the moffs offset is the literal zero-extended, not masked to 16 bits (D10, the spec's
own choice); the literal is the one at the head of the stream, of `AW`/8 bytes. -/
def Obligations.MoffsLiteralIsTheOffset : Prop :=
  ∀ (b0 b1 b2 b3 : Byte) (bs : List Byte),
    (∃ o, takeMoffs .a16 (b0 :: b1 :: bs) = .ok (o, bs) ∧
      (Moffs.offset o).toNat = b0.toNat + 256 * b1.toNat) ∧
    (∃ o, takeMoffs .a32 (b0 :: b1 :: b2 :: b3 :: bs) = .ok (o, bs) ∧
      (Moffs.offset o).toNat = b0.toNat + 256 * b1.toNat + 65536 * b2.toNat + 16777216 * b3.toNat)

/-- 43_mov_imm.md R150, R151: the register view takes the immediate; nothing else changes. -/
def Obligations.MovImmediateSetsTheRegister : Prop :=
  ∀ s : State,
    (∀ (dst : Reg8) (imm : Byte), ∃ t, exec (.movR8Imm dst imm) s = .next t ∧
      t.gpr8 dst = imm ∧ OnlyGpr (Reg8.parent dst) (Reg8.kept dst) s t) ∧
    ∀ (dst : Reg) (imm : Val), ∃ t, exec (.movRImm dst imm) s = .next t ∧
      GprIs t imm.width dst (Val.word imm) ∧ OnlyGpr dst (OpWidth.kept imm.width) s t

/-- 43_mov_imm.md R152, R153: the r/m operand takes the immediate; nothing else changes. -/
def Obligations.MovImmediateWritesTheOperand : Prop :=
  ∀ s : State, Memory.wf s.mem = true →
    (∀ (dst : Rm Reg8) (imm : Byte), Accessible s dst →
      ∃ t, exec (.movRm8Imm dst imm) s = .next t ∧ Stored8 s t dst imm) ∧
    ∀ (dst : Rm Reg) (imm : Val), Accessible s dst →
      ∃ t, exec (.movRmImm dst imm) s = .next t ∧ StoredOw s t imm.width dst (Val.word imm)

/-- 44_push.md R160, R161 (D12, D13, the spec's own choices): PUSH takes the operand with the old SP, lowers SP by
`OW`/8 modulo 2^16, keeps bits 31:16 of ESP, and stores the operand at SS and the new SP; nothing else
changes. -/
def Obligations.PushLowersSpThenStores : Prop :=
  ∀ (s : State) (w : OpWidth) (src : Rm Reg), s.mode = .real → Memory.wf s.mem = true →
    let n := OpWidth.bytes w
    let sp := s.gpr16 .esp - BitVec.ofNat 16 n
    ∃ t v, exec (.pushRm w src) s = .next t ∧ SourceOw s w src v ∧
      t.gpr32 .esp = (s.gpr32 .esp).extractLsb' 16 16 ++ sp ∧
      (∀ r, r ≠ .esp → t.gpr32 r = s.gpr32 r) ∧
      Holds t (s.sreg16 .ss) (sp.setWidth 32) n v ∧
      KeepsMemoryBut (storedAddrs (s.sreg16 .ss) (sp.setWidth 32) n) s t ∧
      (∀ r, t.sreg.get r = s.sreg.get r) ∧ KeepsControl s t

/-- 40_step_and_halt.md R115, 30_encoding.md R73: the halt sentinel sets the status and nothing else; a prefix
sets its flag and nothing else. -/
def Obligations.HaltAndPrefixesSetTheirField : Prop :=
  ∀ s : State,
    exec .halt s = .next { s with status := .halted } ∧
    exec .prefixOperandSize s = .next { s with opsz := true } ∧
    exec .prefixAddressSize s = .next { s with adsz := true }

/-- 60_exceptions.md R172, R173, R175: each invalid encoding takes the InvalidOpcode fault with its opcode and reg,
each unmapped opcode the UnknownOpcode fault with its opcode; the record names CS and EIP, and no other field changes.
The spec's own choices: that reg 6 and 7 of 0x8C and 0x8E are invalid (D3, log entry 14), and the record (D5, log entry
15). -/
def Obligations.InvalidAndUnknownEncodingsTakeTheirFault : Prop :=
  ∀ (s : State) (m : ModRm) (op : Byte),
    let ud (opcode : Byte) : State := { s with
      status := .faulted
        { code := .invalidOpcode, cs := s.sreg16 .cs, eip := s.eip
          opcode := some opcode, reg := some m.reg, mode := none } }
    exec (.invalidC6 m) s = .next (ud 0xC6) ∧
    exec (.invalidC7 m) s = .next (ud 0xC7) ∧
    exec (.invalidFF m) s = .next (ud 0xFF) ∧
    exec (.invalid8ECs m) s = .next (ud 0x8E) ∧
    exec (.invalid8EReg m) s = .next (ud 0x8E) ∧
    exec (.invalid8CReg m) s = .next (ud 0x8C) ∧
    exec (.unknown op) s = .next { s with
      status := .faulted
        { code := .unknownOpcode, cs := s.sreg16 .cs, eip := s.eip, opcode := some op, reg := none, mode := none } }

/-- Outside Real mode a memory operand, a moffs operand and a push take the UnimplementedMode fault, and no other field
changes. That a translation there raises it is 20_memory.md R50 and R62; that `exec` is defined there at all is the
model's choice (log entries 10 and 11), since no step gets this far (40_step_and_halt.md R119); the record is D5, the
spec's own choice (log entry 15). -/
def Obligations.MemoryFormsTrapOutsideRealMode : Prop :=
  ∀ (s : State) (m : MemOp) (o : Moffs) (w : OpWidth) (r : Reg) (b : Reg8) (g : Sreg) (d : SregDst)
    (x : Byte) (v : Val) (src : Rm Reg), s.mode ≠ .real →
    let u : Host.Outcome State Fault Refusal := .next { s with
      status := .faulted
        { code := .unimplementedMode, cs := s.sreg16 .cs, eip := s.eip, opcode := none, reg := none
          mode := some s.mode } }
    exec (.movRm8R8 (.mem m) b) s = u ∧ exec (.movRmR w (.mem m) r) s = u ∧
    exec (.movR8Rm8 b (.mem m)) s = u ∧ exec (.movRRm w r (.mem m)) s = u ∧
    exec (.movRm16Sreg (.mem m) g) s = u ∧ exec (.movSregRm16 d (.mem m)) s = u ∧
    exec (.movAlMoffs o) s = u ∧ exec (.movAxMoffs w o) s = u ∧
    exec (.movMoffsAl o) s = u ∧ exec (.movMoffsAx w o) s = u ∧
    exec (.movRm8Imm (.mem m) x) s = u ∧ exec (.movRmImm (.mem m) v) s = u ∧
    exec (.pushRm w src) s = u

/-! ### Whole-machine rules -/

/-- 10_state.md R29, R32, R33, 40_step_and_halt.md R120, R122: no instruction changes EFLAGS, the mode, CS or (within
its meaning) EIP; only the prefixes change a prefix flag, only MOV Sreg a segment register, and only halt and
a fault the status. -/
def Obligations.NoInstructionChangesSystemState : Prop :=
  ∀ (i : Instr) (s t : State), exec i s = .next t →
    t.eflags = s.eflags ∧ t.mode = s.mode ∧ t.eip = s.eip ∧ t.sreg.cs = s.sreg.cs ∧
    (i.isPrefix = false → t.opsz = s.opsz ∧ t.adsz = s.adsz) ∧
    ((∀ d x, i ≠ .movSregRm16 d x) → t.sreg = s.sreg) ∧
    (t.status = s.status ∨ (i = .halt ∧ t.status = .halted) ∨
      ∃ r, t.status = .faulted r ∧ t = { s with status := .faulted r })

/-- 10_state.md R29, R33, R42: a step changes neither the mode nor CS. -/
def Obligations.StepKeepsModeAndCs : Prop :=
  ∀ s t : State, step s = .next t → t.mode = s.mode ∧ t.sreg.cs = s.sreg.cs

/-- 10_state.md R32: EFLAGS is 0 at launch, no step changes it, and no step reads it: with any other EFLAGS the
outcome is the same but for EFLAGS. -/
def Obligations.EflagsIsNeverReadOrWritten : Prop :=
  (∀ p m, (State.launch p m).eflags = 0) ∧
  (∀ s t : State, step s = .next t → t.eflags = s.eflags) ∧
  ∀ (s : State) (f : Word), step (s.withEflags f) = mapNext (State.withEflags f) (step s)

/-- 10_state.md R28: the 16-bit view of a segment register is its bits 15:0, and no rule reads bits 31:16: two
states that agree but for those bits step alike but for those bits. -/
def Obligations.UpperSegmentBitsAreNeverRead : Prop :=
  (∀ (s : State) (r : Sreg), s.sreg16 r = (SegReg.full (s.sreg.get r)).extractLsb' 0 16) ∧
  ∀ s s' : State, s.forgetUpper = s'.forgetUpper →
    mapNext State.forgetUpper (step s) = mapNext State.forgetUpper (step s')

/-! ### The step -/

/-- 40_step_and_halt.md R111, 30_encoding.md R70, R73: when fewer than 2^20 prefixes and then bytes that decode to
an instruction `i` stand at CS:EIP of a running Real-mode block, the step runs `i` with the prefix flags set;
on completion, halt included, EIP moves past all the bytes, and on a fault the whole state before the step is restored
but for the status (R176). The spec's own choices: EIP past the sentinel (D6) and its advance modulo 2^32 (D7), log
entry 16; EIP restored after UnknownOpcode (D4), log entry 15; the prefix limit of 2^20 (D8), log entry 6. -/
def Obligations.StepRunsDecodedInstruction : Prop :=
  ∀ (s : State) (ps : List PrefixByte) (bs : List Byte) (i : Instr),
    s.status = .running → s.mode = .real → ps.length < 1048576 →
    CodeAt s (ps.map PrefixByte.toByte ++ bs) →
    decode (s.afterPrefixes ps).addrWidth (s.afterPrefixes ps).opWidth bs = .ok (i, []) →
    i.isPrefix = false →
    ∀ u, exec i (s.afterPrefixes ps) = .next u →
      (u.status.isFaulted = false → step s = .next (u.advanceEip (ps.length + bs.length))) ∧
      (∀ r, u.status = .faulted r → step s = .next { s with status := .faulted r })

/-- 30_encoding.md R73: the scan of a run of fewer than 2^20 prefix bytes and a byte that is none stops at that
byte, with each flag set exactly when its prefix occurs, in whatever order and number (the limit: D8, the spec's own
choice, log entry 6). -/
def Obligations.PrefixScanSetsTheFlagsSeen : Prop :=
  ∀ (s : State) (ps : List PrefixByte) (b : Byte),
    s.mode = .real → ps.length < 1048576 → b ≠ 0x66 → b ≠ 0x67 →
    CodeAt s (ps.map PrefixByte.toByte ++ [b]) →
    State.prefixScan Config.prefixLimit s.clearPrefixes 0 =
      .opcodeAt { s with opsz := ps.contains .operandSize, adsz := ps.contains .addressSize } ps.length

/-- 10_state.md R35 (D16, the spec's own choice; that the model answers the fault `runEnded` is log entry 5): a step
answers the fault `runEnded` exactly when the status is Halted or Faulted. The one other block that takes no step is the
stuck one (`StuckExactlyOnEndlessPrefixes`, `EveryRunningBlockSteps`). -/
def Obligations.NoStepAfterTheRunEnded : Prop :=
  ∀ s : State, step s = .fault .runEnded ↔ s.status ≠ .running

/-- 40_step_and_halt.md R119, 60_exceptions.md R171: a running block in another mode takes the UnimplementedMode fault,
whatever bytes stand at CS:EIP, and keeps all else. The spec's own choices: EIP restored (R176, D4) and the record (R175,
D5), log entry 15. -/
def Obligations.OtherModesFaultAtTheFirstFetch : Prop :=
  ∀ s : State, s.status = .running → s.mode ≠ .real →
    step s = .next { s with
      status := .faulted
        { code := .unimplementedMode, cs := s.sreg16 .cs, eip := s.eip, opcode := none, reg := none
          mode := some s.mode } }

/-- 30_encoding.md R74, 40_step_and_halt.md R118 (D8, the spec's own choice; the fault's name is the model's, log
entry 6): a running Real-mode block is stuck exactly when each of the 2^20 bytes from CS:EIP on is a prefix. -/
def Obligations.StuckExactlyOnEndlessPrefixes : Prop :=
  ∀ s : State, step s = .fault .prefixHang ↔
    s.status = .running ∧ s.mode = .real ∧
      ∀ k, k < 1048576 →
        s.physRead (realAddress (s.sreg16 .cs) (s.eip + BitVec.ofNat 32 k)) = 0x66 ∨
        s.physRead (realAddress (s.sreg16 .cs) (s.eip + BitVec.ofNat 32 k)) = 0x67

/-- 30_encoding.md R101, 20_memory.md R59: every running block takes a step, unless it is stuck in the prefix scan (D8,
the spec's own choice, log entry 6); no step is ever refused. -/
def Obligations.EveryRunningBlockSteps : Prop :=
  ∀ s : State, (∀ r, step s ≠ .refused r) ∧
    (s.status = .running → step s ≠ .fault .prefixHang → ∃ t, step s = .next t)

/-- 60_exceptions.md R175, R176 (D4, D5, the spec's own choices, log entry 15): a step that faults changes the status and nothing
else, and its record names the CS and EIP of the instruction start. -/
def Obligations.FaultsArePrecise : Prop :=
  ∀ (s t : State) (r : FaultRecord), step s = .next t → t.status = .faulted r →
    t = { s with status := .faulted r } ∧ r.cs = s.sreg16 .cs ∧ r.eip = s.eip

/-- 60_exceptions.md R172, R173, R178, from the raw bytes: in Real mode a step faults with InvalidOpcode exactly when
the opcode after the prefixes and the reg field of the next byte are a pair of 30_encoding.md R100, and with
UnknownOpcode exactly when the opcode is unmapped; it then records that opcode and reg. The spec's own choices: the rows
of R100 for reg 6 and 7 (D3, log entry 14), the record (D5) and which fault is the one reported (D15), log entry 15; the
prefix limit of 2^20 (D8), log entry 6. -/
def Obligations.StepFaultsExactlyOnInvalidBytes : Prop :=
  ∀ (s : State) (ps : List PrefixByte) (op modrm : Byte),
    s.status = .running → s.mode = .real → ps.length < 1048576 → op ≠ 0x66 → op ≠ 0x67 →
    CodeAt s (ps.map PrefixByte.toByte ++ [op, modrm]) →
    ∃ t, step s = .next t ∧
      (invalidEncoding op (modrm.extractLsb' 3 3) = true → t.status = .faulted
        { code := .invalidOpcode, cs := s.sreg16 .cs, eip := s.eip, opcode := some op
          reg := some (modrm.extractLsb' 3 3), mode := none }) ∧
      (mappedOpcodes.contains op = false → t.status = .faulted
        { code := .unknownOpcode, cs := s.sreg16 .cs, eip := s.eip, opcode := some op
          reg := none, mode := none }) ∧
      (invalidEncoding op (modrm.extractLsb' 3 3) = false → mappedOpcodes.contains op = true →
        t.status = if op = 0 then .halted else .running)

/-- 10_state.md R30, R31, 30_encoding.md R71: a step that completes, halting or not, moves EIP, modulo 2^32, by the
number of prefixes and the body length of R71, computed from the raw bytes. The spec's own choices: EIP past the halt
sentinel (D6) and the advance modulo 2^32 (D7), log entry 16; the prefix limit of 2^20 (D8), log entry 6. -/
def Obligations.EipAdvancesByTheInstructionLength : Prop :=
  ∀ (s t : State) (ps : List PrefixByte) (op modrm sib : Byte),
    s.mode = .real → ps.length < 1048576 → op ≠ 0x66 → op ≠ 0x67 →
    CodeAt s (ps.map PrefixByte.toByte ++ [op, modrm, sib]) →
    step s = .next t → t.status.isFaulted = false →
    t.eip = s.eip + BitVec.ofNat 32 (ps.length +
      r71Length (s.afterPrefixes ps).addrWidth (s.afterPrefixes ps).opWidth op modrm sib)

/-- 30_encoding.md R72, 20_memory.md R61, R67: in Real mode a fetch never fails, and the bytes it gives are those the
store holds from CS:EIP on, in order, so that a store into the instruction stream is seen by every later step. -/
def Obligations.FetchSeesTheStore : Prop :=
  ∀ (s : State) (k n : Nat), s.mode = .real →
    ∃ bs, s.fetchBytes k n = .ok bs ∧ bs.length = n ∧
      ∀ j (h : j < bs.length),
        bs[j] = s.physRead (realAddress (s.sreg16 .cs) (s.eip + BitVec.ofNat 32 (k + j)))

/-! ### Encoding -/

/-- 30_encoding.md R70, R76, R80, R84: decoding the encoding of a well-formed instruction gives it back, with every
operand at every value, whatever bytes follow. -/
def Obligations.DecodeOfEncodeIsTheInstruction : Prop :=
  ∀ (aw : AddrWidth) (ow : OpWidth) (i : Instr) (tail : List Byte), i.wf aw ow = true →
    decode aw ow (encode i ++ tail) = .ok (i, tail)

/-- 30_encoding.md R101: each byte sequence has one meaning: what decodes to `i` is the encoding of `i` and what
follows it, and `i` is well-formed. -/
def Obligations.EncodeOfDecodeIsTheBytes : Prop :=
  ∀ (aw : AddrWidth) (ow : OpWidth) (bs rest : List Byte) (i : Instr), decode aw ow bs = .ok (i, rest) →
    bs = encode i ++ rest ∧ i.wf aw ow = true

/-- 30_encoding.md R99: the opcode map, byte by byte. -/
def Obligations.OpcodeMapIsTheSpecs : Prop :=
  opcodeEntry 0x00 = .halt ∧ opcodeEntry 0x66 = .operandSize ∧ opcodeEntry 0x67 = .addressSize ∧
  opcodeEntry 0x88 = .movRm8R8 ∧ opcodeEntry 0x89 = .movRmR ∧ opcodeEntry 0x8A = .movR8Rm8 ∧
  opcodeEntry 0x8B = .movRRm ∧ opcodeEntry 0x8C = .movRm16Sreg ∧ opcodeEntry 0x8E = .movSregRm16 ∧
  opcodeEntry 0xA0 = .movAlMoffs ∧ opcodeEntry 0xA1 = .movAxMoffs ∧ opcodeEntry 0xA2 = .movMoffsAl ∧
  opcodeEntry 0xA3 = .movMoffsAx ∧ opcodeEntry 0xC6 = .movRm8Imm ∧ opcodeEntry 0xC7 = .movRmImm ∧
  opcodeEntry 0xFF = .groupFF ∧
  (∀ op : Byte, opcodeEntry op = .movR8Imm ↔ 0xB0 ≤ op ∧ op ≤ 0xB7) ∧
  (∀ op : Byte, opcodeEntry op = .movRImm ↔ 0xB8 ≤ op ∧ op ≤ 0xBF) ∧
  (∀ op : Byte, opcodeEntry op = .unmapped ↔ mappedOpcodes.contains op = false) ∧
  mappedOpcodes.length = 32

/-- 30_encoding.md R100 (reg 6 and 7 of 0x8C and 0x8E: D3, the spec's own choice, log entry 14): a body decodes to an
instruction that faults exactly when its opcode and reg are an invalid pair or its opcode is unmapped. Nothing after the
ModRM byte of an invalid pair is taken (60_exceptions.md R172), and nothing after an unmapped opcode
(40_step_and_halt.md R116). -/
def Obligations.DecoderRejectsExactlyTheInvalidEncodings : Prop :=
  ∀ (aw : AddrWidth) (ow : OpWidth) (op modrm : Byte) (bs rest : List Byte) (i : Instr),
    decode aw ow (op :: modrm :: bs) = .ok (i, rest) →
    (Instr.faults i = true ↔
      invalidEncoding op (modrm.extractLsb' 3 3) = true ∨ mappedOpcodes.contains op = false) ∧
    (invalidEncoding op (modrm.extractLsb' 3 3) = true → rest = bs) ∧
    (mappedOpcodes.contains op = false → rest = modrm :: bs)

/-- Words written out from the encodings of the spec (R115, R125, R126, R127, R128, R130, R131, R141, R144, R150,
R151, R152, R153, R161, R131, R116) decode to the instructions they stand for. The spec's own choices, which it takes
from general knowledge of x86: the 8-bit index map of 0x88, 0x8A and 0xB4 (D1) and the segment index map of 0x8C and 0x8E
(D2), log entry 13; the direction of 0xA0 and 0xA3 (D19), log entry 17. -/
def Obligations.WrittenOutWordsDecode : Prop :=
  decode .a16 .w16 [0x00] = .ok (.halt, []) ∧
  decode .a16 .w16 [0x88, 0xC4] = .ok (.movRm8R8 (.reg .ah) .al, []) ∧
  decode .a16 .w32 [0x89, 0xCA] = .ok (.movRmR .w32 (.reg .edx) .ecx, []) ∧
  decode .a16 .w16 [0x8A, 0x16, 0x34, 0x12] = .ok (.movR8Rm8 .dl (.mem (.m16 (.direct 0x1234))), []) ∧
  decode .a16 .w16 [0x8B, 0x46, 0xFE] = .ok (.movRRm .w16 .eax (.mem (.m16 (.disp8 .bp 0xFE))), []) ∧
  decode .a16 .w16 [0x8C, 0xD8] = .ok (.movRm16Sreg (.reg .eax) .ds, []) ∧
  decode .a16 .w16 [0x8E, 0xD0] = .ok (.movSregRm16 .ss (.reg .eax), []) ∧
  decode .a16 .w16 [0xA0, 0x34, 0x12] = .ok (.movAlMoffs (.o16 0x1234), []) ∧
  decode .a32 .w16 [0xA3, 0x00, 0x04, 0x01, 0x00] = .ok (.movMoffsAx .w16 (.o32 0x00010400), []) ∧
  decode .a16 .w16 [0xB4, 0x7F] = .ok (.movR8Imm .ah 0x7F, []) ∧
  decode .a16 .w32 [0xBB, 0x78, 0x56, 0x34, 0x12] = .ok (.movRImm .ebx (.v32 0x12345678), []) ∧
  decode .a32 .w32 [0xC7, 0x84, 0x24, 0x00, 0x01, 0x00, 0x00, 0xEF, 0xBE, 0xAD, 0xDE] =
    .ok (.movRmImm (.mem (.m32 (.sibDisp32 ⟨0, .esp⟩ .esp 0x100))) (.v32 0xDEADBEEF), []) ∧
  decode .a16 .w16 [0xFF, 0xF4] = .ok (.pushRm .w16 (.reg .esp), []) ∧
  decode .a16 .w16 [0x8E, 0xC8] = .ok (.invalid8ECs ⟨3, 1, 0⟩, []) ∧
  decode .a16 .w16 [0x90] = .ok (.unknown 0x90, [])

/-- 30_encoding.md R71: a body that decodes to an instruction that does not fault, and is no prefix, takes the bytes
R71 says, which are at most 11. -/
def Obligations.DecoderTakesTheR71Length : Prop :=
  ∀ (aw : AddrWidth) (ow : OpWidth) (op modrm sib : Byte) (bs rest : List Byte) (i : Instr),
    decode aw ow (op :: modrm :: sib :: bs) = .ok (i, rest) → Instr.faults i = false → i.isPrefix = false →
    rest = (op :: modrm :: sib :: bs).drop (r71Length aw ow op modrm sib) ∧
    r71Length aw ow op modrm sib ≤ 11

/-! ### Launch, invariant and host -/

/-- 70_reset_and_hazards.md R190, R191, 00_scope.md R4: the launch state, whatever the host's parameters; `load_state` and
`load_memory`, in either order and from whatever state (R192), make it, and each leaves what the other sets; reset is a
launch (its parameters are the model's choice, log entries 1 and 2). The status field is D16 and the store as a launch
input D14, the spec's own choices; that the two transactions test no status is the model's (log entry 20). -/
def Obligations.LaunchStateIsTheSpecs : Prop :=
  (∀ (p : Launch) (m : Memory),
    (∀ r, r ≠ .esp → (State.launch p m).gpr32 r = 0) ∧ (State.launch p m).gpr32 .esp = p.esp0 ∧
    (State.launch p m).eip = p.eip0 ∧ (State.launch p m).eflags = 0 ∧ (State.launch p m).mode = .real ∧
    (State.launch p m).opsz = false ∧ (State.launch p m).adsz = false ∧
    (State.launch p m).status = .running ∧ (State.launch p m).mem = m ∧
    (State.launch p m).sreg.cs = p.cs0 ∧ (State.launch p m).sreg.ds = p.ds0 ∧
    (State.launch p m).sreg.es = p.es0 ∧ (State.launch p m).sreg.ss = p.ss0 ∧
    (State.launch p m).sreg.fs = p.fs0 ∧ (State.launch p m).sreg.gs = p.gs0) ∧
  (∀ (s : State) (p : Launch) (image : List Byte),
    (s.loadMemory image).loadState p .real = State.launch p (Memory.ofImage 0 image) ∧
    (s.loadState p .real).loadMemory image = State.launch p (Memory.ofImage 0 image) ∧
    (s.loadState p .real).mem = s.mem) ∧
  (∀ (s : State) (p : Launch) (m : Mode), s.loadState p m = { s.loadState p .real with mode := m }) ∧
  ∃ p, State.reset = State.launch p []

/-- The invariant holds after reset and after every launch over a store in canonical form. -/
def Obligations.LaunchSatisfiesInvariant : Prop :=
  Inv State.reset ∧ ∀ p m, Memory.wf m = true → Inv (State.launch p m)

/-- 60_exceptions.md R175, R176, 10_state.md R35, R36: from every state that meets it, a step keeps the invariant: the
store stays canonical, only a Real-mode block halts, and a fault record fits the state. The spec's own choices: EIP after
a fault (D4) and the record (D5), log entry 15; the pairs with reg 6 and 7 of 0x8C and 0x8E (D3), log entry 14; the status
(D16), log entry 5. -/
def Obligations.StepKeepsInvariant : Prop :=
  ∀ s t : State, Inv s → step s = .next t → Inv t

/-- 10_state.md R41, 60_exceptions.md R174: a host register access, read or write, fails with ProgrammingError exactly when
its index is out of range: above 7 for the 8-bit, 16-bit and 32-bit general-purpose views, above 5 for the segment
registers, other than 0 for EIP and EFLAGS (that these have an index, and it is 0: the model's choice, log entry 20). It
does so in every status, of a read while Running too. A write in range, in whatever status (log entry 20), is read back
through the same view, cut to the width of the view, and changes no other index of the view, no byte of memory, and
neither the mode, the prefix flags nor the status. -/
def Obligations.HostIndexOutOfRangeIsProgrammingError : Prop :=
  ∀ (s : State) (v : RegView) (i : Nat) (x : Word),
    (s.getView v i = .error .programmingError ↔ ¬v.InRange i) ∧
    (s.readReg v i = .error .programmingError ↔ ¬v.InRange i) ∧
    (s.setView v i x = .error .programmingError ↔ ¬v.InRange i) ∧
    (v.InRange i → ∃ t, s.setView v i x = .ok t ∧ t.getView v i = .ok (x &&& v.mask) ∧
      (∀ j, j ≠ i → t.getView v j = s.getView v j) ∧
      t.mem = s.mem ∧ t.mode = s.mode ∧ t.opsz = s.opsz ∧ t.adsz = s.adsz ∧ t.status = s.status)

/-- 60_exceptions.md R177, 70_reset_and_hazards.md R194, R195: the host has a result exactly when the run has ended, and it
is the block's status; after the run it can read every register view and every byte of memory. That a read while
Running, of an index in range or of memory, answers the error `running` is the model's choice (log entry 20): R196 and U22
leave such a read outside every claim. -/
def Obligations.HostReadsOnlyAfterTheRun : Prop :=
  ∀ s : State,
    (s.result = none ↔ s.status = .running) ∧ (s.result = some .halted ↔ s.status = .halted) ∧
    (∀ r, s.result = some (.faulted r) ↔ s.status = .faulted r) ∧
    (s.status ≠ .running → ∀ p v i, s.readMem p = .ok (s.physRead p) ∧ s.readReg v i = s.getView v i) ∧
    (s.status = .running → ∀ p v i, s.readMem p = .error .running ∧
      (v.InRange i → s.readReg v i = .error .running))

/-- 70_reset_and_hazards.md R191, 10_state.md R36: `load_memory` sets every byte of the store, byte `k` of the image at
physical address `k`, keeps every other field, and leaves the store in canonical form. That the bytes after a shorter
image read 0 is the model's choice (log entry 2), and so is that no status is tested (log entry 20). -/
def Obligations.LoadMemorySetsEveryByte : Prop :=
  ∀ (s : State) (image : List Byte),
    (∀ (p : Phys) (h : p.toNat < image.length), (s.loadMemory image).physRead p = image[p.toNat]) ∧
    (∀ p : Phys, image.length ≤ p.toNat → (s.loadMemory image).physRead p = 0) ∧
    Memory.wf (s.loadMemory image).mem = true ∧
    ∃ m, s.loadMemory image = { s with mem := m }

/-- 40_step_and_halt.md R110, 70_reset_and_hazards.md R194 (D16, the spec's own choice): `run` takes steps while the
status is Running. It ends in `t` exactly when some number of steps within the bound leads to `t` and `t` is Halted or
Faulted; it is unfinished exactly when the whole bound of steps leads to a block that is still Running; it is stuck
exactly when a step within the bound hangs; and it is never refused. Two bounds under which it ends give one end. The
bound itself is the model's choice (log entry 24). -/
def Obligations.RunRepeatsTheStep : Prop :=
  ∀ (n : Nat) (s : State),
    (∀ t, State.run n s = .ended t ↔
      t.status ≠ .running ∧ ∃ k, k ≤ n ∧ StepsTo k s t) ∧
    (∀ t, State.run n s = .unfinished t ↔ t.status = .running ∧ StepsTo n s t) ∧
    (∀ f, State.run n s = .stuck f ↔ f = .prefixHang ∧
      ∃ k t, k < n ∧ StepsTo k s t ∧ step t = .fault .prefixHang) ∧
    (∀ r, State.run n s ≠ .refused r) ∧
    ∀ n' t t', State.run n s = .ended t → State.run n' s = .ended t' → t = t'

/-- 10_state.md R29, R32, R33: a run that ends from a state that meets the invariant ends in one that does, with EFLAGS,
the mode and CS as they were at its start. What the invariant says of a fault rests on D3, D4 and D5, the spec's own choices
(log entries 14 and 15). -/
def Obligations.RunKeepsInvariantModeCsAndEflags : Prop :=
  ∀ (n : Nat) (s t : State), Inv s → State.run n s = .ended t →
    Inv t ∧ t.mode = s.mode ∧ t.sreg.cs = s.sreg.cs ∧ t.eflags = s.eflags
end

