-- ==== Sys2Proof/Laws/Decode.lean ====
section
/-! SUPPORT. Byte order, bit fields and index maps: each direction undone by the other; and the pieces of the
decoder on the pieces of the encoder. -/

namespace Sys2Proof

theorem bytes16_le16 (b0 b1 : Byte) : bytes16 (le16 b0 b1) = [b0, b1] := by
  simp only [bytes16, le16, List.cons.injEq, and_true]
  constructor <;>
  · ext i hi
    rw [BitVec.getElem_extractLsb', BitVec.getLsbD_append]
    simp [hi, BitVec.getLsbD_eq_getElem]

theorem bytes32_le32 (b0 b1 b2 b3 : Byte) : bytes32 (le32 b0 b1 b2 b3) = [b0, b1, b2, b3] := by
  simp only [bytes32, le32, List.cons.injEq, and_true]
  refine ⟨?_, ?_, ?_, ?_⟩ <;>
  · ext i hi
    rw [BitVec.getElem_extractLsb', BitVec.getLsbD_append]
    split <;> simp only [BitVec.getLsbD_append] <;> split <;> first | omega | skip
    all_goals (rw [BitVec.getLsbD_eq_getElem (by omega)]; congr 1; omega)

theorem le16_bytes16 (v : Half) : le16 (v.extractLsb' 0 8) (v.extractLsb' 8 8) = v := by
  apply BitVec.eq_of_getLsbD_eq
  intro i hi
  rw [le16, BitVec.getLsbD_append]
  split <;> rw [BitVec.getLsbD_extractLsb'] <;>
    (rw [decide_eq_true (by omega), Bool.true_and]; congr 1; omega)

theorem le32_bytes32 (v : Word) :
    le32 (v.extractLsb' 0 8) (v.extractLsb' 8 8) (v.extractLsb' 16 8) (v.extractLsb' 24 8) = v := by
  apply BitVec.eq_of_getLsbD_eq
  intro i hi
  rw [le32, BitVec.getLsbD_append]
  split <;> rw [BitVec.getLsbD_append] <;> split <;> rw [BitVec.getLsbD_extractLsb'] <;>
    (rw [decide_eq_true (by omega), Bool.true_and]; congr 1; omega)

@[simp] theorem take2_bytes16 (v : Half) (bs : List Byte) : take2 (bytes16 v ++ bs) = .ok (v, bs) := by
  simp [take2, bytes16, le16_bytes16]

@[simp] theorem take4_bytes32 (v : Word) (bs : List Byte) : take4 (bytes32 v ++ bs) = .ok (v, bs) := by
  simp [take4, bytes32, le32_bytes32]

@[simp] theorem ModRm.toByte_ofByte : ∀ b : Byte, ModRm.toByte (ModRm.ofByte b) = b := by decide

theorem ModRm.ofByte_toByte_fields : ∀ (mod : BitVec 2) (reg rm : BitVec 3),
    ModRm.ofByte (ModRm.toByte ⟨mod, reg, rm⟩) = ⟨mod, reg, rm⟩ := by decide

@[simp] theorem ModRm.ofByte_toByte (m : ModRm) : ModRm.ofByte m.toByte = m :=
  ModRm.ofByte_toByte_fields m.mod m.reg m.rm

@[simp] theorem Reg.ofIndex_index (r : Reg) : Reg.ofIndex r.index = r := by cases r <;> rfl

@[simp] theorem Reg.index_ofIndex : ∀ i : BitVec 3, (Reg.ofIndex i).index = i := by decide

@[simp] theorem Reg8.ofIndex_index (r : Reg8) : Reg8.ofIndex r.index = r := by cases r <;> rfl

@[simp] theorem Reg8.index_ofIndex : ∀ i : BitVec 3, (Reg8.ofIndex i).index = i := by decide

@[simp] theorem Base16.ofIndex_index (b : Base16) : Base16.ofIndex b.index = b := by cases b <;> rfl

@[simp] theorem Base16.index_ofIndex : ∀ i : BitVec 3, (Base16.ofIndex i).index = i := by decide

@[simp] theorem Sreg.ofIndex_index (r : Sreg) : Sreg.ofIndex? r.index = some r := by cases r <;> rfl

@[simp] theorem SregDst.ofIndex_index (r : SregDst) : SregDst.ofIndex? r.toSreg.index = some r := by
  cases r <;> rfl

theorem SibIndex.toByte_fields : ∀ (scale : BitVec 2) (index base : BitVec 3),
    let b : Byte := (scale ++ index : BitVec 5) ++ base
    b.extractLsb' 6 2 = scale ∧ b.extractLsb' 3 3 = index ∧ b.extractLsb' 0 3 = base := by decide

@[simp] theorem SibIndex.ofByte_toByte (x : SibIndex) (r : Reg) : SibIndex.ofByte (x.toByte r) = x := by
  have h := SibIndex.toByte_fields x.scale x.index.index r.index
  simp only [SibIndex.ofByte, SibIndex.toByte, h.1, h.2.1, Reg.ofIndex_index]

@[simp] theorem sibBase_toByte (x : SibIndex) (r : Reg) : sibBase (x.toByte r) = r := by
  have h := SibIndex.toByte_fields x.scale x.index.index r.index
  simp only [sibBase, SibIndex.toByte, h.2.2, Reg.ofIndex_index]

/-! ### The opcode map, byte by byte -/

@[simp] theorem opcodeEntry_00 : opcodeEntry 0x00#8 = .halt := rfl

@[simp] theorem opcodeEntry_66 : opcodeEntry 0x66#8 = .operandSize := rfl

@[simp] theorem opcodeEntry_67 : opcodeEntry 0x67#8 = .addressSize := rfl

@[simp] theorem opcodeEntry_88 : opcodeEntry 0x88#8 = .movRm8R8 := rfl

@[simp] theorem opcodeEntry_89 : opcodeEntry 0x89#8 = .movRmR := rfl

@[simp] theorem opcodeEntry_8A : opcodeEntry 0x8A#8 = .movR8Rm8 := rfl

@[simp] theorem opcodeEntry_8B : opcodeEntry 0x8B#8 = .movRRm := rfl

@[simp] theorem opcodeEntry_8C : opcodeEntry 0x8C#8 = .movRm16Sreg := rfl

@[simp] theorem opcodeEntry_8E : opcodeEntry 0x8E#8 = .movSregRm16 := rfl

@[simp] theorem opcodeEntry_A0 : opcodeEntry 0xA0#8 = .movAlMoffs := rfl

@[simp] theorem opcodeEntry_A1 : opcodeEntry 0xA1#8 = .movAxMoffs := rfl

@[simp] theorem opcodeEntry_A2 : opcodeEntry 0xA2#8 = .movMoffsAl := rfl

@[simp] theorem opcodeEntry_A3 : opcodeEntry 0xA3#8 = .movMoffsAx := rfl

@[simp] theorem opcodeEntry_C6 : opcodeEntry 0xC6#8 = .movRm8Imm := rfl

@[simp] theorem opcodeEntry_C7 : opcodeEntry 0xC7#8 = .movRmImm := rfl

@[simp] theorem opcodeEntry_FF : opcodeEntry 0xFF#8 = .groupFF := rfl

@[simp] theorem opcodeEntry_B0 : ∀ r : BitVec 3, opcodeEntry (0b10110#5 ++ r) = .movR8Imm := by decide

@[simp] theorem opcodeEntry_B8 : ∀ r : BitVec 3, opcodeEntry (0b10111#5 ++ r) = .movRImm := by decide

@[simp] theorem opcodeReg_B0 : ∀ r : BitVec 3, opcodeReg (0b10110#5 ++ r) = r := by decide

@[simp] theorem opcodeReg_B8 : ∀ r : BitVec 3, opcodeReg (0b10111#5 ++ r) = r := by decide

theorem opcodeEntry_unmapped : ∀ op : Byte, mappedOpcodes.contains op = false → opcodeEntry op = .unmapped := by
  decide

end Sys2Proof
end

