-- ==== Sys2Proof/Laws/Memory.lean ====
section
/-! SUPPORT. The byte store: reads after writes, and the canonical form, which every write keeps. -/

namespace Sys2Proof.Machine

/-- A write is seen by a read of the same address (20_memory.md R52). -/
@[simp] theorem Memory.read_write_self (m : Memory) (a : Nat) (b : Byte) (lo : Nat)
    (h : Memory.wfFrom lo m = true) : Memory.read (Memory.write m a b) a = b := by
  induction m generalizing lo with
  | nil => by_cases hb : b = blankByte <;> simp only [Memory.write, Memory.read, hb, if_true, if_false]
  | cons c m ih =>
    obtain ⟨k, v⟩ := c
    simp only [Memory.wfFrom, Bool.and_eq_true, decide_eq_true_eq] at h
    have below : ∀ (m : Memory) (lo : Nat), Memory.wfFrom lo m = true → a < lo →
        Memory.read m a = blankByte := by
      intro m
      induction m with
      | nil => intros; rfl
      | cons c m ih' =>
        obtain ⟨k', v'⟩ := c
        intro lo hm hlt
        simp only [Memory.wfFrom, Bool.and_eq_true, decide_eq_true_eq] at hm
        have hne : a ≠ k' := by omega
        simp only [Memory.read, hne, if_false]
        exact ih' (k' + 1) hm.2 (by omega)
    simp only [Memory.write]
    split
    · next hlt =>
      split
      · next hb =>
        have hne : a ≠ k := by omega
        simp only [Memory.read, hne, if_false]
        rw [below m (k + 1) h.2 (by omega), hb]
      · simp [Memory.read]
    · split
      · next heq =>
        split
        · next hb => rw [below m (k + 1) h.2 (by omega), hb]
        · simp [Memory.read]
      · next hne =>
        simp only [Memory.read, hne, if_false]
        exact ih (k + 1) h.2

/-- A write leaves every other address alone (20_memory.md R52). -/
theorem Memory.read_write_of_ne (m : Memory) {a a' : Nat} (b : Byte) (h : a' ≠ a) :
    Memory.read (Memory.write m a b) a' = Memory.read m a' := by
  induction m with
  | nil => by_cases hb : b = blankByte <;> simp only [Memory.write, Memory.read, hb, if_true, if_false, h]
  | cons c m ih =>
    obtain ⟨k, v⟩ := c
    simp only [Memory.write]
    split
    · split <;> simp [Memory.read, h]
    · split
      · next heq =>
        subst heq
        split <;> simp [Memory.read, h]
      · simp only [Memory.read, ih]

/-- A list that starts later is also one that starts earlier. -/
theorem Memory.wfFrom_mono {m : Memory} {lo lo' : Nat} (h : Memory.wfFrom lo' m = true) (hl : lo ≤ lo') :
    Memory.wfFrom lo m = true := by
  cases m with
  | nil => rfl
  | cons c m =>
    obtain ⟨k, v⟩ := c
    simp only [Memory.wfFrom, Bool.and_eq_true, decide_eq_true_eq] at h ⊢
    exact ⟨⟨⟨by omega, h.1.1.2⟩, h.1.2⟩, h.2⟩

theorem Memory.wfFrom_write {m : Memory} {lo a : Nat} (b : Byte) (h : Memory.wfFrom lo m = true)
    (hlo : lo ≤ a) (ha : a < Config.memSize) : Memory.wfFrom lo (Memory.write m a b) = true := by
  induction m generalizing lo with
  | nil =>
    by_cases hb : b = blankByte
    · simp only [Memory.write, hb, if_true, Memory.wfFrom]
    · simp only [Memory.write, hb, if_false, Memory.wfFrom, Bool.and_eq_true, decide_eq_true_eq]
      exact ⟨⟨⟨hlo, ha⟩, by simpa using hb⟩, trivial⟩
  | cons c m ih =>
    obtain ⟨k, v⟩ := c
    have h0 := h
    simp only [Memory.wfFrom, Bool.and_eq_true, decide_eq_true_eq] at h
    obtain ⟨⟨⟨h1, h2⟩, h3⟩, h4⟩ := h
    simp only [Memory.write]
    split
    · next hlt =>
      split
      · exact h0
      · next hb =>
        simp only [Memory.wfFrom, Bool.and_eq_true, decide_eq_true_eq]
        exact ⟨⟨⟨hlo, ha⟩, by simpa using hb⟩, ⟨⟨by omega, h2⟩, h3⟩, h4⟩
    · next hge =>
      split
      · next heq =>
        split
        · exact Memory.wfFrom_mono h4 (by omega)
        · next hb =>
          simp only [Memory.wfFrom, Bool.and_eq_true, decide_eq_true_eq]
          exact ⟨⟨⟨hlo, ha⟩, by simpa using hb⟩, by rw [heq]; exact h4⟩
      · simp only [Memory.wfFrom, Bool.and_eq_true, decide_eq_true_eq]
        exact ⟨⟨⟨h1, h2⟩, h3⟩, ih h4 (by omega)⟩

/-- Every write inside the store keeps the canonical form. -/
theorem Memory.wf_write {m : Memory} {a : Nat} (b : Byte) (h : Memory.wf m = true)
    (ha : a < Config.memSize) : Memory.wf (Memory.write m a b) = true :=
  Memory.wfFrom_write b h (Nat.zero_le a) ha

theorem State.physWrite_wf (s : State) (p : Phys) (b : Byte) (h : Memory.wf s.mem = true) :
    Memory.wf (s.physWrite p b).mem = true :=
  Memory.wf_write b h p.isLt

/-- `PhysRead` after `PhysWrite` at the same address (20_memory.md R52). -/
theorem State.physRead_physWrite_self (s : State) (p : Phys) (b : Byte) (h : Memory.wf s.mem = true) :
    (s.physWrite p b).physRead p = b :=
  Memory.read_write_self s.mem p.toNat b 0 h

/-- `PhysRead` after `PhysWrite` elsewhere: "No other byte changes" (20_memory.md R52). -/
theorem State.physRead_physWrite_of_ne (s : State) {p q : Phys} (b : Byte) (h : q ≠ p) :
    (s.physWrite p b).physRead q = s.physRead q :=
  Memory.read_write_of_ne s.mem b (fun e => h (BitVec.eq_of_toNat_eq e))

end Sys2Proof.Machine
end

