-- ==== Sys2Proof/Laws/Host.lean ====
section
/-! SUPPORT. The host's transactions: the image of `load_memory`, the equations of `run` and its induction, and the
ranges of the register views. -/

namespace Sys2Proof.Machine

/-! ### `load_memory` (70_reset_and_hazards.md R191) -/

theorem Memory.read_of_wfFrom_lt {m : Memory} {lo a : Nat} (h : Memory.wfFrom lo m = true) (ha : a < lo) :
    Memory.read m a = blankByte := by
  induction m generalizing lo with
  | nil => rfl
  | cons c m ih =>
    obtain ⟨k, v⟩ := c
    simp only [Memory.wfFrom, Bool.and_eq_true, decide_eq_true_eq] at h
    simp only [Memory.read, if_neg (show a ≠ k by omega)]
    exact ih h.2 (by omega)

/-- The list of an image is canonical. -/
theorem Memory.wfFrom_ofImage (a : Nat) (bs : List Byte) : Memory.wfFrom a (Memory.ofImage a bs) = true := by
  induction bs generalizing a with
  | nil => rfl
  | cons b bs ih =>
    unfold Memory.ofImage
    split
    · exact Memory.wfFrom_mono (ih (a + 1)) (by omega)
    · next h =>
      obtain ⟨hb, ha⟩ := not_or.1 h
      simp only [Memory.wfFrom, Bool.and_eq_true, decide_eq_true_eq]
      exact ⟨⟨⟨le_refl a, by omega⟩, by simpa using hb⟩, ih (a + 1)⟩

/-- Byte `k` of an image that starts at `a` stands at `a` + `k`; after its end the list reads `blankByte`. -/
theorem Memory.read_ofImage (a : Nat) (bs : List Byte) (k : Nat) (h : a + k < Config.memSize) :
    Memory.read (Memory.ofImage a bs) (a + k) = bs.getD k blankByte := by
  induction bs generalizing a k with
  | nil => rfl
  | cons b bs ih =>
    have later : ∀ j, k = j + 1 →
        Memory.read (Memory.ofImage (a + 1) bs) (a + k) = (b :: bs).getD k blankByte := by
      rintro j rfl
      have := ih (a + 1) j (by omega)
      rwa [show a + 1 + j = a + (j + 1) by omega] at this
    unfold Memory.ofImage
    split
    · next hb =>
      cases k with
      | zero =>
        rw [Memory.read_of_wfFrom_lt (Memory.wfFrom_ofImage (a + 1) bs) (by omega)]
        exact (hb.resolve_right (by omega)).symm
      | succ j => exact later j rfl
    · cases k with
      | zero => simp [Memory.read]
      | succ j =>
        simp only [Memory.read, if_neg (show a + (j + 1) ≠ a by omega)]
        exact later j rfl

@[simp] theorem State.loadMemory_mem (s : State) (image : List Byte) :
    (s.loadMemory image).mem = Memory.ofImage 0 image := rfl

theorem State.loadMemory_wf (s : State) (image : List Byte) : Memory.wf (s.loadMemory image).mem = true :=
  Memory.wfFrom_ofImage 0 image

/-! ### `run` (40_step_and_halt.md R110, 70_reset_and_hazards.md R194) -/

/-- A block that has ended runs no further, whatever the bound. -/
theorem State.run_of_not_running {s : State} (h : s.status ≠ .running) (n : Nat) : State.run n s = .ended s := by
  cases n <;> unfold State.run <;> split <;> first | rfl | (next hr => exact absurd hr h)

theorem State.run_zero_of_running {s : State} (h : s.status = .running) : State.run 0 s = .unfinished s := by
  simp only [State.run, h]

theorem State.run_succ_of_running {s : State} (h : s.status = .running) (n : Nat) :
    State.run (n + 1) s = match step s with
      | .next t => State.run n t
      | .fault r => .stuck r
      | .refused r => .refused r := by
  conv_lhs => unfold State.run
  split
  · rfl
  · next hr => cases h.symm.trans hr
  · next hr => cases h.symm.trans hr

/-- What every step keeps, a run that ends keeps, and it ends with a status that is not Running. -/
theorem State.run_ended_induction {P : State → Prop} (hstep : ∀ s t, P s → step s = .next t → P t) {n : Nat}
    {s t : State} (hs : P s) (h : State.run n s = .ended t) : P t ∧ t.status ≠ .running := by
  induction n generalizing s with
  | zero =>
    by_cases hr : s.status = .running
    · rw [State.run_zero_of_running hr] at h; cases h
    · rw [State.run_of_not_running hr] at h; cases h; exact ⟨hs, hr⟩
  | succ n ih =>
    by_cases hr : s.status = .running
    · rw [State.run_succ_of_running hr] at h
      split at h
      · next u hu => exact ih (hstep s u hs hu) h
      · cases h
      · cases h
    · rw [State.run_of_not_running hr] at h; cases h; exact ⟨hs, hr⟩

/-! ### Register views (10_state.md R41) -/

theorem RegView.count_le_iff (v : RegView) (i : Nat) : v.count ≤ i ↔ ¬v.InRange i := by
  cases v <;> simp only [RegView.count, RegView.InRange] <;> omega

end Sys2Proof.Machine
end

