-- ==== Sys2Proof/Laws/State.lean ====
section
/-! SUPPORT. The fields of State after each named update, and the views of the register file after a write. -/

namespace Sys2Proof.Machine

variable (s : State)

/-! ### setGpr32 -/

@[simp] theorem State.setGpr32_gpr (r : Reg) (v : Word) :
    (s.setGpr32 r v).gpr = s.gpr.set r v := rfl

@[simp] theorem State.setGpr32_sreg (r : Reg) (v : Word) :
    (s.setGpr32 r v).sreg = s.sreg := rfl

@[simp] theorem State.setGpr32_eip (r : Reg) (v : Word) :
    (s.setGpr32 r v).eip = s.eip := rfl

@[simp] theorem State.setGpr32_eflags (r : Reg) (v : Word) :
    (s.setGpr32 r v).eflags = s.eflags := rfl

@[simp] theorem State.setGpr32_mode (r : Reg) (v : Word) :
    (s.setGpr32 r v).mode = s.mode := rfl

@[simp] theorem State.setGpr32_opsz (r : Reg) (v : Word) :
    (s.setGpr32 r v).opsz = s.opsz := rfl

@[simp] theorem State.setGpr32_adsz (r : Reg) (v : Word) :
    (s.setGpr32 r v).adsz = s.adsz := rfl

@[simp] theorem State.setGpr32_status (r : Reg) (v : Word) :
    (s.setGpr32 r v).status = s.status := rfl

@[simp] theorem State.setGpr32_mem (r : Reg) (v : Word) :
    (s.setGpr32 r v).mem = s.mem := rfl

/-! ### setGpr16 -/

@[simp] theorem State.setGpr16_sreg (r : Reg) (v : Half) :
    (s.setGpr16 r v).sreg = s.sreg := rfl

@[simp] theorem State.setGpr16_eip (r : Reg) (v : Half) :
    (s.setGpr16 r v).eip = s.eip := rfl

@[simp] theorem State.setGpr16_eflags (r : Reg) (v : Half) :
    (s.setGpr16 r v).eflags = s.eflags := rfl

@[simp] theorem State.setGpr16_mode (r : Reg) (v : Half) :
    (s.setGpr16 r v).mode = s.mode := rfl

@[simp] theorem State.setGpr16_opsz (r : Reg) (v : Half) :
    (s.setGpr16 r v).opsz = s.opsz := rfl

@[simp] theorem State.setGpr16_adsz (r : Reg) (v : Half) :
    (s.setGpr16 r v).adsz = s.adsz := rfl

@[simp] theorem State.setGpr16_status (r : Reg) (v : Half) :
    (s.setGpr16 r v).status = s.status := rfl

@[simp] theorem State.setGpr16_mem (r : Reg) (v : Half) :
    (s.setGpr16 r v).mem = s.mem := rfl

/-! ### setGpr8 -/

@[simp] theorem State.setGpr8_sreg (r : Reg8) (v : Byte) :
    (s.setGpr8 r v).sreg = s.sreg := by cases r <;> rfl

@[simp] theorem State.setGpr8_eip (r : Reg8) (v : Byte) :
    (s.setGpr8 r v).eip = s.eip := by cases r <;> rfl

@[simp] theorem State.setGpr8_eflags (r : Reg8) (v : Byte) :
    (s.setGpr8 r v).eflags = s.eflags := by cases r <;> rfl

@[simp] theorem State.setGpr8_mode (r : Reg8) (v : Byte) :
    (s.setGpr8 r v).mode = s.mode := by cases r <;> rfl

@[simp] theorem State.setGpr8_opsz (r : Reg8) (v : Byte) :
    (s.setGpr8 r v).opsz = s.opsz := by cases r <;> rfl

@[simp] theorem State.setGpr8_adsz (r : Reg8) (v : Byte) :
    (s.setGpr8 r v).adsz = s.adsz := by cases r <;> rfl

@[simp] theorem State.setGpr8_status (r : Reg8) (v : Byte) :
    (s.setGpr8 r v).status = s.status := by cases r <;> rfl

@[simp] theorem State.setGpr8_mem (r : Reg8) (v : Byte) :
    (s.setGpr8 r v).mem = s.mem := by cases r <;> rfl

/-! ### setGprOw -/

@[simp] theorem State.setGprOw_sreg (r : Reg) (v : Val) :
    (s.setGprOw r v).sreg = s.sreg := by cases v <;> rfl

@[simp] theorem State.setGprOw_eip (r : Reg) (v : Val) :
    (s.setGprOw r v).eip = s.eip := by cases v <;> rfl

@[simp] theorem State.setGprOw_eflags (r : Reg) (v : Val) :
    (s.setGprOw r v).eflags = s.eflags := by cases v <;> rfl

@[simp] theorem State.setGprOw_mode (r : Reg) (v : Val) :
    (s.setGprOw r v).mode = s.mode := by cases v <;> rfl

@[simp] theorem State.setGprOw_opsz (r : Reg) (v : Val) :
    (s.setGprOw r v).opsz = s.opsz := by cases v <;> rfl

@[simp] theorem State.setGprOw_adsz (r : Reg) (v : Val) :
    (s.setGprOw r v).adsz = s.adsz := by cases v <;> rfl

@[simp] theorem State.setGprOw_status (r : Reg) (v : Val) :
    (s.setGprOw r v).status = s.status := by cases v <;> rfl

@[simp] theorem State.setGprOw_mem (r : Reg) (v : Val) :
    (s.setGprOw r v).mem = s.mem := by cases v <;> rfl

/-! ### writeSregAs -/

@[simp] theorem State.writeSregAs_gpr (p : SregUpper) (r : Sreg) (v : Half) :
    (s.writeSregAs p r v).gpr = s.gpr := rfl

@[simp] theorem State.writeSregAs_sreg (p : SregUpper) (r : Sreg) (v : Half) :
    (s.writeSregAs p r v).sreg = s.sreg.set r ((s.sreg.get r).write p v) := rfl

@[simp] theorem State.writeSregAs_eip (p : SregUpper) (r : Sreg) (v : Half) :
    (s.writeSregAs p r v).eip = s.eip := rfl

@[simp] theorem State.writeSregAs_eflags (p : SregUpper) (r : Sreg) (v : Half) :
    (s.writeSregAs p r v).eflags = s.eflags := rfl

@[simp] theorem State.writeSregAs_mode (p : SregUpper) (r : Sreg) (v : Half) :
    (s.writeSregAs p r v).mode = s.mode := rfl

@[simp] theorem State.writeSregAs_opsz (p : SregUpper) (r : Sreg) (v : Half) :
    (s.writeSregAs p r v).opsz = s.opsz := rfl

@[simp] theorem State.writeSregAs_adsz (p : SregUpper) (r : Sreg) (v : Half) :
    (s.writeSregAs p r v).adsz = s.adsz := rfl

@[simp] theorem State.writeSregAs_status (p : SregUpper) (r : Sreg) (v : Half) :
    (s.writeSregAs p r v).status = s.status := rfl

@[simp] theorem State.writeSregAs_mem (p : SregUpper) (r : Sreg) (v : Half) :
    (s.writeSregAs p r v).mem = s.mem := rfl

/-! ### writeSreg -/

@[simp] theorem State.writeSreg_gpr (r : Sreg) (v : Half) :
    (s.writeSreg r v).gpr = s.gpr := rfl

@[simp] theorem State.writeSreg_sreg (r : Sreg) (v : Half) :
    (s.writeSreg r v).sreg = s.sreg.set r ((s.sreg.get r).write Config.sregWriteUpper v) := rfl

@[simp] theorem State.writeSreg_eip (r : Sreg) (v : Half) :
    (s.writeSreg r v).eip = s.eip := rfl

@[simp] theorem State.writeSreg_eflags (r : Sreg) (v : Half) :
    (s.writeSreg r v).eflags = s.eflags := rfl

@[simp] theorem State.writeSreg_mode (r : Sreg) (v : Half) :
    (s.writeSreg r v).mode = s.mode := rfl

@[simp] theorem State.writeSreg_opsz (r : Sreg) (v : Half) :
    (s.writeSreg r v).opsz = s.opsz := rfl

@[simp] theorem State.writeSreg_adsz (r : Sreg) (v : Half) :
    (s.writeSreg r v).adsz = s.adsz := rfl

@[simp] theorem State.writeSreg_status (r : Sreg) (v : Half) :
    (s.writeSreg r v).status = s.status := rfl

@[simp] theorem State.writeSreg_mem (r : Sreg) (v : Half) :
    (s.writeSreg r v).mem = s.mem := rfl

/-! ### clearPrefixes -/

@[simp] theorem State.clearPrefixes_gpr :
    (s.clearPrefixes).gpr = s.gpr := rfl

@[simp] theorem State.clearPrefixes_sreg :
    (s.clearPrefixes).sreg = s.sreg := rfl

@[simp] theorem State.clearPrefixes_eip :
    (s.clearPrefixes).eip = s.eip := rfl

@[simp] theorem State.clearPrefixes_eflags :
    (s.clearPrefixes).eflags = s.eflags := rfl

@[simp] theorem State.clearPrefixes_mode :
    (s.clearPrefixes).mode = s.mode := rfl

@[simp] theorem State.clearPrefixes_opsz :
    (s.clearPrefixes).opsz = false := rfl

@[simp] theorem State.clearPrefixes_adsz :
    (s.clearPrefixes).adsz = false := rfl

@[simp] theorem State.clearPrefixes_status :
    (s.clearPrefixes).status = s.status := rfl

@[simp] theorem State.clearPrefixes_mem :
    (s.clearPrefixes).mem = s.mem := rfl

/-! ### applyPrefix -/

@[simp] theorem State.applyPrefix_gpr (p : PrefixByte) :
    (s.applyPrefix p).gpr = s.gpr := by cases p <;> rfl

@[simp] theorem State.applyPrefix_sreg (p : PrefixByte) :
    (s.applyPrefix p).sreg = s.sreg := by cases p <;> rfl

@[simp] theorem State.applyPrefix_eip (p : PrefixByte) :
    (s.applyPrefix p).eip = s.eip := by cases p <;> rfl

@[simp] theorem State.applyPrefix_eflags (p : PrefixByte) :
    (s.applyPrefix p).eflags = s.eflags := by cases p <;> rfl

@[simp] theorem State.applyPrefix_mode (p : PrefixByte) :
    (s.applyPrefix p).mode = s.mode := by cases p <;> rfl

@[simp] theorem State.applyPrefix_opsz (p : PrefixByte) :
    (s.applyPrefix p).opsz = (p == .operandSize || s.opsz) := by cases p <;> rfl

@[simp] theorem State.applyPrefix_adsz (p : PrefixByte) :
    (s.applyPrefix p).adsz = (p == .addressSize || s.adsz) := by cases p <;> rfl

@[simp] theorem State.applyPrefix_status (p : PrefixByte) :
    (s.applyPrefix p).status = s.status := by cases p <;> rfl

@[simp] theorem State.applyPrefix_mem (p : PrefixByte) :
    (s.applyPrefix p).mem = s.mem := by cases p <;> rfl

/-! ### advanceEip -/

@[simp] theorem State.advanceEip_gpr (n : Nat) :
    (s.advanceEip n).gpr = s.gpr := rfl

@[simp] theorem State.advanceEip_sreg (n : Nat) :
    (s.advanceEip n).sreg = s.sreg := rfl

@[simp] theorem State.advanceEip_eip (n : Nat) :
    (s.advanceEip n).eip = s.eip + BitVec.ofNat 32 n := rfl

@[simp] theorem State.advanceEip_eflags (n : Nat) :
    (s.advanceEip n).eflags = s.eflags := rfl

@[simp] theorem State.advanceEip_mode (n : Nat) :
    (s.advanceEip n).mode = s.mode := rfl

@[simp] theorem State.advanceEip_opsz (n : Nat) :
    (s.advanceEip n).opsz = s.opsz := rfl

@[simp] theorem State.advanceEip_adsz (n : Nat) :
    (s.advanceEip n).adsz = s.adsz := rfl

@[simp] theorem State.advanceEip_status (n : Nat) :
    (s.advanceEip n).status = s.status := rfl

@[simp] theorem State.advanceEip_mem (n : Nat) :
    (s.advanceEip n).mem = s.mem := rfl

/-! ### setStatus -/

@[simp] theorem State.setStatus_gpr (st : Status) :
    (s.setStatus st).gpr = s.gpr := rfl

@[simp] theorem State.setStatus_sreg (st : Status) :
    (s.setStatus st).sreg = s.sreg := rfl

@[simp] theorem State.setStatus_eip (st : Status) :
    (s.setStatus st).eip = s.eip := rfl

@[simp] theorem State.setStatus_eflags (st : Status) :
    (s.setStatus st).eflags = s.eflags := rfl

@[simp] theorem State.setStatus_mode (st : Status) :
    (s.setStatus st).mode = s.mode := rfl

@[simp] theorem State.setStatus_opsz (st : Status) :
    (s.setStatus st).opsz = s.opsz := rfl

@[simp] theorem State.setStatus_adsz (st : Status) :
    (s.setStatus st).adsz = s.adsz := rfl

@[simp] theorem State.setStatus_status (st : Status) :
    (s.setStatus st).status = st := rfl

@[simp] theorem State.setStatus_mem (st : Status) :
    (s.setStatus st).mem = s.mem := rfl

/-! ### physWrite -/

@[simp] theorem State.physWrite_gpr (p : Phys) (b : Byte) :
    (s.physWrite p b).gpr = s.gpr := rfl

@[simp] theorem State.physWrite_sreg (p : Phys) (b : Byte) :
    (s.physWrite p b).sreg = s.sreg := rfl

@[simp] theorem State.physWrite_eip (p : Phys) (b : Byte) :
    (s.physWrite p b).eip = s.eip := rfl

@[simp] theorem State.physWrite_eflags (p : Phys) (b : Byte) :
    (s.physWrite p b).eflags = s.eflags := rfl

@[simp] theorem State.physWrite_mode (p : Phys) (b : Byte) :
    (s.physWrite p b).mode = s.mode := rfl

@[simp] theorem State.physWrite_opsz (p : Phys) (b : Byte) :
    (s.physWrite p b).opsz = s.opsz := rfl

@[simp] theorem State.physWrite_adsz (p : Phys) (b : Byte) :
    (s.physWrite p b).adsz = s.adsz := rfl

@[simp] theorem State.physWrite_status (p : Phys) (b : Byte) :
    (s.physWrite p b).status = s.status := rfl

@[simp] theorem State.physWrite_mem (p : Phys) (b : Byte) :
    (s.physWrite p b).mem = Memory.write s.mem p.toNat b := rfl

/-! ### The register file -/

@[simp] theorem Gprs.get_set_self (g : Gprs) (r : Reg) (v : Word) : (g.set r v).get r = v := by
  cases r <;> rfl

theorem Gprs.get_set_of_ne (g : Gprs) {r r' : Reg} (v : Word) (h : r' ≠ r) :
    (g.set r v).get r' = g.get r' := by
  cases r <;> cases r' <;> first | rfl | exact absurd rfl h

@[simp] theorem Sregs.get_set_self (g : Sregs) (r : Sreg) (v : SegReg) : (g.set r v).get r = v := by
  cases r <;> rfl

theorem Sregs.get_set_of_ne (g : Sregs) {r r' : Sreg} (v : SegReg) (h : r' ≠ r) :
    (g.set r v).get r' = g.get r' := by
  cases r <;> cases r' <;> first | rfl | exact absurd rfl h

theorem Gprs.ext_get {g g' : Gprs} (h : ∀ r, g.get r = g'.get r) : g = g' := by
  cases g; cases g'
  have h0 := h .eax; have h1 := h .ecx; have h2 := h .edx; have h3 := h .ebx
  have h4 := h .esp; have h5 := h .ebp; have h6 := h .esi; have h7 := h .edi
  simp only [Gprs.get] at h0 h1 h2 h3 h4 h5 h6 h7
  simp only [h0, h1, h2, h3, h4, h5, h6, h7]

@[simp] theorem State.gpr32_setGpr32_self (r : Reg) (v : Word) : (s.setGpr32 r v).gpr32 r = v := by
  simp [State.gpr32]

theorem State.gpr32_setGpr32_of_ne {r r' : Reg} (v : Word) (h : r' ≠ r) :
    (s.setGpr32 r v).gpr32 r' = s.gpr32 r' := by
  simp [State.gpr32, Gprs.get_set_of_ne _ _ h]

/-- A 16-bit write leaves every other register alone. -/
theorem State.gpr32_setGpr16_of_ne {r r' : Reg} (v : Half) (h : r' ≠ r) :
    (s.setGpr16 r v).gpr32 r' = s.gpr32 r' := s.gpr32_setGpr32_of_ne _ h

@[simp] theorem State.gpr32_setGpr16_self (r : Reg) (v : Half) :
    (s.setGpr16 r v).gpr32 r = (s.gpr32 r).extractLsb' 16 16 ++ v := s.gpr32_setGpr32_self r _

/-- The halves of an appended 32-bit value. -/
theorem extractLow_append (a b : Half) : (a ++ b : Word).extractLsb' 0 16 = b := by
  ext i hi
  rw [BitVec.getElem_extractLsb', BitVec.getLsbD_append]
  simp [hi, BitVec.getLsbD_eq_getElem]

theorem extractHigh_append (a b : Half) : (a ++ b : Word).extractLsb' 16 16 = a := by
  ext i hi
  rw [BitVec.getElem_extractLsb', BitVec.getLsbD_append]
  simp [hi, BitVec.getLsbD_eq_getElem]

@[simp] theorem State.gpr16_setGpr16_self (r : Reg) (v : Half) : (s.setGpr16 r v).gpr16 r = v := by
  simp [State.gpr16, extractLow_append]

/-- An 8-bit write leaves every register but its parent alone (10_state.md R25). -/
theorem State.gpr32_setGpr8_of_ne {r : Reg8} {r' : Reg} (v : Byte) (h : r' ≠ Reg8.parent r) :
    (s.setGpr8 r v).gpr32 r' = s.gpr32 r' := by
  unfold State.setGpr8
  split <;> exact s.gpr32_setGpr32_of_ne _ h

end Sys2Proof.Machine
end

