-- ==== Sys2Proof/Laws/Ops.lean ====
section
/-! SUPPORT. What the shared memory operations can do (20_memory.md R50 to R59): one lemma for each, cited in
place of the definition. -/

namespace Sys2Proof.Machine

/-! ### Translation -/

/-- The address of byte `k` is `k` after the address of byte 0, modulo 2^20 (20_memory.md R53). -/
theorem realAddress_add (seg : Half) (off : Word) (k : Nat) :
    realAddress seg (off + BitVec.ofNat 32 k) = realAddress seg off + BitVec.ofNat 20 k := by
  apply BitVec.eq_of_toNat_eq
  simp only [realAddress, BitVec.toNat_ofNat, BitVec.toNat_add]
  omega

/-- The bytes of one access are distinct (fewer than 2^20 of them). -/
theorem realAddress_add_ne (seg : Half) (off : Word) {j k : Nat} (hj : j < 1048576) (hk : k < 1048576)
    (h : j ≠ k) : realAddress seg (off + BitVec.ofNat 32 j) ≠ realAddress seg (off + BitVec.ofNat 32 k) := by
  intro e
  rw [realAddress_add, realAddress_add] at e
  have e' := congrArg BitVec.toNat e
  simp only [BitVec.toNat_ofNat, BitVec.toNat_add] at e'
  omega

/-- In Real mode every translation succeeds (20_memory.md R51). -/
theorem State.byteAddress_real {s : State} (h : s.mode = .real) (seg : Half) (off : Word) (k : Nat) :
    s.byteAddress seg off k = .ok (realAddress seg (off + BitVec.ofNat 32 k)) := by
  simp [State.byteAddress, translateAddress, h]

/-- In every other mode it raises UnimplementedMode (20_memory.md R62). -/
theorem State.byteAddress_not_real {s : State} (h : s.mode ≠ .real) (seg : Half) (off : Word) (k : Nat) :
    s.byteAddress seg off k = .error (.unimplementedMode s.mode) := by
  cases hm : s.mode <;> simp_all [State.byteAddress, translateAddress]

/-! ### Reads -/

theorem State.readByte_real {s : State} (h : s.mode = .real) (seg : Half) (off : Word) (k : Nat) :
    s.readByte seg off k = .ok (s.physRead (realAddress seg (off + BitVec.ofNat 32 k))) := by
  simp [State.readByte, State.byteAddress_real h, Except.map]

theorem State.readByte_not_real {s : State} (h : s.mode ≠ .real) (seg : Half) (off : Word) (k : Nat) :
    s.readByte seg off k = .error (.unimplementedMode s.mode) := by
  simp [State.readByte, State.byteAddress_not_real h, Except.map]

theorem State.readU8_real {s : State} (h : s.mode = .real) (seg : Half) (off : Word) :
    s.readU8 seg off = .ok (s.physRead (realAddress seg (off + BitVec.ofNat 32 0))) :=
  State.readByte_real h seg off 0

theorem State.readU16_real {s : State} (h : s.mode = .real) (seg : Half) (off : Word) :
    s.readU16 seg off = .ok (le16 (s.physRead (realAddress seg (off + BitVec.ofNat 32 0)))
      (s.physRead (realAddress seg (off + BitVec.ofNat 32 1)))) := by
  simp only [State.readU16, State.readByte_real h]
  rfl

theorem State.readU32_real {s : State} (h : s.mode = .real) (seg : Half) (off : Word) :
    s.readU32 seg off = .ok (le32 (s.physRead (realAddress seg (off + BitVec.ofNat 32 0)))
      (s.physRead (realAddress seg (off + BitVec.ofNat 32 1)))
      (s.physRead (realAddress seg (off + BitVec.ofNat 32 2)))
      (s.physRead (realAddress seg (off + BitVec.ofNat 32 3)))) := by
  simp only [State.readU32, State.readByte_real h]
  rfl

theorem State.readU8_not_real {s : State} (h : s.mode ≠ .real) (seg : Half) (off : Word) :
    s.readU8 seg off = .error (.unimplementedMode s.mode) := State.readByte_not_real h seg off 0

theorem State.readU16_not_real {s : State} (h : s.mode ≠ .real) (seg : Half) (off : Word) :
    s.readU16 seg off = .error (.unimplementedMode s.mode) := by
  simp only [State.readU16, State.readByte_not_real h]
  rfl

theorem State.readU32_not_real {s : State} (h : s.mode ≠ .real) (seg : Half) (off : Word) :
    s.readU32 seg off = .error (.unimplementedMode s.mode) := by
  simp only [State.readU32, State.readByte_not_real h]
  rfl

/-- Outside Real mode no read of operand width succeeds. -/
theorem State.readOw_not_real {s : State} (h : s.mode ≠ .real) (w : OpWidth) (seg : Half) (off : Word) :
    s.readOw w seg off = .error (.unimplementedMode s.mode) := by
  cases w <;> simp [State.readOw, State.readU16_not_real h, State.readU32_not_real h, Except.map]

/-! ### Writes -/

/-- All that a Real-mode write of bytes does: it changes the store only, keeps its canonical form, and
leaves every other byte alone. -/
theorem State.writeBytes_real {s : State} (h : s.mode = .real) (seg : Half) (off : Word) (k : Nat)
    (bs : List Byte) : ∃ m, s.writeBytes seg off k bs = .ok { s with mem := m } ∧
      (Memory.wf s.mem = true → Memory.wf m = true) ∧
      (∀ a, (∀ j, j < bs.length → a ≠ (realAddress seg (off + BitVec.ofNat 32 (k + j))).toNat) →
        Memory.read m a = Memory.read s.mem a) := by
  induction bs generalizing s k with
  | nil => exact ⟨s.mem, rfl, id, fun _ _ => rfl⟩
  | cons b bs ih =>
    have h' : (s.physWrite (realAddress seg (off + BitVec.ofNat 32 k)) b).mode = .real := by simp [h]
    obtain ⟨m, hm, hwf, hfr⟩ := ih h' (k + 1)
    refine ⟨m, ?_, fun hs => hwf (s.physWrite_wf _ b hs), ?_⟩
    · simp only [State.writeBytes, State.byteAddress_real h]
      rw [hm]
      rfl
    · intro a ha
      rw [hfr a]
      · exact Memory.read_write_of_ne _ b (by simpa using ha 0 (by simp))
      · intro j hj
        have := ha (j + 1) (by simpa using hj)
        rwa [show k + (j + 1) = k + 1 + j by omega] at this

/-- The bytes of a Real-mode write are read back, whatever stood there. -/
theorem State.writeBytes_stored {s t : State} (h : s.mode = .real) (hwf : Memory.wf s.mem = true)
    (seg : Half) (off : Word) (k : Nat) (bs : List Byte) (hlen : k + bs.length ≤ 1048576)
    (ht : s.writeBytes seg off k bs = .ok t) (j : Nat) (hj : j < bs.length) :
    t.physRead (realAddress seg (off + BitVec.ofNat 32 (k + j))) = bs[j] := by
  induction bs generalizing s k j with
  | nil => simp at hj
  | cons b bs ih =>
    have h' : (s.physWrite (realAddress seg (off + BitVec.ofNat 32 k)) b).mode = .real := by simp [h]
    simp only [State.writeBytes, State.byteAddress_real h] at ht
    simp only [List.length_cons] at hlen hj
    cases j with
    | zero =>
      obtain ⟨m, hm, -, hfr⟩ := State.writeBytes_real h' seg off (k + 1) bs
      rw [hm] at ht
      obtain rfl := Except.ok.inj ht
      simp only [State.physRead, List.getElem_cons_zero]
      rw [hfr]
      · exact Memory.read_write_self _ _ _ 0 hwf
      · intro j hj' e
        exact realAddress_add_ne seg off (by omega) (by omega) (by omega) (BitVec.eq_of_toNat_eq e)
    | succ j =>
      have := ih h' (s.physWrite_wf _ b hwf) (k + 1) (by omega) ht j (by omega)
      rwa [show k + 1 + j = k + (j + 1) by omega] at this

/-- Outside Real mode a write of at least one byte raises UnimplementedMode and writes nothing. -/
theorem State.writeBytes_not_real {s : State} (h : s.mode ≠ .real) (seg : Half) (off : Word) (k : Nat)
    (b : Byte) (bs : List Byte) :
    s.writeBytes seg off k (b :: bs) = .error (.unimplementedMode s.mode) := by
  simp [State.writeBytes, State.byteAddress_not_real h]

/-- A write changes the store only, in every mode in which it succeeds. -/
theorem State.writeBytes_eq {s t : State} {seg : Half} {off : Word} {k : Nat} {bs : List Byte}
    (ht : s.writeBytes seg off k bs = .ok t) : ∃ m, t = { s with mem := m } := by
  induction bs generalizing s k with
  | nil => exact ⟨s.mem, (Except.ok.inj ht).symm⟩
  | cons b bs ih =>
    simp only [State.writeBytes] at ht
    split at ht
    · obtain ⟨m, rfl⟩ := ih ht
      exact ⟨m, rfl⟩
    · cases ht

theorem State.writeBytes_wf {s t : State} {seg : Half} {off : Word} {k : Nat} {bs : List Byte}
    (ht : s.writeBytes seg off k bs = .ok t) (hs : Memory.wf s.mem = true) : Memory.wf t.mem = true := by
  induction bs generalizing s k with
  | nil => obtain rfl := Except.ok.inj ht; exact hs
  | cons b bs ih =>
    simp only [State.writeBytes] at ht
    split at ht
    · exact ih ht (s.physWrite_wf _ b hs)
    · cases ht

/-- The bytes of a value in store order. -/
def Val.toBytes : Val → List Byte
  | .v16 v => bytes16 v
  | .v32 v => bytes32 v

@[simp] theorem Val.toBytes_length (v : Val) : (Val.toBytes v).length = Val.bytes v := by
  cases v <;> rfl

/-- A write of operand width is a write of the value's bytes. -/
theorem State.writeOw_eq (s : State) (seg : Half) (off : Word) (v : Val) :
    s.writeOw seg off v = s.writeBytes seg off 0 (Val.toBytes v) := by
  cases v <;> rfl

/-! ### Operands and the push -/

/-- What `RM_write(8, v)` can do. -/
theorem State.writeRm8_cases {s t : State} {v : Byte} {dst : Rm Reg8} (ht : s.writeRm8 v dst = .ok t) :
    (∃ r, dst = .reg r ∧ t = s.setGpr8 r v) ∨
    (∃ m, dst = .mem m ∧ s.writeBytes (s.segOf m) (s.offset m) 0 [v] = .ok t) := by
  cases dst with
  | reg r => exact .inl ⟨r, rfl, (Except.ok.inj ht).symm⟩
  | mem m => exact .inr ⟨m, rfl, ht⟩

/-- What `RM_write(OW, v)` can do. -/
theorem State.writeRmOw_cases {s t : State} {v : Val} {dst : Rm Reg} (ht : s.writeRmOw v dst = .ok t) :
    (∃ r, dst = .reg r ∧ t = s.setGprOw r v) ∨
    (∃ m, dst = .mem m ∧ s.writeBytes (s.segOf m) (s.offset m) 0 (Val.toBytes v) = .ok t) := by
  cases dst with
  | reg r => exact .inl ⟨r, rfl, (Except.ok.inj ht).symm⟩
  | mem m => exact .inr ⟨m, rfl, by rw [← State.writeOw_eq]; exact ht⟩

/-- What a push can do: SP is lowered, and the value's bytes are written at SS and the new SP. -/
theorem State.push_eq (s : State) (v : Val) :
    s.push v = (s.setGpr16 .esp (s.pushedSp v)).writeBytes (s.sreg16 .ss)
      ((s.pushedSp v).setWidth 32) 0 (Val.toBytes v) := by
  rw [← State.writeOw_eq]
  rfl

end Sys2Proof.Machine
end

