-- ==== Sys2Proof/Laws/PerInstr.lean ====
section
/-! SUPPORT. Statements about every instruction as syntax, one lemma for each constructor. -/

namespace Sys2Proof

/-- A memory operand takes a ModRM byte, at most a SIB byte and at most four displacement bytes
(30_encoding.md R71). -/
theorem encodeMem_length (reg : BitVec 3) (m : MemOp) :
    1 ≤ (encodeMem reg m).length ∧ (encodeMem reg m).length ≤ 6 := by
  rcases m with m | m <;> cases m <;> simp [encodeMem, bytes16, bytes32]

theorem encodeRm_length {ρ : Type} (indexOf : ρ → BitVec 3) (reg : BitVec 3) (x : Rm ρ) :
    1 ≤ (encodeRm indexOf reg x).length ∧ (encodeRm indexOf reg x).length ≤ 6 := by
  cases x with
  | reg r => simp [encodeRm]
  | mem m => exact encodeMem_length reg m

theorem encodeVal_length (v : Val) : 1 ≤ (encodeVal v).length ∧ (encodeVal v).length ≤ 4 := by
  cases v <;> simp [encodeVal, bytes16, bytes32]

theorem encodeMoffs_length (o : Moffs) : 1 ≤ (encodeMoffs o).length ∧ (encodeMoffs o).length ≤ 4 := by
  cases o <;> simp [encodeMoffs, bytes16, bytes32]

/-- An instruction has at least one byte and at most `Config.maxBody` (30_encoding.md R71). -/
def Laws.EncodedLength.Statement (i : Instr) : Prop :=
  1 ≤ (encode i).length ∧ (encode i).length ≤ Config.maxBody

theorem Laws.EncodedLength.prefixOperandSize :
    Laws.EncodedLength.Statement .prefixOperandSize := by
  simp [Laws.EncodedLength.Statement, encode, Config.maxBody]

theorem Laws.EncodedLength.prefixAddressSize :
    Laws.EncodedLength.Statement .prefixAddressSize := by
  simp [Laws.EncodedLength.Statement, encode, Config.maxBody]

theorem Laws.EncodedLength.halt :
    Laws.EncodedLength.Statement .halt := by
  simp [Laws.EncodedLength.Statement, encode, Config.maxBody]

theorem Laws.EncodedLength.movRm8R8 (dst : Rm Reg8) (src : Reg8) :
    Laws.EncodedLength.Statement (.movRm8R8 dst src) := by
  have h0 := encodeRm_length Reg8.index src.index dst
  simp only [Laws.EncodedLength.Statement, encode, Config.maxBody, List.length_cons]
  omega

theorem Laws.EncodedLength.movRmR (w : OpWidth) (dst : Rm Reg) (src : Reg) :
    Laws.EncodedLength.Statement (.movRmR w dst src) := by
  have h0 := encodeRm_length Reg.index src.index dst
  simp only [Laws.EncodedLength.Statement, encode, Config.maxBody, List.length_cons]
  omega

theorem Laws.EncodedLength.movR8Rm8 (dst : Reg8) (src : Rm Reg8) :
    Laws.EncodedLength.Statement (.movR8Rm8 dst src) := by
  have h0 := encodeRm_length Reg8.index dst.index src
  simp only [Laws.EncodedLength.Statement, encode, Config.maxBody, List.length_cons]
  omega

theorem Laws.EncodedLength.movRRm (w : OpWidth) (dst : Reg) (src : Rm Reg) :
    Laws.EncodedLength.Statement (.movRRm w dst src) := by
  have h0 := encodeRm_length Reg.index dst.index src
  simp only [Laws.EncodedLength.Statement, encode, Config.maxBody, List.length_cons]
  omega

theorem Laws.EncodedLength.movRm16Sreg (dst : Rm Reg) (src : Sreg) :
    Laws.EncodedLength.Statement (.movRm16Sreg dst src) := by
  have h0 := encodeRm_length Reg.index src.index dst
  simp only [Laws.EncodedLength.Statement, encode, Config.maxBody, List.length_cons]
  omega

theorem Laws.EncodedLength.movSregRm16 (dst : SregDst) (src : Rm Reg) :
    Laws.EncodedLength.Statement (.movSregRm16 dst src) := by
  have h0 := encodeRm_length Reg.index dst.toSreg.index src
  simp only [Laws.EncodedLength.Statement, encode, Config.maxBody, List.length_cons]
  omega

theorem Laws.EncodedLength.movAlMoffs (src : Moffs) :
    Laws.EncodedLength.Statement (.movAlMoffs src) := by
  have h0 := encodeMoffs_length src
  simp only [Laws.EncodedLength.Statement, encode, Config.maxBody, List.length_cons]
  omega

theorem Laws.EncodedLength.movAxMoffs (w : OpWidth) (src : Moffs) :
    Laws.EncodedLength.Statement (.movAxMoffs w src) := by
  have h0 := encodeMoffs_length src
  simp only [Laws.EncodedLength.Statement, encode, Config.maxBody, List.length_cons]
  omega

theorem Laws.EncodedLength.movMoffsAl (dst : Moffs) :
    Laws.EncodedLength.Statement (.movMoffsAl dst) := by
  have h0 := encodeMoffs_length dst
  simp only [Laws.EncodedLength.Statement, encode, Config.maxBody, List.length_cons]
  omega

theorem Laws.EncodedLength.movMoffsAx (w : OpWidth) (dst : Moffs) :
    Laws.EncodedLength.Statement (.movMoffsAx w dst) := by
  have h0 := encodeMoffs_length dst
  simp only [Laws.EncodedLength.Statement, encode, Config.maxBody, List.length_cons]
  omega

theorem Laws.EncodedLength.movR8Imm (dst : Reg8) (imm : Byte) :
    Laws.EncodedLength.Statement (.movR8Imm dst imm) := by
  simp [Laws.EncodedLength.Statement, encode, Config.maxBody]

theorem Laws.EncodedLength.movRImm (dst : Reg) (imm : Val) :
    Laws.EncodedLength.Statement (.movRImm dst imm) := by
  have h0 := encodeVal_length imm
  simp only [Laws.EncodedLength.Statement, encode, Config.maxBody, List.length_cons]
  omega

theorem Laws.EncodedLength.movRm8Imm (dst : Rm Reg8) (imm : Byte) :
    Laws.EncodedLength.Statement (.movRm8Imm dst imm) := by
  have h0 := encodeRm_length Reg8.index 0 dst
  simp only [Laws.EncodedLength.Statement, encode, Config.maxBody, List.length_cons, List.length_append, List.length_nil]
  omega

theorem Laws.EncodedLength.movRmImm (dst : Rm Reg) (imm : Val) :
    Laws.EncodedLength.Statement (.movRmImm dst imm) := by
  have h0 := encodeRm_length Reg.index 0 dst
  have h1 := encodeVal_length imm
  simp only [Laws.EncodedLength.Statement, encode, Config.maxBody, List.length_cons, List.length_append]
  omega

theorem Laws.EncodedLength.pushRm (w : OpWidth) (src : Rm Reg) :
    Laws.EncodedLength.Statement (.pushRm w src) := by
  have h0 := encodeRm_length Reg.index 6 src
  simp only [Laws.EncodedLength.Statement, encode, Config.maxBody, List.length_cons]
  omega

theorem Laws.EncodedLength.invalidC6 (m : ModRm) :
    Laws.EncodedLength.Statement (.invalidC6 m) := by
  simp [Laws.EncodedLength.Statement, encode, Config.maxBody]

theorem Laws.EncodedLength.invalidC7 (m : ModRm) :
    Laws.EncodedLength.Statement (.invalidC7 m) := by
  simp [Laws.EncodedLength.Statement, encode, Config.maxBody]

theorem Laws.EncodedLength.invalidFF (m : ModRm) :
    Laws.EncodedLength.Statement (.invalidFF m) := by
  simp [Laws.EncodedLength.Statement, encode, Config.maxBody]

theorem Laws.EncodedLength.invalid8ECs (m : ModRm) :
    Laws.EncodedLength.Statement (.invalid8ECs m) := by
  simp [Laws.EncodedLength.Statement, encode, Config.maxBody]

theorem Laws.EncodedLength.invalid8EReg (m : ModRm) :
    Laws.EncodedLength.Statement (.invalid8EReg m) := by
  simp [Laws.EncodedLength.Statement, encode, Config.maxBody]

theorem Laws.EncodedLength.invalid8CReg (m : ModRm) :
    Laws.EncodedLength.Statement (.invalid8CReg m) := by
  simp [Laws.EncodedLength.Statement, encode, Config.maxBody]

theorem Laws.EncodedLength.unknown (op : Byte) :
    Laws.EncodedLength.Statement (.unknown op) := by
  simp [Laws.EncodedLength.Statement, encode, Config.maxBody]

end Sys2Proof
end

