-- ==== Sys2Proof/Laws/Step.lean ====
section
/-! SUPPORT. What an instruction and a step can do: the inversion lemmas every invariant is proved from. -/

namespace Sys2Proof.Machine

/-! ### Completion -/

@[simp] theorem complete_ok (pre t : State) : complete pre (.ok t) = .next t := rfl

@[simp] theorem complete_error (pre : State) (f : FaultInfo) :
    complete pre (.error f) = .next (takeFault pre f) := rfl

/-- A meaning always answers a next state: its result, or the fault it raised. -/
theorem complete_next (pre : State) (x : Except FaultInfo State) : ∃ t, complete pre x = .next t := by
  cases x <;> exact ⟨_, rfl⟩

theorem complete_cases {pre t : State} {x : Except FaultInfo State} (h : complete pre x = .next t) :
    x = .ok t ∨ ∃ f, x = .error f ∧ t = takeFault pre f := by
  cases x with
  | ok u => exact .inl (by injection h with h; rw [h])
  | error f => exact .inr ⟨f, rfl, by injection h with h; exact h.symm⟩

theorem except_map_ok {α β : Type} {f : α → β} {x : Except FaultInfo α} {y : β} (h : x.map f = .ok y) :
    ∃ v, x = .ok v ∧ y = f v := by
  cases x with
  | ok v => exact ⟨v, rfl, by injection h with h; exact h.symm⟩
  | error e => cases h

theorem except_bind_ok {α β : Type} {f : α → Except FaultInfo β} {x : Except FaultInfo α} {y : β}
    (h : x.bind f = .ok y) : ∃ v, x = .ok v ∧ f v = .ok y := by
  cases x with
  | ok v => exact ⟨v, rfl, h⟩
  | error e => cases h

theorem except_map_error {α β : Type} {f : α → β} {x : Except FaultInfo α} {e : FaultInfo}
    (h : x.map f = .error e) : x = .error e := by
  cases x with
  | ok v => cases h
  | error e' => injection h with h; rw [h]

theorem except_bind_error {α β : Type} {f : α → Except FaultInfo β} {x : Except FaultInfo α} {e : FaultInfo}
    (h : x.bind f = .error e) : x = .error e ∨ ∃ v, x = .ok v ∧ f v = .error e := by
  cases x with
  | ok v => exact .inr ⟨v, rfl, h⟩
  | error e' => injection h with h; exact .inl (by rw [h])

/-- `exec` answers a next state for every instruction in every state. -/
theorem exec_next (i : Instr) (s : State) : ∃ t, exec i s = .next t := by
  cases i <;> first | exact complete_next _ _ | exact ⟨_, rfl⟩

/-! ### The effects an instruction can have -/

/-- What `exec` can do to a state, one case for each kind of effect. -/
inductive Effect (s : State) : Instr → State → Prop where
  /-- A prefix sets its flag. -/
  | prefixFlag (p : PrefixByte) : Effect s p.row (s.applyPrefix p)
  /-- The sentinel sets the status. -/
  | halt : Effect s .halt (s.setStatus .halted)
  /-- Registers and memory change, the store keeping its canonical form. -/
  | move {i : Instr} (g : Gprs) (m : Memory) (hp : i.isPrefix = false) (hh : i ≠ .halt)
      (hf : Instr.faults i = false) (h : Memory.wf s.mem = true → Memory.wf m = true) :
      Effect s i { s with gpr := g, mem := m }
  /-- A segment register other than CS is written. -/
  | segment (d : SregDst) (x : Rm Reg) (v : Half) : Effect s (.movSregRm16 d x) (s.writeSreg d.toSreg v)
  /-- A memory access outside Real mode. -/
  | trap {i : Instr} (hp : i.isPrefix = false) (h : s.mode ≠ .real) :
      Effect s i (takeFault s (.unimplementedMode s.mode))
  /-- An invalid encoding. -/
  | invalid {i : Instr} (op : Byte) (reg : BitVec 3) (hp : i.isPrefix = false) (hf : Instr.faults i = true)
      (hwf : ∀ aw ow, i.wf aw ow = true → invalidEncoding op reg = true) :
      Effect s i (takeFault s (.invalidOpcode op reg))
  /-- An unmapped opcode. -/
  | unknown (op : Byte) : Effect s (.unknown op) (takeFault s (.unknownOpcode op))

theorem State.setGpr8_eq (s : State) (r : Reg8) (v : Byte) : ∃ g, s.setGpr8 r v = { s with gpr := g } := by
  unfold State.setGpr8
  split <;> exact ⟨_, rfl⟩

theorem State.setGprOw_eq (s : State) (r : Reg) (v : Val) : ∃ g, s.setGprOw r v = { s with gpr := g } := by
  cases v <;> exact ⟨_, rfl⟩

/-- A read fails only outside Real mode, and then with UnimplementedMode. -/
theorem State.readU8_error {s : State} {seg : Half} {off : Word} {f : FaultInfo}
    (h : s.readU8 seg off = .error f) : s.mode ≠ .real ∧ f = .unimplementedMode s.mode := by
  by_cases hm : s.mode = .real
  · rw [State.readU8_real hm] at h; cases h
  · rw [State.readU8_not_real hm] at h; cases h; exact ⟨hm, rfl⟩

theorem State.readOw_error {s : State} {w : OpWidth} {seg : Half} {off : Word} {f : FaultInfo}
    (h : s.readOw w seg off = .error f) : s.mode ≠ .real ∧ f = .unimplementedMode s.mode := by
  by_cases hm : s.mode = .real
  · cases w
    · rw [State.readOw, State.readU16_real hm] at h; cases h
    · rw [State.readOw, State.readU32_real hm] at h; cases h
  · rw [State.readOw_not_real hm] at h; cases h; exact ⟨hm, rfl⟩

theorem State.writeBytes_error {s : State} {seg : Half} {off : Word} {k : Nat} {bs : List Byte} {f : FaultInfo}
    (h : s.writeBytes seg off k bs = .error f) : s.mode ≠ .real ∧ f = .unimplementedMode s.mode := by
  by_cases hm : s.mode = .real
  · obtain ⟨m, hm, -⟩ := State.writeBytes_real hm seg off k bs
    rw [hm] at h; cases h
  · cases bs with
    | nil => cases h
    | cons b bs => rw [State.writeBytes_not_real hm] at h; cases h; exact ⟨hm, rfl⟩

/-- A store to an r/m operand or to memory is a `move` or, outside Real mode, a `trap`. -/
theorem Effect.of_writeBytes {s t : State} {i : Instr} {seg : Half} {off : Word} {bs : List Byte}
    (hp : i.isPrefix = false) (hh : i ≠ .halt) (hf : Instr.faults i = false)
    (h : complete s (s.writeBytes seg off 0 bs) = .next t) : Effect s i t := by
  rcases complete_cases h with e | ⟨f, e, rfl⟩
  · obtain ⟨m, rfl⟩ := State.writeBytes_eq e
    exact .move s.gpr m hp hh hf (State.writeBytes_wf e)
  · obtain ⟨hm, rfl⟩ := State.writeBytes_error e
    exact .trap hp hm

theorem Effect.of_writeRm8 {s t : State} {i : Instr} {v : Byte} {dst : Rm Reg8}
    (hp : i.isPrefix = false) (hh : i ≠ .halt) (hf : Instr.faults i = false)
    (h : complete s (s.writeRm8 v dst) = .next t) : Effect s i t := by
  cases dst with
  | reg r =>
    obtain ⟨g, hg⟩ := s.setGpr8_eq r v
    injection h with h
    rw [← h, hg]
    exact .move g s.mem hp hh hf id
  | mem m => exact .of_writeBytes hp hh hf h

theorem Effect.of_writeOw {s t : State} {i : Instr} {seg : Half} {off : Word} {v : Val}
    (hp : i.isPrefix = false) (hh : i ≠ .halt) (hf : Instr.faults i = false)
    (h : complete s (s.writeOw seg off v) = .next t) : Effect s i t :=
  .of_writeBytes hp hh hf (by rwa [State.writeOw_eq] at h)

theorem Effect.of_writeRmOw {s t : State} {i : Instr} {v : Val} {dst : Rm Reg}
    (hp : i.isPrefix = false) (hh : i ≠ .halt) (hf : Instr.faults i = false)
    (h : complete s (s.writeRmOw v dst) = .next t) : Effect s i t := by
  cases dst with
  | reg r =>
    obtain ⟨g, hg⟩ := s.setGprOw_eq r v
    injection h with h
    rw [← h, hg]
    exact .move g s.mem hp hh hf id
  | mem m => exact .of_writeOw hp hh hf h

theorem Effect.of_load8 {s t : State} {i : Instr} {x : Except FaultInfo Byte} {dst : Reg8}
    (hp : i.isPrefix = false) (hh : i ≠ .halt) (hf : Instr.faults i = false)
    (hx : ∀ f, x = .error f → s.mode ≠ .real ∧ f = .unimplementedMode s.mode)
    (h : complete s (x.map (s.setGpr8 dst)) = .next t) : Effect s i t := by
  cases x with
  | ok v =>
    obtain ⟨g, hg⟩ := s.setGpr8_eq dst v
    injection h with h
    rw [← h, hg]
    exact .move g s.mem hp hh hf id
  | error f =>
    obtain ⟨hm, rfl⟩ := hx f rfl
    injection h with h
    rw [← h]
    exact .trap hp hm

theorem Effect.of_loadOw {s t : State} {i : Instr} {x : Except FaultInfo Val} {dst : Reg}
    (hp : i.isPrefix = false) (hh : i ≠ .halt) (hf : Instr.faults i = false)
    (hx : ∀ f, x = .error f → s.mode ≠ .real ∧ f = .unimplementedMode s.mode)
    (h : complete s (x.map (s.setGprOw dst)) = .next t) : Effect s i t := by
  cases x with
  | ok v =>
    obtain ⟨g, hg⟩ := s.setGprOw_eq dst v
    injection h with h
    rw [← h, hg]
    exact .move g s.mem hp hh hf id
  | error f =>
    obtain ⟨hm, rfl⟩ := hx f rfl
    injection h with h
    rw [← h]
    exact .trap hp hm

theorem State.readRm8_error {s : State} {x : Rm Reg8} {f : FaultInfo} (h : s.readRm8 x = .error f) :
    s.mode ≠ .real ∧ f = .unimplementedMode s.mode := by
  cases x with
  | reg r => cases h
  | mem m => exact State.readU8_error h

theorem State.readRmOw_error {s : State} {w : OpWidth} {x : Rm Reg} {f : FaultInfo}
    (h : s.readRmOw w x = .error f) : s.mode ≠ .real ∧ f = .unimplementedMode s.mode := by
  cases x with
  | reg r => cases h
  | mem m => exact State.readOw_error h

theorem State.readRm16_error {s : State} {x : Rm Reg} {f : FaultInfo} (h : s.readRm16 x = .error f) :
    s.mode ≠ .real ∧ f = .unimplementedMode s.mode := by
  cases x with
  | reg r => cases h
  | mem m =>
    by_cases hm : s.mode = .real
    · rw [State.readRm16, State.readU16_real hm] at h; cases h
    · rw [State.readRm16, State.readU16_not_real hm] at h; cases h; exact ⟨hm, rfl⟩

/-- The inversion of `exec`: every next state is one of the effects. -/
theorem exec_effect {i : Instr} {s t : State} (h : exec i s = .next t) : Effect s i t := by
  cases i with
  | prefixOperandSize => injection h with h; rw [← h]; exact .prefixFlag .operandSize
  | prefixAddressSize => injection h with h; rw [← h]; exact .prefixFlag .addressSize
  | halt => injection h with h; rw [← h]; exact .halt
  | movRm8R8 dst src => exact .of_writeRm8 rfl nofun rfl h
  | movRmR w dst src => exact .of_writeRmOw rfl nofun rfl h
  | movR8Rm8 dst src => exact .of_load8 rfl nofun rfl (fun _ => State.readRm8_error) h
  | movRRm w dst src => exact .of_loadOw rfl nofun rfl (fun _ => State.readRmOw_error) h
  | movRm16Sreg dst src => exact .of_writeRmOw rfl nofun rfl h
  | movSregRm16 dst src =>
    rcases complete_cases h with e | ⟨f, e, rfl⟩
    · obtain ⟨v, -, rfl⟩ := except_map_ok e
      exact .segment dst src v
    · obtain ⟨hm, rfl⟩ := State.readRm16_error (except_map_error e)
      exact .trap rfl hm
  | movAlMoffs src => exact .of_load8 rfl nofun rfl (fun _ => State.readU8_error) h
  | movAxMoffs w src => exact .of_loadOw rfl nofun rfl (fun _ => State.readOw_error) h
  | movMoffsAl dst => exact .of_writeBytes rfl nofun rfl h
  | movMoffsAx w dst => exact .of_writeOw rfl nofun rfl h
  | movR8Imm dst imm =>
    obtain ⟨g, hg⟩ := s.setGpr8_eq dst imm
    injection h with h
    rw [← h, hg]
    exact .move g s.mem rfl nofun rfl id
  | movRImm dst imm =>
    obtain ⟨g, hg⟩ := s.setGprOw_eq dst imm
    injection h with h
    rw [← h, hg]
    exact .move g s.mem rfl nofun rfl id
  | movRm8Imm dst imm => exact .of_writeRm8 rfl nofun rfl h
  | movRmImm dst imm => exact .of_writeRmOw rfl nofun rfl h
  | pushRm w src =>
    rcases complete_cases h with e | ⟨f, e, rfl⟩
    · obtain ⟨v, -, e⟩ := except_bind_ok e
      rw [State.push_eq] at e
      obtain ⟨m, rfl⟩ := State.writeBytes_eq e
      exact .move _ m rfl nofun rfl (State.writeBytes_wf e)
    · rcases except_bind_error e with e | ⟨v, -, e⟩
      · obtain ⟨hm, rfl⟩ := State.readRmOw_error e
        exact .trap rfl hm
      · rw [State.push_eq] at e
        obtain ⟨hm, rfl⟩ := State.writeBytes_error e
        exact .trap rfl hm
  | invalidC6 m =>
    injection h with h
    rw [← h]
    exact .invalid _ _ rfl rfl fun _ _ hw => by simp_all [Instr.wf, invalidEncoding]
  | invalidC7 m =>
    injection h with h
    rw [← h]
    exact .invalid _ _ rfl rfl fun _ _ hw => by simp_all [Instr.wf, invalidEncoding]
  | invalidFF m =>
    injection h with h
    rw [← h]
    exact .invalid _ _ rfl rfl fun _ _ hw => by simp_all [Instr.wf, invalidEncoding]
  | invalid8ECs m =>
    injection h with h
    rw [← h]
    exact .invalid _ _ rfl rfl fun _ _ hw => by simp_all [Instr.wf, invalidEncoding]
  | invalid8EReg m =>
    injection h with h
    rw [← h]
    exact .invalid _ _ rfl rfl fun _ _ hw => by
      simp only [Instr.wf, Bool.or_eq_true, decide_eq_true_eq] at hw
      rcases hw with e | e <;> simp [invalidEncoding, e]
  | invalid8CReg m =>
    injection h with h
    rw [← h]
    exact .invalid _ _ rfl rfl fun _ _ hw => by
      simp only [Instr.wf, Bool.or_eq_true, decide_eq_true_eq] at hw
      rcases hw with e | e <;> simp [invalidEncoding, e]
  | unknown op => injection h with h; rw [← h]; exact .unknown op

/-! ### The prefix scan -/

theorem State.fetchByte_real {s : State} (h : s.mode = .real) (k : Nat) :
    s.fetchByte k = .ok (s.physRead (realAddress (s.sreg16 .cs) (s.eip + BitVec.ofNat 32 k))) :=
  State.readByte_real h _ _ k

theorem State.fetchByte_not_real {s : State} (h : s.mode ≠ .real) (k : Nat) :
    s.fetchByte k = .error (.unimplementedMode s.mode) := State.readByte_not_real h _ _ k

/-- Outside Real mode the scan's first fetch raises UnimplementedMode (40_step_and_halt.md R119). -/
theorem State.prefixScan_not_real {s : State} (h : s.mode ≠ .real) (fuel k : Nat) :
    State.prefixScan (fuel + 1) s k = .raised (.unimplementedMode s.mode) := by
  simp [State.prefixScan, State.fetchByte_not_real h]

/-- The byte that a Real-mode block fetches `k` bytes after the instruction start. -/
abbrev State.codeByte (s : State) (k : Nat) : Byte :=
  s.physRead (realAddress (s.sreg16 .cs) (s.eip + BitVec.ofNat 32 k))

/-- At a prefix byte the scan sets the flag and goes on (30_encoding.md R73). -/
theorem State.prefixScan_prefix {s : State} (h : s.mode = .real) {p : PrefixByte} {k : Nat}
    (hp : prefixOf? (s.codeByte k) = some p) (fuel : Nat) :
    State.prefixScan (fuel + 1) s k = State.prefixScan fuel (s.applyPrefix p) (k + 1) := by
  simp [State.prefixScan, State.fetchByte_real h, hp]

/-- At any other byte it stops (30_encoding.md R75). -/
theorem State.prefixScan_stop {s : State} (h : s.mode = .real) {k : Nat}
    (hn : prefixOf? (s.codeByte k) = none) (fuel : Nat) :
    State.prefixScan (fuel + 1) s k = .opcodeAt s k := by
  simp [State.prefixScan, State.fetchByte_real h, hn]

/-- A Real-mode scan hangs after prefix bytes only, or stops after prefix bytes only at a byte that is none,
having changed the prefix flags only. -/
theorem State.prefixScan_real {fuel : Nat} {s : State} {k : Nat} (h : s.mode = .real) :
    (State.prefixScan fuel s k = .hang ∧ ∀ j, k ≤ j → j < k + fuel → prefixOf? (s.codeByte j) ≠ none) ∨
    ∃ o a j, State.prefixScan fuel s k = .opcodeAt { s with opsz := o, adsz := a } j ∧
      prefixOf? (s.codeByte j) = none ∧ k ≤ j ∧ j < k + fuel ∧
      ∀ n, k ≤ n → n < j → prefixOf? (s.codeByte n) ≠ none := by
  induction fuel generalizing s k with
  | zero => exact .inl ⟨rfl, fun j h1 h2 => by omega⟩
  | succ fuel ih =>
    cases hp : prefixOf? (s.codeByte k) with
    | none =>
      exact .inr ⟨s.opsz, s.adsz, k, State.prefixScan_stop h hp fuel, hp, by omega, by omega,
        fun n h1 h2 => by omega⟩
    | some p =>
      rw [State.prefixScan_prefix h hp]
      have hm : (s.applyPrefix p).mode = .real := by simp [h]
      have hc : ∀ j, (s.applyPrefix p).codeByte j = s.codeByte j := fun j => by cases p <;> rfl
      rcases ih hm (k := k + 1) with ⟨e, he⟩ | ⟨o, a, j, e, hn, h1, h2, h3⟩
      · refine .inl ⟨e, fun j hj1 hj2 => ?_⟩
        by_cases hjk : j = k
        · rw [hjk, hp]; nofun
        · rw [← hc]; exact he j (by omega) (by omega)
      · refine .inr ⟨o, a, j, ?_, ?_, by omega, by omega, fun n hn1 hn2 => ?_⟩
        · rw [e]; cases p <;> rfl
        · rw [← hc]; exact hn
        · by_cases hnk : n = k
          · rw [hnk, hp]; nofun
          · rw [← hc]; exact h3 n (by omega) hn2

/-- In Real mode the window of fetched bytes is what the store holds. -/
theorem State.fetchBytes_real {s : State} (h : s.mode = .real) (k n : Nat) :
    s.fetchBytes k n = .ok ((List.range n).map fun j =>
      s.physRead (realAddress (s.sreg16 .cs) (s.eip + BitVec.ofNat 32 (k + j)))) := by
  induction n generalizing k with
  | zero => rfl
  | succ n ih =>
    simp only [State.fetchBytes, State.fetchByte_real h, ih, Except.map, List.range_succ_eq_map,
      List.map_cons, List.map_map, Nat.add_zero, Except.ok.injEq, List.cons.injEq, true_and]
    refine List.map_congr_left fun j _ => ?_
    simp only [Function.comp_apply]
    rw [show k + 1 + j = k + j.succ by omega]

/-- The inversion of `step`: a next state comes from a running block, and is the fault of the first fetch
outside Real mode, or the end of one instruction's meaning. -/
theorem step_cases {s t : State} (h : step s = .next t) : s.status = .running ∧
    ((s.mode ≠ .real ∧ t = takeFault s (.unimplementedMode s.mode)) ∨
     (s.mode = .real ∧ ∃ o a k bs i rest,
       let u := { s with opsz := o, adsz := a }
       State.prefixScan Config.prefixLimit s.clearPrefixes 0 = .opcodeAt u k ∧
       u.fetchBytes k Config.maxBody = .ok bs ∧ decode u.addrWidth u.opWidth bs = .ok (i, rest) ∧
       ∃ v, exec i u = .next v ∧
         t = if v.status.isFaulted then s.setStatus v.status
           else v.advanceEip (k + (bs.length - rest.length)))) := by
  have hr : s.status = .running := by
    unfold step at h
    split at h
    · assumption
    · cases h
    · cases h
  refine ⟨hr, ?_⟩
  simp only [step, hr] at h
  by_cases hm : s.mode = .real
  · refine .inr ⟨hm, ?_⟩
    have hm' : s.clearPrefixes.mode = .real := by simp [hm]
    unfold stepRunning at h
    rcases State.prefixScan_real (fuel := Config.prefixLimit) (k := 0) hm' with ⟨e, -⟩ | ⟨o, a, k, e, -⟩
    · rw [e] at h; cases h
    · have e' : State.prefixScan Config.prefixLimit s.clearPrefixes 0 =
          .opcodeAt { s with opsz := o, adsz := a } k := e
      rw [e'] at h
      have hm2 : ({ s with opsz := o, adsz := a } : State).mode = .real := hm
      have hf := State.fetchBytes_real hm2 k Config.maxBody
      simp only [hf] at h
      split at h
      · cases h
      · next i rest hd =>
        obtain ⟨v, hv⟩ := exec_next i { s with opsz := o, adsz := a }
        refine ⟨o, a, k, _, i, rest, e', hf, hd, v, hv, ?_⟩
        rw [hv] at h
        simp only [finish] at h
        split at h <;> next hs => injection h with h; simp [hs, ← h]
  · refine .inl ⟨hm, ?_⟩
    have hm' : s.clearPrefixes.mode ≠ .real := by simpa using hm
    unfold stepRunning at h
    rw [show Config.prefixLimit = 1048575 + 1 from rfl, State.prefixScan_not_real hm'] at h
    injection h with h
    exact h.symm

end Sys2Proof.Machine
end

