-- ==== Sys2Proof/Tests/Slice0.lean ====
section
/-! SUPPORT. Tests: the well-formedness checks refuse ill-formed terms; words written out from the spec's
encodings decode to their instructions; single steps against the vectors of 95_test_vectors.md (each named after
its vector); and a witness for the hypotheses of every statement that has some. -/

namespace Sys2Proof.Tests

open Sys2Proof Sys2Proof.Machine

/-! ### Well-formedness: one ill-formed term for each check -/

/-- rm = 6 with mod = 0 is the displacement form (30_encoding.md R88). -/
theorem test_wf_mem16_base_bp : Mem16.wf (.base .bp) = false := by decide

/-- rm = 4 is the SIB form and rm = 5 with mod = 0 the displacement form (R80, R91, R93). -/
theorem test_wf_mem32 :
    Mem32.wf (.base .esp) = false ∧ Mem32.wf (.base .ebp) = false ∧ Mem32.wf (.disp8 .esp 0) = false ∧
    Mem32.wf (.disp32 .esp 0) = false ∧ Mem32.wf (.sib ⟨0, .eax⟩ .ebp) = false := by decide

/-- The addressing table is the one `AW` selects, and its form is checked. -/
theorem test_wf_memOp :
    MemOp.wf .a32 (.m16 (.direct 0)) = false ∧ MemOp.wf .a16 (.m32 (.direct 0)) = false ∧
    MemOp.wf .a16 (.m16 (.base .bp)) = false ∧ MemOp.wf .a32 (.m32 (.base .esp)) = false := by decide

theorem test_wf_rm : Rm.wf .a32 (.mem (.m16 (.direct 0)) : Rm Reg) = false := by decide

theorem test_wf_moffs : Moffs.wf .a32 (.o16 0) = false ∧ Moffs.wf .a16 (.o32 0) = false := by decide

/-- The operand forms of each instruction. -/
theorem test_wf_operands :
    Instr.wf .a16 .w16 (.movRm8R8 (.mem (.m16 (.base .bp))) .al) = false ∧
    Instr.wf .a16 .w16 (.movRmR .w16 (.mem (.m16 (.base .bp))) .eax) = false ∧
    Instr.wf .a16 .w16 (.movR8Rm8 .al (.mem (.m16 (.base .bp)))) = false ∧
    Instr.wf .a16 .w16 (.movRRm .w16 .eax (.mem (.m16 (.base .bp)))) = false ∧
    Instr.wf .a16 .w16 (.movRm16Sreg (.mem (.m16 (.base .bp))) .ds) = false ∧
    Instr.wf .a16 .w16 (.movSregRm16 .ds (.mem (.m16 (.base .bp)))) = false ∧
    Instr.wf .a32 .w16 (.movAlMoffs (.o16 0)) = false ∧
    Instr.wf .a32 .w16 (.movAxMoffs .w16 (.o16 0)) = false ∧
    Instr.wf .a32 .w16 (.movMoffsAl (.o16 0)) = false ∧
    Instr.wf .a32 .w16 (.movMoffsAx .w16 (.o16 0)) = false ∧
    Instr.wf .a16 .w16 (.movRm8Imm (.mem (.m16 (.base .bp))) 0) = false ∧
    Instr.wf .a16 .w16 (.movRmImm (.mem (.m16 (.base .bp))) (.v16 0)) = false ∧
    Instr.wf .a16 .w16 (.pushRm .w16 (.mem (.m16 (.base .bp)))) = false := by decide

/-- The operand width is `OW` (R83, R84). -/
theorem test_wf_width :
    Instr.wf .a16 .w16 (.movRmR .w32 (.reg .eax) .eax) = false ∧
    Instr.wf .a16 .w16 (.movRRm .w32 .eax (.reg .eax)) = false ∧
    Instr.wf .a16 .w32 (.movAxMoffs .w16 (.o16 0)) = false ∧
    Instr.wf .a16 .w32 (.movMoffsAx .w16 (.o16 0)) = false ∧
    Instr.wf .a16 .w16 (.movRImm .eax (.v32 0)) = false ∧
    Instr.wf .a16 .w32 (.movRmImm (.reg .eax) (.v16 0)) = false ∧
    Instr.wf .a16 .w16 (.pushRm .w32 (.reg .eax)) = false := by decide

/-- The ModRM.reg of an invalid encoding is one its opcode does not permit, and an unknown opcode is unmapped
(R99, R100). -/
theorem test_wf_invalid :
    Instr.wf .a16 .w16 (.invalidC6 ⟨3, 0, 0⟩) = false ∧ Instr.wf .a16 .w16 (.invalidC7 ⟨3, 0, 0⟩) = false ∧
    Instr.wf .a16 .w16 (.invalidFF ⟨3, 6, 0⟩) = false ∧ Instr.wf .a16 .w16 (.invalid8ECs ⟨3, 0, 0⟩) = false ∧
    Instr.wf .a16 .w16 (.invalid8EReg ⟨3, 1, 0⟩) = false ∧
    Instr.wf .a16 .w16 (.invalid8CReg ⟨3, 1, 0⟩) = false ∧
    Instr.wf .a16 .w16 (.unknown 0xB0) = false := by decide

/-! ### Decoding of words written out bit by bit (30_encoding.md §1 to §6) -/

/-- The two prefix rows and the sentinel (R73, R115). -/
theorem test_decode_control :
    decode .a16 .w16 [0b01100110] = .ok (.prefixOperandSize, []) ∧
    decode .a16 .w16 [0b01100111] = .ok (.prefixAddressSize, []) ∧
    decode .a16 .w16 [0b00000000] = .ok (.halt, []) := by decide

/-- 10001000 mod=11 reg=001 (CL) rm=111 (BH). -/
theorem test_decode_88 :
    decode .a16 .w16 [0b10001000, 0b11001111] = .ok (.movRm8R8 (.reg .bh) .cl, []) := by decide

/-- 10001001 mod=01 reg=110 (ESI) rm=010 ([BP+SI]) disp8=80. -/
theorem test_decode_89 :
    decode .a16 .w32 [0b10001001, 0b01110010, 0x80] =
      .ok (.movRmR .w32 (.mem (.m16 (.disp8 .bpSi 0x80))) .esi, []) := by decide

/-- 10001010 mod=10 reg=101 (CH) rm=111 ([BX]) disp16=1234. -/
theorem test_decode_8A :
    decode .a16 .w16 [0b10001010, 0b10101111, 0x34, 0x12] =
      .ok (.movR8Rm8 .ch (.mem (.m16 (.disp16 .bx 0x1234))), []) := by decide

/-- 10001011 mod=00 reg=111 (EDI) rm=100, SIB scale=10 index=001 (ECX) base=101, disp32. -/
theorem test_decode_8B :
    decode .a32 .w32 [0b10001011, 0b00111100, 0b10001101, 0x78, 0x56, 0x34, 0x12] =
      .ok (.movRRm .w32 .edi (.mem (.m32 (.sibDirect ⟨2, .ecx⟩ 0x12345678))), []) := by decide

/-- 10001100 mod=11 reg=101 (GS) rm=011 (EBX). -/
theorem test_decode_8C :
    decode .a16 .w32 [0b10001100, 0b11101011] = .ok (.movRm16Sreg (.reg .ebx) .gs, []) := by decide

/-- 10001110 mod=00 reg=100 (FS) rm=110 (disp16 alone). -/
theorem test_decode_8E :
    decode .a16 .w16 [0b10001110, 0b00100110, 0x34, 0x12] =
      .ok (.movSregRm16 .fs (.mem (.m16 (.direct 0x1234))), []) := by decide

/-- 101000 d w, then the moffs literal, least significant byte first. -/
theorem test_decode_moffs :
    decode .a16 .w16 [0b10100000, 0x34, 0x12] = .ok (.movAlMoffs (.o16 0x1234), []) ∧
    decode .a32 .w16 [0b10100001, 0x78, 0x56, 0x34, 0x12] = .ok (.movAxMoffs .w16 (.o32 0x12345678), []) ∧
    decode .a16 .w32 [0b10100010, 0x34, 0x12] = .ok (.movMoffsAl (.o16 0x1234), []) ∧
    decode .a16 .w32 [0b10100011, 0x34, 0x12] = .ok (.movMoffsAx .w32 (.o16 0x1234), []) := by decide

/-- 10110 reg imm8 and 10111 reg imm16 or imm32. -/
theorem test_decode_imm :
    decode .a16 .w16 [0b10110101, 0x7F] = .ok (.movR8Imm .ch 0x7F, []) ∧
    decode .a16 .w16 [0b10111101, 0x34, 0x12] = .ok (.movRImm .ebp (.v16 0x1234), []) := by decide

/-- 11000110 and 11000111 with reg=000: the immediate follows the displacement. -/
theorem test_decode_rm_imm :
    decode .a32 .w16 [0b11000110, 0b01000101, 0xFC, 0x55] =
      .ok (.movRm8Imm (.mem (.m32 (.disp8 .ebp 0xFC))) 0x55, []) ∧
    decode .a32 .w32 [0b11000111, 0b00000101, 1, 2, 3, 4, 5, 6, 7, 8] =
      .ok (.movRmImm (.mem (.m32 (.direct 0x04030201))) (.v32 0x08070605), []) := by decide

/-- 11111111 mod=00 reg=110 rm=100, SIB scale=00 index=100 (none) base=100 (ESP). -/
theorem test_decode_push :
    decode .a32 .w16 [0b11111111, 0b00110100, 0b00100100] =
      .ok (.pushRm .w16 (.mem (.m32 (.sib ⟨0, .esp⟩ .esp))), []) := by decide

/-- The invalid ModRM.reg values: nothing after the ModRM byte is taken (60_exceptions.md R172). -/
theorem test_decode_invalid :
    decode .a16 .w16 [0b11000110, 0b00001110, 9] = .ok (.invalidC6 ⟨0, 1, 6⟩, [9]) ∧
    decode .a16 .w16 [0b11000111, 0b11111000, 9] = .ok (.invalidC7 ⟨3, 7, 0⟩, [9]) ∧
    decode .a16 .w16 [0b11111111, 0b11101001, 9] = .ok (.invalidFF ⟨3, 5, 1⟩, [9]) ∧
    decode .a16 .w16 [0b10001110, 0b11001000, 9] = .ok (.invalid8ECs ⟨3, 1, 0⟩, [9]) ∧
    decode .a16 .w16 [0b10001110, 0b00110110, 9] = .ok (.invalid8EReg ⟨0, 6, 6⟩, [9]) ∧
    decode .a16 .w16 [0b10001100, 0b11111000, 9] = .ok (.invalid8CReg ⟨3, 7, 0⟩, [9]) := by decide

/-- An unmapped opcode, the first and the last of those around the handlers (R99). -/
theorem test_decode_unknown :
    decode .a16 .w16 [0x01, 9] = .ok (.unknown 0x01, [9]) ∧
    decode .a16 .w16 [0x8D, 9] = .ok (.unknown 0x8D, [9]) ∧
    decode .a16 .w16 [0xFE, 9] = .ok (.unknown 0xFE, [9]) := by decide

/-! ### One step, from the conventions of 95_test_vectors.md -/

/-- The start state of the conventions with other general-purpose registers, segments and memory, and the bytes
`bs` at CS:EIP. `mem` lists bytes by physical address. -/
def start (bs : List Byte) (regs : List (Reg × Word) := []) (segs : List (Sreg × Half) := [])
    (mem : List (Phys × Byte) := []) (eip : Word := 0x100) : State :=
  let s := regs.foldl (fun s x => s.setGpr32 x.1 x.2) State.reset
  let s := segs.foldl (fun s x => { s with sreg := s.sreg.set x.1 ⟨0, x.2⟩ }) s
  let s := mem.foldl (fun s x => s.physWrite x.1 x.2) s
  { s with eip := eip }.loadCode 0 bs

/-- The step answers a next state with the property. -/
def after (s : State) (p : State → Bool) : Bool :=
  match step s with
  | .next t => p t
  | .fault _ => false
  | .refused _ => false

theorem test_V1 : after (start [0x88, 0xC4] [(.eax, 0x11223344)])
    (fun t => t.gpr32 .eax = 0x11224444 && t.eip = 0x102) = true := by decide

theorem test_V3 : after (start [0x66, 0x67, 0x88, 0x00] [(.eax, 0xAB)])
    (fun t => t.physRead 0xAB = 0xAB && t.eip = 0x104) = true := by decide

theorem test_L1_7a : after (start [0x66, 0x89, 0xCA] [(.ecx, 0x89ABCDEF), (.edx, 0x01234567)])
    (fun t => t.gpr32 .edx = 0x89ABCDEF && t.eip = 0x103) = true := by decide

theorem test_V4 : after (start [0x89, 0x1E, 0xFF, 0xFF] [(.ebx, 0xA1B2)])
    (fun t => t.physRead 0x0FFFF = 0xB2 && t.physRead 0x10000 = 0xA1) = true := by decide

theorem test_L1_5 : after (start [0x8A, 0x16, 0x34, 0x12] [] [(.ds, 0x0100)] [(0x02234, 0x5E)])
    (fun t => t.gpr32 .edx = 0x5E && t.eip = 0x104) = true := by decide

theorem test_V8 : after (start [0x8A, 0xE0] [(.eax, 0x12345678)])
    (fun t => t.gpr32 .eax = 0x12347878) = true := by decide

theorem test_V11 : after (start [0x8B, 0x46, 0xFE] [(.ebp, 0x100)] [] [(0xFE, 0x34), (0xFF, 0x12)])
    (fun t => t.gpr32 .eax = 0x1234 && t.eip = 0x103) = true := by decide

theorem test_V12 : after (start [0x66, 0x8B, 0x06, 0x00, 0x02] [(.eax, 0xFFFFFFFF)] []
      [(0x200, 0x78), (0x201, 0x56), (0x202, 0x34), (0x203, 0x12)])
    (fun t => t.gpr32 .eax = 0x12345678) = true := by decide

theorem test_V14 : after (start [0x66, 0x8C, 0xD8] [(.eax, 0xFFFF0000)] [(.ds, 0x1234)])
    (fun t => t.gpr32 .eax = 0xFFFF1234 && t.eip = 0x103) = true := by decide

theorem test_V15 : after (start [0x8C, 0x1E, 0x00, 0x02] [] [(.ds, 0x1234)])
    (fun t => t.physRead 0x12540 = 0x34 && t.physRead 0x12541 = 0x12) = true := by decide

theorem test_V22 : after (start [0x8E, 0x1E, 0x00, 0x01] [] [] [(0x101, 0x30)] 0x300)
    (fun t => t.sreg16 .ds = 0x3000 && t.eip = 0x304) = true := by decide

/-- V23 and V24, one for each value of `SREG_WRITE_UPPER`. -/
theorem test_V23_V24 :
    let s := { State.reset with sreg := State.reset.sreg.set .ds ⟨0xABCD, 0⟩ }
    SegReg.full ((s.writeSregAs .preserve .ds 0x1000).sreg.get .ds) = 0xABCD1000 ∧
    SegReg.full ((s.writeSregAs .zero .ds 0x1000).sreg.get .ds) = 0x00001000 := by decide

theorem test_O2 : after (start [0xA0, 0x05, 0x00] [] [(.cs, 0x1000), (.ds, 0x2000)]
      [(0x20005, 0x99), (0x10005, 0x11)] 0)
    (fun t => t.gpr32 .eax = 0x99 && t.eip = 3) = true := by decide

theorem test_O3 : after (start [0xA1, 0x10, 0x00] [(.eax, 0xFFFFFFFF)] [] [(0x10, 0x34), (0x11, 0x12)])
    (fun t => t.gpr32 .eax = 0xFFFF1234) = true := by decide

theorem test_O5 : after (start [0x67, 0xA1, 0x40, 0x23, 0x01, 0x00] [] [] [(0x12340, 0xCD), (0x12341, 0xAB)])
    (fun t => t.gpr32 .eax = 0xABCD && t.eip = 0x106) = true := by decide

theorem test_O6 : after (start [0x67, 0xA2, 0x00, 0x00, 0x01, 0x00] [(.eax, 0xAB)])
    (fun t => t.physRead 0x10000 = 0xAB && t.eip = 0x106) = true := by decide

theorem test_O7 : after (start [0xA3, 0xFF, 0xFF] [(.eax, 0xBEEF)] [(.ds, 0x0200)])
    (fun t => t.physRead 0x11FFF = 0xEF && t.physRead 0x12000 = 0xBE) = true := by decide

theorem test_O10 : after (start [0x66, 0x67, 0xA3, 0x00, 0x04, 0x00, 0x00] [(.eax, 0xCAFEBABE)])
    (fun t => t.physRead 0x400 = 0xBE && t.physRead 0x403 = 0xCA && t.eip = 0x107) = true := by decide

theorem test_I1 : after (start [0xB4, 0x7F] [(.eax, 0x11223344)])
    (fun t => t.gpr32 .eax = 0x11227F44 && t.eip = 0x102) = true := by decide

theorem test_I3 : after (start [0x66, 0xB1, 0x05])
    (fun t => t.gpr32 .ecx = 5 && t.eip = 0x103) = true := by decide

theorem test_I5 : after (start [0x66, 0xBB, 0x78, 0x56, 0x34, 0x12])
    (fun t => t.gpr32 .ebx = 0x12345678 && t.eip = 0x106) = true := by decide

theorem test_I6 : after (start [0xBC, 0x00, 0x80] [(.esp, 0x12345678)])
    (fun t => t.gpr32 .esp = 0x12348000) = true := by decide

theorem test_I10 : after (start [0xC6, 0xC4, 0x99] [(.eax, 0x1234)])
    (fun t => t.gpr32 .eax = 0x9934) = true := by decide

theorem test_I11 : after (start [0xC6, 0x46, 0xFE, 0x55] [(.ebp, 0x100)] [(.ss, 0x0050)])
    (fun t => t.physRead 0x5FE = 0x55 && t.eip = 0x104) = true := by decide

theorem test_I14 : after (start [0x66, 0xC7, 0xC0, 0x78, 0x56, 0x34, 0x12])
    (fun t => t.gpr32 .eax = 0x12345678 && t.eip = 0x107) = true := by decide

theorem test_I15 : after (start [0x67, 0x66, 0xC7, 0x84, 0x24, 0x00, 0x01, 0x00, 0x00, 0xEF, 0xBE, 0xAD, 0xDE])
    (fun t => t.physRead 0x7D00 = 0xEF && t.physRead 0x7D03 = 0xDE && t.eip = 0x10D) = true := by decide

theorem test_P4 : after (start [0x66, 0xFF, 0xF0] [(.esp, 0xABCD0001), (.eax, 0x11223344)])
    (fun t => t.gpr32 .esp = 0xABCDFFFD && t.physRead 0xFFFD = 0x44 && t.physRead 0x10000 = 0x11) = true := by
  decide

theorem test_P7 : after (start [0x67, 0xFF, 0x34, 0x24] [] [] [(0x7C00, 0xAA), (0x7C01, 0xBB)])
    (fun t => t.gpr32 .esp = 0x7BFE && t.physRead 0x7BFE = 0xAA && t.physRead 0x7BFF = 0xBB) = true := by decide

theorem test_S2 : after (start [0x66, 0x67, 0x66, 0x00])
    (fun t => t.status = .halted && t.eip = 0x104) = true := by decide

theorem test_S3 : after (start [0x66, 0x90] [] [] [] 0x200)
    (fun t => t.eip = 0x200 && t.status = .faulted
      { code := .unknownOpcode, cs := 0, eip := 0x200, opcode := some 0x90, reg := none, mode := none }) = true := by
  decide

/-- The InvalidOpcode record of the conventions' start state. -/
def invalidAt (op : Byte) (reg : BitVec 3) : Status :=
  .faulted { code := .invalidOpcode, cs := 0, eip := 0x100, opcode := some op, reg := some reg, mode := none }

theorem test_V17 : after (start [0x8C, 0xF8]) (fun t => t.status = invalidAt 0x8C 7) = true := by decide

theorem test_V20 : after (start [0x8E, 0xC8] [(.eax, 0x1000)])
    (fun t => t.status = invalidAt 0x8E 1 && t.sreg16 .cs = 0) = true := by decide

theorem test_V21 : after (start [0x8E, 0xF0] [(.eax, 0x1000)]) (fun t => t.status = invalidAt 0x8E 6) = true := by
  decide

theorem test_I12 : after (start [0xC6, 0xC8, 0x11])
    (fun t => t.status = invalidAt 0xC6 1 && t.gpr32 .eax = 0) = true := by decide

theorem test_L1_8 : after (start [0xC7, 0x0E, 0x00, 0x02, 0x34, 0x12])
    (fun t => t.status = invalidAt 0xC7 1 && t.physRead 0x200 = 0 && t.eip = 0x100) = true := by decide

theorem test_P10 : after (start [0xFF, 0x3E, 0x00, 0x02])
    (fun t => t.status = invalidAt 0xFF 7 && t.gpr32 .esp = 0x7C00) = true := by decide

theorem test_S7 : after { start [0x00] with mode := .protectedMode }
    (fun t => t.status = .faulted
      { code := .unimplementedMode, cs := 0, eip := 0x100, opcode := none, reg := none
        mode := some .protectedMode }) = true := by decide

/-- S11: the bytes lie across 2^32 and across the end of the store; the first of its two steps. -/
theorem test_S11 : after (start [0xB0, 0x42, 0x00] [] [] [] 0xFFFFFFFF)
    (fun t => t.gpr32 .eax = 0x42 && t.eip = 1) = true := by decide

theorem test_S12 : step { start [0xB0, 0x2A] with status := .halted } = .fault .runEnded := rfl

/-- S13 and S14, from the Running start state. -/
theorem test_S13_S14 :
    State.readReg State.reset .gpr32 8 = .error .programmingError ∧
    State.readReg State.reset .sreg 6 = .error .programmingError := ⟨rfl, rfl⟩

/-- S15: the run ends at its second step, which undoes only its own instruction. -/
theorem test_S15 : ∃ t, State.run 3 (start [0xB0, 0x07, 0x8E, 0xC8] [(.eax, 0x1234)]) = .ended t ∧
    t.gpr32 .eax = 0x1207 ∧ t.eip = 0x102 ∧ t.status = .faulted
      { code := .invalidOpcode, cs := 0, eip := 0x102, opcode := some 0x8E, reg := some 1, mode := none } :=
  ⟨_, rfl, by decide, by decide, by decide⟩

/-- R191: byte `k` of the image at physical address `k`. -/
theorem test_load_memory :
    let t := State.reset.loadMemory [0x00, 0x11, 0x00, 0x22]
    t.physRead 1 = 0x11 ∧ t.physRead 2 = 0x00 ∧ t.physRead 3 = 0x22 ∧ t.mem.length = 2 := by decide

/-! ### Memory and effective addresses -/

/-- M1: the second byte of a read wraps to physical 0. -/
theorem test_M1 : (start [] [] [] [(0xFFFFF, 0xCD), (0x00000, 0xAB)]).readU16 0xF000 0xFFFF = .ok 0xABCD := by
  rw [State.readU16_real rfl]; decide

/-- L1-3, its six instances. -/
theorem test_L1_3 :
    realAddress 0x1234 0x5678 = 0x179B8 ∧ realAddress 0xFFFF 0x0010 = 0x00000 ∧
    realAddress 0xFFFF 0xFFFF = 0x0FFEF ∧ realAddress 0 0xFFFFFFFF = 0xFFFFF ∧
    realAddress 0xFFFF 0xFFFFFFFF = 0xFFFEF ∧ realAddress 0xF000 0xFFF0 = 0xFFFF0 := by decide

/-- E10, E13: the BP form at SS with disp8 = -1, and a sum that wraps at 2^16. -/
theorem test_E10_E13 :
    let s := start [] [(.ebx, 0x1000), (.esi, 0x0200), (.ebp, 0x4000)]
    s.offset (.m16 (.disp8 .bp 0xFF)) = 0x3FFF ∧ MemOp.segment (.m16 (.disp8 .bp 0xFF)) = .ss ∧
    s.offset (.m16 (.disp16 .bxSi 0xF000)) = 0x0200 := by decide

/-- A5, A11: the Real-mode mask, and a scaled index with an EBP base at SS. -/
theorem test_A5_A11 :
    let s := start [] [(.ebp, 0x100), (.esi, 0x10)]
    s.offset (.m32 (.disp32 .ebp 0x00010000)) = 0x0100 ∧
    s.offset (.m32 (.sibDisp8 ⟨1, .esi⟩ .ebp 0xFC)) = 0x011C ∧
    MemOp.segment (.m32 (.sibDisp8 ⟨1, .esi⟩ .ebp 0xFC)) = .ss := by decide

/-- L1-2, the byte views around index 3 and 4. -/
theorem test_L1_2 :
    let s := start [] [(.ecx, 0x11223344)]
    (s.setGpr8 (Reg8.ofIndex 5) 0xAA).gpr32 .ecx = 0x1122AA44 ∧
    (s.setGpr8 (Reg8.ofIndex 1) 0xAA).gpr32 .ecx = 0x112233AA ∧
    (s.setGpr8 (Reg8.ofIndex 3) 0xAA).gpr32 .ebx = 0xAA ∧
    (s.setGpr8 (Reg8.ofIndex 4) 0xAA).gpr32 .eax = 0xAA00 := by decide

/-! ### Witnesses: a concrete state and operands that meet the hypotheses of each statement -/

theorem witness_WideViewsReadAndWriteTheirBits : Reg.edi ≠ Reg.eax := by decide

theorem witness_ByteViewWriteChangesOneByte :
    (3 : BitVec 3).toNat < 4 ∧ ¬(4 : BitVec 3).toNat < 4 ∧ Reg.ecx ≠ Reg.ofIndex 3 := by decide

theorem witness_TranslationIsSumModuloTwoTo20 : Mode.protectedMode ≠ .real ∧ Mode.virtual8086 ≠ .real := by decide

/-- Both modes of the statements about reads and writes. -/
theorem witness_ReadsAreLittleEndianAndWrapPerByte :
    State.reset.mode = .real ∧ { State.reset with mode := .virtual8086 }.mode ≠ .real := by decide

theorem witness_WritesChangeExactlyTheirBytes :
    (start [0xB0, 0x2A]).mode = .real ∧ Memory.wf (start [0xB0, 0x2A]).mem = true ∧
    { State.reset with mode := .virtual8086 }.mode ≠ .real := by decide

/-- L1-4: the write and the read cross the end of the store. -/
theorem witness_WriteThenReadGivesTheValue :
    (start [0xB0, 0x2A]).mode = .real ∧ Memory.wf (start [0xB0, 0x2A]).mem = true ∧
    ((start []).writeU16 0 0xFFFFF 0xBEEF).map (fun t => (t.physRead 0xFFFFF, t.physRead 0)) = .ok (0xEF, 0xBE) := by
  decide

theorem witness_EffectiveAddress16FollowsTheTable :
    (0 : BitVec 2) ≠ 3 ∧ (1 : BitVec 2) ≠ 3 ∧ (2 : BitVec 2) ≠ 3 := by decide

theorem witness_EffectiveAddress32FollowsTheTables :
    (0 : BitVec 2) ≠ 3 ∧ (1 : BitVec 2) ≠ 3 ∧ (2 : BitVec 2) ≠ 3 := by decide

theorem witness_RealModeOffsetsFitSixteenBits :
    State.reset.mode = .real ∧ ∃ x, MemOp.m16 (.direct 0xFFFF) = .m16 x := ⟨rfl, _, rfl⟩

/-- A state with registers and memory, the bytes of V9 at CS:EIP. -/
def busy : State := start [0x8B, 0x1F] [(.ebx, 0x100)] [(.ds, 0x20)] [(0x300, 0xCD), (0x301, 0xAB)]

theorem witness_MovRm8R8WritesTheByte :
    Accessible busy (.mem (.m16 (.base .bx)) : Rm Reg8) ∧
    Accessible { busy with mode := .protectedMode } (.reg .ah : Rm Reg8) ∧ Memory.wf busy.mem = true :=
  ⟨fun _ _ => rfl, fun _ h => (nomatch h), by decide⟩

theorem witness_MovRmRWritesTheRegister :
    Accessible busy (.mem (.m16 (.base .bx)) : Rm Reg) ∧
    Accessible { busy with mode := .protectedMode } (.reg .esp : Rm Reg) ∧ Memory.wf busy.mem = true :=
  ⟨fun _ _ => rfl, fun _ h => (nomatch h), by decide⟩

theorem witness_MovR8Rm8LoadsTheByte :
    Accessible busy (.mem (.m32 (.base .ebx)) : Rm Reg8) ∧ Accessible busy (.reg .bh : Rm Reg8) :=
  ⟨fun _ _ => rfl, fun _ _ => rfl⟩

theorem witness_MovRRmLoadsTheOperand :
    Accessible busy (.mem (.m32 (.base .ebx)) : Rm Reg) ∧ Accessible busy (.reg .edi : Rm Reg) :=
  ⟨fun _ _ => rfl, fun _ _ => rfl⟩

theorem witness_MovRm16SregStoresSixteenBits :
    Accessible busy (.mem (.m16 (.direct 0xFFFF)) : Rm Reg) ∧ Accessible busy (.reg .edi : Rm Reg) ∧
    Memory.wf busy.mem = true := ⟨fun _ _ => rfl, fun _ _ => rfl, by decide⟩

theorem witness_MovSregRm16WritesTheSegment :
    Accessible busy (.mem (.m16 (.direct 0xFFFF)) : Rm Reg) ∧ Accessible busy (.reg .edi : Rm Reg) :=
  ⟨fun _ _ => rfl, fun _ _ => rfl⟩

theorem witness_MoffsLoadsReadTheDataSegment : busy.mode = .real := rfl

theorem witness_MoffsStoresWriteTheDataSegment : busy.mode = .real ∧ Memory.wf busy.mem = true := by decide

theorem witness_MovImmediateWritesTheOperand :
    Memory.wf busy.mem = true ∧ Accessible busy (.mem (.m16 (.direct 0)) : Rm Reg8) ∧
    Accessible busy (.mem (.m32 (.direct 0)) : Rm Reg) := ⟨by decide, fun _ _ => rfl, fun _ _ => rfl⟩

/-- The stack pointer at the wrap too (P-3). -/
theorem witness_PushLowersSpThenStores :
    (busy.setGpr32 .esp 0).mode = .real ∧ Memory.wf (busy.setGpr32 .esp 0).mem = true ∧
    (busy.setGpr32 .esp 0).gpr16 .esp - BitVec.ofNat 16 2 = 0xFFFE := by decide

theorem witness_MemoryFormsTrapOutsideRealMode : { busy with mode := .protectedMode }.mode ≠ .real := by decide

theorem witness_NoInstructionChangesSystemState :
    (∃ t, exec (.movRRm .w16 .ebx (.mem (.m16 (.base .bx)))) busy = .next t) ∧
    Instr.isPrefix (.movRRm .w16 .ebx (.reg .eax)) = false ∧
    (∃ t, exec .halt busy = .next t) ∧
    ∀ d x, Instr.movR8Imm .al 0 ≠ .movSregRm16 d x :=
  ⟨exec_next _ _, rfl, exec_next _ _, fun _ _ h => nomatch h⟩

/-- `busy` takes a step, which loads BX (V9, at another address). -/
theorem witness_StepKeepsModeAndCs : after busy (fun t => t.gpr32 .ebx = 0xABCD) = true := by decide

theorem witness_EflagsIsNeverReadOrWritten : after (busy.withEflags 0xFFFFFFFF) (fun _ => true) = true := by decide

theorem witness_UpperSegmentBitsAreNeverRead :
    let s := { busy with sreg := busy.sreg.set .ds ⟨0xABCD, 0x20⟩ }
    s ≠ busy ∧ s.forgetUpper = busy.forgetUpper := by decide

/-- Two prefixes and a body that completes; one prefix and a body that faults. -/
theorem witness_StepRunsDecodedInstruction :
    let s := start [0x67, 0x66, 0xB8, 1, 2, 3, 4]
    let f := start [0x66, 0x8E, 0xC8]
    s.status = .running ∧ s.mode = .real ∧ f.status = .running ∧ f.mode = .real ∧
    CodeAt s ([PrefixByte.addressSize, .operandSize].map PrefixByte.toByte ++ [0xB8, 1, 2, 3, 4]) ∧
    CodeAt f ([PrefixByte.operandSize].map PrefixByte.toByte ++ [0x8E, 0xC8]) ∧
    decode (s.afterPrefixes [.addressSize, .operandSize]).addrWidth
      (s.afterPrefixes [.addressSize, .operandSize]).opWidth [0xB8, 1, 2, 3, 4] =
      .ok (.movRImm .eax (.v32 0x04030201), []) ∧
    decode (f.afterPrefixes [.operandSize]).addrWidth (f.afterPrefixes [.operandSize]).opWidth [0x8E, 0xC8] =
      .ok (.invalid8ECs ⟨3, 1, 0⟩, []) := by
  refine ⟨by decide, by decide, by decide, by decide, ?_, ?_, by decide, by decide⟩ <;> unfold CodeAt <;> decide

theorem witness_PrefixScanSetsTheFlagsSeen :
    let s := start [0x67, 0x66, 0x67, 0xB8]
    s.mode = .real ∧ (0xB8 : Byte) ≠ 0x66 ∧ (0xB8 : Byte) ≠ 0x67 ∧
    CodeAt s ([PrefixByte.addressSize, .operandSize, .addressSize].map PrefixByte.toByte ++ [0xB8]) := by
  refine ⟨by decide, by decide, by decide, ?_⟩
  unfold CodeAt
  decide

theorem witness_NoStepAfterTheRunEnded : { busy with status := .halted }.status ≠ .running := by decide

theorem witness_OtherModesFaultAtTheFirstFetch :
    { busy with mode := .virtual8086 }.status = .running ∧ { busy with mode := .virtual8086 }.mode ≠ .real := by
  decide

/-- A block of bytes reads as its byte. -/
theorem Memory.read_block (b : Byte) (n lo a : Nat) (h : lo ≤ a) (h' : a < lo + n) :
    Memory.read ((List.range' lo n).map fun k => (k, b)) a = b := by
  induction n generalizing lo with
  | zero => omega
  | succ n ih =>
    simp only [List.range'_succ, List.map_cons, Memory.read]
    split
    · rfl
    · exact ih (lo + 1) (by omega) (by omega)

/-- S9: every byte is 0x66. -/
def allPrefixes : State := { State.reset with mem := (List.range' 0 1048576).map fun k => (k, 0x66#8) }

theorem witness_StuckExactlyOnEndlessPrefixes :
    allPrefixes.status = .running ∧ allPrefixes.mode = .real ∧ ∀ p : Phys, allPrefixes.physRead p = 0x66 :=
  ⟨rfl, rfl, fun p => Memory.read_block _ _ _ _ (by omega) (by have := p.isLt; omega)⟩

/-- S9: the step hangs, and the run has no result. -/
theorem test_S9 : step allPrefixes = .fault .prefixHang := by
  have hstep : step allPrefixes = stepRunning allPrefixes := rfl
  have hscan : State.prefixScan Config.prefixLimit allPrefixes.clearPrefixes 0 = .hang := by
    rcases State.prefixScan_real (s := allPrefixes.clearPrefixes) (fuel := Config.prefixLimit) (k := 0) rfl with
      h | ⟨_, _, j, _, hn, _⟩
    · exact h.1
    · have hb : allPrefixes.clearPrefixes.codeByte j = 0x66 :=
        witness_StuckExactlyOnEndlessPrefixes.2.2 _
      rw [hb] at hn
      cases hn
  rw [hstep, stepRunning, hscan]

theorem witness_EveryRunningBlockSteps : busy.status = .running ∧ after busy (fun _ => true) = true := by decide

theorem witness_FaultsArePrecise : after (start [0x8E, 0xC8]) (fun t => t.status = invalidAt 0x8E 1) = true := by
  decide

/-- One code for each clause: an invalid pair, an unmapped opcode, the sentinel and another mapped opcode. -/
theorem witness_StepFaultsExactlyOnInvalidBytes :
    CodeAt (start [0x66, 0xFF, 0xF8]) ([PrefixByte.operandSize].map PrefixByte.toByte ++ [0xFF, 0xF8]) ∧
    invalidEncoding 0xFF ((0xF8 : Byte).extractLsb' 3 3) = true ∧
    CodeAt (start [0x90, 0xF8]) [0x90, 0xF8] ∧ mappedOpcodes.contains 0x90 = false ∧
    CodeAt (start [0x00, 0xF0]) [0x00, 0xF0] ∧ mappedOpcodes.contains 0x00 = true ∧
    CodeAt (start [0xFF, 0xF0]) [0xFF, 0xF0] ∧ invalidEncoding 0xFF ((0xF0 : Byte).extractLsb' 3 3) = false := by
  refine ⟨?_, by decide, ?_, by decide, ?_, by decide, ?_, by decide⟩ <;> unfold CodeAt <;> decide

/-- S11 again: EIP passes 2^32. -/
theorem witness_EipAdvancesByTheInstructionLength :
    CodeAt (start [0xB0, 0x42, 0x00] [] [] [] 0xFFFFFFFF) [0xB0, 0x42, 0x00] ∧
    after (start [0xB0, 0x42, 0x00] [] [] [] 0xFFFFFFFF) (fun t => !t.status.isFaulted) = true := by
  refine ⟨?_, by decide⟩
  unfold CodeAt
  decide

theorem witness_FetchSeesTheStore : busy.mode = .real := rfl

theorem witness_DecodeOfEncodeIsTheInstruction :
    Instr.wf .a32 .w32 (.movRmImm (.mem (.m32 (.sibDisp32 ⟨0, .esp⟩ .esp 0x100))) (.v32 0xDEADBEEF)) = true ∧
    Instr.wf .a16 .w16 (.movRmImm (.mem (.m16 (.disp16 .bp 0))) (.v16 0)) = true := by decide

theorem witness_EncodeOfDecodeIsTheBytes :
    decode .a32 .w32 [0xC7, 0x84, 0x24, 0, 1, 0, 0, 0xEF, 0xBE, 0xAD, 0xDE, 0x90] =
      .ok (.movRmImm (.mem (.m32 (.sibDisp32 ⟨0, .esp⟩ .esp 0x100))) (.v32 0xDEADBEEF), [0x90]) := by decide

theorem witness_DecoderRejectsExactlyTheInvalidEncodings :
    decode .a16 .w16 [0x8E, 0xC8, 1] = .ok (.invalid8ECs ⟨3, 1, 0⟩, [1]) ∧
    invalidEncoding 0x8E ((0xC8 : Byte).extractLsb' 3 3) = true ∧
    decode .a16 .w16 [0x8E, 0xC0, 1] = .ok (.movSregRm16 .es (.reg .eax), [1]) ∧
    invalidEncoding 0x8E ((0xC0 : Byte).extractLsb' 3 3) = false ∧
    decode .a16 .w16 [0x90, 0xC0, 1] = .ok (.unknown 0x90, [0xC0, 1]) ∧
    mappedOpcodes.contains 0x90 = false := by decide

theorem witness_DecoderTakesTheR71Length :
    decode .a16 .w16 [0x8B, 0x46, 0xFE] = .ok (.movRRm .w16 .eax (.mem (.m16 (.disp8 .bp 0xFE))), []) ∧
    Instr.faults (.movRRm .w16 .eax (.reg .eax)) = false ∧ Instr.isPrefix (.movRRm .w16 .eax (.reg .eax)) = false := by
  decide

theorem witness_LaunchStateIsTheSpecs : Reg.edi ≠ Reg.esp := by decide

theorem witness_LaunchSatisfiesInvariant : Memory.wf busy.mem = true := by decide

theorem witness_StepKeepsInvariant : Inv busy ∧ after busy (fun _ => true) = true :=
  ⟨⟨by decide, nofun, nofun⟩, by decide⟩

/-- The first and the last byte of an image, and the byte after it. -/
theorem witness_LoadMemorySetsEveryByte :
    (0 : Phys).toNat < [0x11#8, 0x22#8].length ∧ (1 : Phys).toNat < [0x11#8, 0x22#8].length ∧
    [0x11#8, 0x22#8].length ≤ (2 : Phys).toNat := by decide

/-- The start state of S15: unfinished under a bound of one step, ended under two and under three; and S9. -/
theorem witness_RunRepeatsTheStep :
    let s := start [0xB0, 0x07, 0x8E, 0xC8]
    (∃ t, State.run 1 s = .unfinished t ∧ t.status = .running) ∧
    (∃ t, State.run 2 s = .ended t ∧ State.run 3 s = .ended t) ∧
    State.run 1 allPrefixes = .stuck .prefixHang := by
  refine ⟨⟨_, rfl, by decide⟩, ⟨_, rfl, rfl⟩, ?_⟩
  rw [State.run_succ_of_running rfl, test_S9]

theorem witness_RunKeepsInvariantModeCsAndEflags :
    Inv (start [0xB0, 0x07, 0x8E, 0xC8]) ∧ ∃ t, State.run 2 (start [0xB0, 0x07, 0x8E, 0xC8]) = .ended t :=
  ⟨⟨by decide, nofun, nofun⟩, _, rfl⟩

/-- Indices on both sides of each bound. -/
theorem witness_HostIndexOutOfRangeIsProgrammingError :
    RegView.InRange .gpr8 7 ∧ ¬RegView.InRange .gpr8 8 ∧ RegView.InRange .gpr32 7 ∧ ¬RegView.InRange .gpr32 8 ∧
    RegView.InRange .sreg 5 ∧ ¬RegView.InRange .sreg 6 ∧ RegView.InRange .eip 0 ∧ ¬RegView.InRange .eip 1 ∧
    (6 : Nat) ≠ 7 := by
  simp [RegView.InRange]

theorem witness_HostReadsOnlyAfterTheRun :
    busy.status = .running ∧ { busy with status := .halted }.status ≠ .running ∧ RegView.InRange .sreg 5 :=
  ⟨by decide, by decide, by simp [RegView.InRange]⟩

end Sys2Proof.Tests
end

section
/-! PROOFS. The launch state and the two transactions that make it (00_scope.md R4; 10_state.md R40;
70_reset_and_hazards.md R190 to R192). -/

namespace Sys2Proof.Machine

/-! ### The launch state (10_state.md R40, 70_reset_and_hazards.md R190) -/

section
variable (p : Launch) (m : Memory)

theorem State.gpr32_launch_of_ne_esp {r : Reg} (h : r ≠ .esp) : (State.launch p m).gpr32 r = 0 := by
  cases r with
  | esp => exact absurd rfl h
  | eax | ecx | edx | ebx | ebp | esi | edi => rfl

@[simp] theorem State.gpr32_launch_esp : (State.launch p m).gpr32 .esp = p.esp0 := rfl

@[simp] theorem State.launch_sreg :
    (State.launch p m).sreg = { es := p.es0, cs := p.cs0, ss := p.ss0, ds := p.ds0, fs := p.fs0, gs := p.gs0 } := rfl

@[simp] theorem State.launch_eip : (State.launch p m).eip = p.eip0 := rfl

@[simp] theorem State.launch_eflags : (State.launch p m).eflags = 0 := rfl

@[simp] theorem State.launch_mode : (State.launch p m).mode = .real := rfl

@[simp] theorem State.launch_opsz : (State.launch p m).opsz = false := rfl

@[simp] theorem State.launch_adsz : (State.launch p m).adsz = false := rfl

@[simp] theorem State.launch_status : (State.launch p m).status = .running := rfl

@[simp] theorem State.launch_mem : (State.launch p m).mem = m := rfl

end

/-! ### `load_state` and `load_memory` (00_scope.md R4, 70_reset_and_hazards.md R190 to R192) -/

@[simp] theorem State.loadState_mem (s : State) (p : Launch) (m : Mode) : (s.loadState p m).mem = s.mem := rfl

/-- The mode is all that tells one `load_state` from the launch over the same store. -/
theorem State.loadState_eq_launch (s : State) (p : Launch) (m : Mode) :
    s.loadState p m = { State.launch p s.mem with mode := m } := rfl

@[simp] theorem State.loadState_real (s : State) (p : Launch) : s.loadState p .real = State.launch p s.mem := rfl

@[simp] theorem State.loadMemory_launch (p : Launch) (m : Memory) (image : List Byte) :
    (State.launch p m).loadMemory image = State.launch p (Memory.ofImage 0 image) := rfl

/-- Settles O46: the fields of the launch state one by one; either order of the two transactions is a launch over the
image, since `loadState` keeps the store it finds and `loadMemory` replaces the store alone. -/
theorem launchStateIsTheSpecs : Obligations.LaunchStateIsTheSpecs := by
  refine ⟨fun p m => ?launchFields, fun s p image => ⟨?memoryFirst, ?stateFirst, ?keepsMem⟩,
    fun s p m => ?modeOnly, ?reset⟩
  case launchFields =>
    refine ⟨fun r hr => State.gpr32_launch_of_ne_esp p m hr, State.gpr32_launch_esp p m, ?_⟩
    simp
  case memoryFirst => rw [State.loadState_real, State.loadMemory_mem]
  case stateFirst => rw [State.loadState_real, State.loadMemory_launch]
  case keepsMem => exact State.loadState_mem s p .real
  case modeOnly => rw [State.loadState_real, State.loadState_eq_launch]
  case reset => exact ⟨Launch.default, rfl⟩

end Sys2Proof.Machine
end

section
/-! PROOFS. EFLAGS and bits 31:16 of the segment registers are hidden from every step (10_state.md R28, R32): a step
commutes with any change to them alone. One lemma for each operation of the model, in the order of the definitions. -/

namespace Sys2Proof.Machine

def Sregs.map (f : SegReg → SegReg) (g : Sregs) : Sregs where
  es := f g.es
  cs := f g.cs
  ss := f g.ss
  ds := f g.ds
  fs := f g.fs
  gs := f g.gs

@[simp] theorem Sregs.get_map (f : SegReg → SegReg) (g : Sregs) (r : Sreg) : (g.map f).get r = f (g.get r) := by
  cases r <;> rfl

theorem Sregs.map_set (f : SegReg → SegReg) (g : Sregs) (r : Sreg) (v : SegReg) :
    (g.set r v).map f = (g.map f).set r (f v) := by cases r <;> rfl

/-- A change of the segment registers by `f` and of EFLAGS by `e`, and of nothing else. -/
def State.rehide (f : SegReg → SegReg) (e : Word → Word) (s : State) : State :=
  { s with sreg := s.sreg.map f, eflags := e s.eflags }

/-- Change the state a scan stops in. -/
def Scan.mapState (g : State → State) : Scan → Scan
  | .hang => .hang
  | .raised x => .raised x
  | .opcodeAt t k => .opcodeAt (g t) k

/-- `f` changes bits 31:16 alone, and it does not matter whether it does so before a 16-bit write or after. -/
structure ChangesUpperOnly (f : SegReg → SegReg) : Prop where
  low : ∀ r, (f r).low = r.low
  write : ∀ p r v, f (SegReg.write p r v) = SegReg.write p (f r) v

section
variable {f : SegReg → SegReg} {e : Word → Word}

/-! ### What `rehide` leaves as it is -/

@[simp] theorem State.rehide_eip (s : State) : (s.rehide f e).eip = s.eip := rfl

@[simp] theorem State.rehide_status (s : State) : (s.rehide f e).status = s.status := rfl

@[simp] theorem State.gpr8_rehide (s : State) (r : Reg8) : (s.rehide f e).gpr8 r = s.gpr8 r := rfl

@[simp] theorem State.gprOw_rehide (s : State) (w : OpWidth) (r : Reg) :
    (s.rehide f e).gprOw w r = s.gprOw w r := rfl

@[simp] theorem State.offset_rehide (s : State) (m : MemOp) : (s.rehide f e).offset m = s.offset m := by
  rcases m with m | m <;> cases m <;> rfl

@[simp] theorem State.readByte_rehide (s : State) (seg : Half) (off : Word) (k : Nat) :
    (s.rehide f e).readByte seg off k = s.readByte seg off k := rfl

@[simp] theorem State.readU8_rehide (s : State) (seg : Half) (off : Word) :
    (s.rehide f e).readU8 seg off = s.readU8 seg off := rfl

@[simp] theorem State.readU16_rehide (s : State) (seg : Half) (off : Word) :
    (s.rehide f e).readU16 seg off = s.readU16 seg off := rfl

@[simp] theorem State.readOw_rehide (s : State) (w : OpWidth) (seg : Half) (off : Word) :
    (s.rehide f e).readOw w seg off = s.readOw w seg off := rfl

/-! ### Updates that commute with `rehide` -/

@[simp] theorem State.setGpr16_rehide (s : State) (r : Reg) (v : Half) :
    (s.rehide f e).setGpr16 r v = (s.setGpr16 r v).rehide f e := rfl

@[simp] theorem State.setGpr8_rehide (s : State) (r : Reg8) (v : Byte) :
    (s.rehide f e).setGpr8 r v = (s.setGpr8 r v).rehide f e := by cases r <;> rfl

@[simp] theorem State.setGprOw_rehide (s : State) (r : Reg) (v : Val) :
    (s.rehide f e).setGprOw r v = (s.setGprOw r v).rehide f e := by cases v <;> rfl

@[simp] theorem State.setStatus_rehide (s : State) (st : Status) :
    (s.rehide f e).setStatus st = (s.setStatus st).rehide f e := rfl

@[simp] theorem State.applyPrefix_rehide (s : State) (p : PrefixByte) :
    (s.rehide f e).applyPrefix p = (s.applyPrefix p).rehide f e := by cases p <;> rfl

@[simp] theorem State.clearPrefixes_rehide (s : State) :
    (s.rehide f e).clearPrefixes = s.clearPrefixes.rehide f e := rfl

@[simp] theorem State.advanceEip_rehide (s : State) (n : Nat) :
    (s.rehide f e).advanceEip n = (s.advanceEip n).rehide f e := rfl

@[simp] theorem State.writeBytes_rehide (s : State) (seg : Half) (off : Word) (k : Nat) (bs : List Byte) :
    (s.rehide f e).writeBytes seg off k bs = (s.writeBytes seg off k bs).map (State.rehide f e) := by
  induction bs generalizing s k with
  | nil => rfl
  | cons b bs ih =>
    have ha : (s.rehide f e).byteAddress seg off k = s.byteAddress seg off k := rfl
    simp only [State.writeBytes, ha]
    cases s.byteAddress seg off k with
    | ok p => exact ih (s.physWrite p b) (k + 1)
    | error x => rfl

@[simp] theorem State.writeOw_rehide (s : State) (seg : Half) (off : Word) (v : Val) :
    (s.rehide f e).writeOw seg off v = (s.writeOw seg off v).map (State.rehide f e) := by
  simp only [State.writeOw_eq, State.writeBytes_rehide]

theorem finish_rehide (s : State) (len : Nat) (r : Host.Outcome State Fault Refusal) :
    finish (s.rehide f e) len (mapNext (State.rehide f e) r) = mapNext (State.rehide f e) (finish s len r) := by
  cases r with
  | next t =>
    by_cases ht : t.status.isFaulted = true <;> simp [mapNext, finish, ht]
  | fault r => rfl
  | refused r => rfl

/-! ### What reads a segment register reads its bits 15:0 -/

variable (hf : ChangesUpperOnly f)
include hf

theorem State.sreg16_rehide (s : State) (r : Sreg) : (s.rehide f e).sreg16 r = s.sreg16 r := by
  rw [State.sreg16, State.rehide, Sregs.get_map, hf.low]
  rfl

theorem State.writeSreg_rehide (s : State) (r : Sreg) (v : Half) :
    (s.rehide f e).writeSreg r v = (s.writeSreg r v).rehide f e := by
  simp only [State.writeSreg, State.writeSregAs, State.rehide, Sregs.get_map, Sregs.map_set, hf.write]

theorem State.segOf_rehide (s : State) (m : MemOp) : (s.rehide f e).segOf m = s.segOf m :=
  State.sreg16_rehide hf s _

theorem takeFault_rehide (s : State) (x : FaultInfo) :
    takeFault (s.rehide f e) x = (takeFault s x).rehide f e := by
  have hr : faultRecord (s.rehide f e) x = faultRecord s x := by
    cases x <;> simp only [faultRecord, State.sreg16_rehide hf, State.rehide_eip]
  rw [takeFault, hr, State.setStatus_rehide, takeFault]

theorem State.readRm8_rehide (s : State) (x : Rm Reg8) : (s.rehide f e).readRm8 x = s.readRm8 x := by
  cases x with
  | reg r => rfl
  | mem m => simp [State.readRm8, State.segOf_rehide hf]

theorem State.readRmOw_rehide (s : State) (w : OpWidth) (x : Rm Reg) :
    (s.rehide f e).readRmOw w x = s.readRmOw w x := by
  cases x with
  | reg r => rfl
  | mem m => simp [State.readRmOw, State.segOf_rehide hf]

theorem State.readRm16_rehide (s : State) (x : Rm Reg) : (s.rehide f e).readRm16 x = s.readRm16 x := by
  cases x with
  | reg r => rfl
  | mem m => simp [State.readRm16, State.segOf_rehide hf]

theorem State.writeRm8_rehide (s : State) (v : Byte) (x : Rm Reg8) :
    (s.rehide f e).writeRm8 v x = (s.writeRm8 v x).map (State.rehide f e) := by
  cases x with
  | reg r => simp [State.writeRm8, Except.map]
  | mem m => simp [State.writeRm8, State.writeU8, State.segOf_rehide hf]

theorem State.writeRmOw_rehide (s : State) (v : Val) (x : Rm Reg) :
    (s.rehide f e).writeRmOw v x = (s.writeRmOw v x).map (State.rehide f e) := by
  cases x with
  | reg r => simp [State.writeRmOw, Except.map]
  | mem m => simp [State.writeRmOw, State.segOf_rehide hf]

theorem State.push_rehide (s : State) (v : Val) :
    (s.rehide f e).push v = (s.push v).map (State.rehide f e) := by
  have hsp : (s.rehide f e).pushedSp v = s.pushedSp v := rfl
  rw [State.push_eq, State.push_eq, hsp, State.sreg16_rehide hf, State.setGpr16_rehide, State.writeBytes_rehide]

/-! ### `exec` -/

/-- A meaning that ends in a write. -/
theorem complete_rehide (s : State) (x : Except FaultInfo State) :
    complete (s.rehide f e) (x.map (State.rehide f e)) = mapNext (State.rehide f e) (complete s x) := by
  cases x with
  | ok t => rfl
  | error y => simp only [Except.map, complete_error, takeFault_rehide hf, mapNext]

/-- A meaning that reads a value and then loads it into a register. -/
theorem complete_load_rehide {α : Type} (s : State) (x : Except FaultInfo α) {u u' : α → State}
    (hu : ∀ v, u' v = (u v).rehide f e) :
    complete (s.rehide f e) (x.map u') = mapNext (State.rehide f e) (complete s (x.map u)) := by
  rw [← complete_rehide hf]
  cases x with
  | ok v => simp only [Except.map, hu]
  | error y => rfl

theorem execPushRm_rehide (w : OpWidth) (src : Rm Reg) (s : State) :
    execPushRm w src (s.rehide f e) = mapNext (State.rehide f e) (execPushRm w src s) := by
  rw [execPushRm, execPushRm, State.readRmOw_rehide hf, ← complete_rehide hf]
  cases s.readRmOw w src with
  | ok v => simp only [Except.bind, State.push_rehide hf]
  | error y => rfl

theorem exec_rehide (i : Instr) (s : State) :
    exec i (s.rehide f e) = mapNext (State.rehide f e) (exec i s) := by
  cases i with
  | prefixOperandSize | prefixAddressSize | halt => rfl
  | movR8Imm dst imm => exact congrArg _ (s.setGpr8_rehide dst imm)
  | movRImm dst imm => exact congrArg _ (s.setGprOw_rehide dst imm)
  | movRm8R8 dst src =>
    simp only [exec, execMovRm8R8, State.gpr8_rehide, State.writeRm8_rehide hf, complete_rehide hf]
  | movRmR w dst src =>
    simp only [exec, execMovRmR, State.gprOw_rehide, State.writeRmOw_rehide hf, complete_rehide hf]
  | movRm16Sreg dst src =>
    simp only [exec, execMovRm16Sreg, State.sreg16_rehide hf, State.writeRmOw_rehide hf, complete_rehide hf]
  | movRm8Imm dst imm => simp only [exec, execMovRm8Imm, State.writeRm8_rehide hf, complete_rehide hf]
  | movRmImm dst imm => simp only [exec, execMovRmImm, State.writeRmOw_rehide hf, complete_rehide hf]
  | movMoffsAl dst =>
    simp only [exec, execMovMoffsAl, State.writeU8, State.sreg16_rehide hf, State.gpr8_rehide,
      State.writeBytes_rehide, complete_rehide hf]
  | movMoffsAx w dst =>
    simp only [exec, execMovMoffsAx, State.sreg16_rehide hf, State.gprOw_rehide, State.writeOw_rehide,
      complete_rehide hf]
  | movR8Rm8 dst src =>
    simp only [exec, execMovR8Rm8, State.readRm8_rehide hf]
    exact complete_load_rehide hf s _ fun v => s.setGpr8_rehide dst v
  | movRRm w dst src =>
    simp only [exec, execMovRRm, State.readRmOw_rehide hf]
    exact complete_load_rehide hf s _ fun v => s.setGprOw_rehide dst v
  | movSregRm16 dst src =>
    simp only [exec, execMovSregRm16, State.readRm16_rehide hf]
    exact complete_load_rehide hf s _ fun v => State.writeSreg_rehide hf s dst.toSreg v
  | movAlMoffs src =>
    simp only [exec, execMovAlMoffs, State.sreg16_rehide hf, State.readU8_rehide]
    exact complete_load_rehide hf s _ fun v => s.setGpr8_rehide .al v
  | movAxMoffs w src =>
    simp only [exec, execMovAxMoffs, State.sreg16_rehide hf, State.readOw_rehide]
    exact complete_load_rehide hf s _ fun v => s.setGprOw_rehide .eax v
  | pushRm w src => exact execPushRm_rehide hf w src s
  | invalidC6 m | invalidC7 m | invalidFF m | invalid8ECs m | invalid8EReg m | invalid8CReg m | unknown op =>
    exact congrArg _ (takeFault_rehide hf s _)

/-! ### The step -/

theorem State.fetchByte_rehide (s : State) (k : Nat) : (s.rehide f e).fetchByte k = s.fetchByte k := by
  simp only [State.fetchByte, State.sreg16_rehide hf, State.rehide_eip, State.readByte_rehide]

theorem State.fetchBytes_rehide (s : State) (k n : Nat) : (s.rehide f e).fetchBytes k n = s.fetchBytes k n := by
  induction n generalizing k with
  | zero => rfl
  | succ n ih => simp only [State.fetchBytes, State.fetchByte_rehide hf, ih]

theorem State.prefixScan_rehide (fuel : Nat) (s : State) (k : Nat) :
    State.prefixScan fuel (s.rehide f e) k = (State.prefixScan fuel s k).mapState (State.rehide f e) := by
  induction fuel generalizing s k with
  | zero => rfl
  | succ fuel ih =>
    simp only [State.prefixScan, State.fetchByte_rehide hf]
    cases s.fetchByte k with
    | error x => rfl
    | ok b =>
      cases hp : prefixOf? b with
      | none => simp only [hp, Scan.mapState]
      | some p => simp only [hp, State.applyPrefix_rehide, ih]

theorem stepRunning_rehide (s : State) :
    stepRunning (s.rehide f e) = mapNext (State.rehide f e) (stepRunning s) := by
  simp only [stepRunning, State.clearPrefixes_rehide, State.prefixScan_rehide hf]
  cases State.prefixScan Config.prefixLimit s.clearPrefixes 0 with
  | hang => rfl
  | raised x => exact congrArg _ (takeFault_rehide hf s x)
  | opcodeAt t k =>
    have haw : (t.rehide f e).addrWidth = t.addrWidth := rfl
    have how : (t.rehide f e).opWidth = t.opWidth := rfl
    simp only [Scan.mapState, State.fetchBytes_rehide hf, haw, how]
    cases t.fetchBytes k Config.maxBody with
    | error x => exact congrArg _ (takeFault_rehide hf s x)
    | ok bs =>
      cases hd : decode t.addrWidth t.opWidth bs with
      | error r => simp only [hd, mapNext]
      | ok ir => simp only [hd, exec_rehide hf, finish_rehide]

/-- A step neither reads nor depends on what `rehide` changes. -/
theorem step_rehide (s : State) : step (s.rehide f e) = mapNext (State.rehide f e) (step s) := by
  simp only [step, State.rehide_status]
  cases s.status with
  | running => exact stepRunning_rehide hf s
  | halted => rfl
  | faulted r => rfl

end

/-! ### The two changes the statements speak of -/

theorem State.forgetUpper_eq_rehide : State.forgetUpper = State.rehide (fun r => ⟨0, r.low⟩) id := rfl

theorem State.withEflags_eq_rehide (v : Word) : State.withEflags v = State.rehide id (fun _ => v) := rfl

theorem changesUpperOnly_forget : ChangesUpperOnly fun r => ⟨0, r.low⟩ where
  low _ := rfl
  write p _ _ := by cases p <;> rfl

theorem changesUpperOnly_id : ChangesUpperOnly id where
  low _ := rfl
  write _ _ _ := rfl

theorem step_forgetUpper (s : State) : step s.forgetUpper = mapNext State.forgetUpper (step s) := by
  rw [State.forgetUpper_eq_rehide]
  exact step_rehide changesUpperOnly_forget s

theorem step_withEflags (v : Word) (s : State) :
    step (s.withEflags v) = mapNext (State.withEflags v) (step s) := by
  rw [State.withEflags_eq_rehide]
  exact step_rehide changesUpperOnly_id s

theorem State.sreg16_eq_extract_full (s : State) (r : Sreg) :
    s.sreg16 r = (SegReg.full (s.sreg.get r)).extractLsb' 0 16 := (extractLow_append _ _).symm

/-- Settles O29: a step commutes with forgetting bits 31:16, so that two states that forget to the same state step to
outcomes that forget to the same outcome. -/
theorem upperSegmentBitsAreNeverRead : Obligations.UpperSegmentBitsAreNeverRead := by
  refine ⟨State.sreg16_eq_extract_full, fun s s' h => ?_⟩
  calc mapNext State.forgetUpper (step s) = step s.forgetUpper := (step_forgetUpper s).symm
    _ = step s'.forgetUpper := by rw [h]
    _ = mapNext State.forgetUpper (step s') := step_forgetUpper s'

end Sys2Proof.Machine
end

section
/-! PROOFS. What a successful decoding yields: that an encoding that faults is one of those R99 and R100 list, and how
many bytes are taken (30_encoding.md R71). -/

namespace Sys2Proof.Machine

/-- Whatever the decoder `d` accepts meets `P`: the value, and the bytes left after it. -/
def Yields {α : Type} (P : α → List Byte → Prop) (d : Decoded α) : Prop :=
  ∀ x rest, d = .ok (x, rest) → P x rest

section
variable {α β : Type} {P : α → List Byte → Prop} {Q : β → List Byte → Prop}

theorem Yields.ok {x : α} {rest : List Byte} (h : P x rest) : Yields P (.ok (x, rest)) := by
  rintro _ _ ⟨⟩
  exact h

theorem Yields.map {d : Decoded α} {g : α × List Byte → β × List Byte} (hd : Yields P d)
    (hg : ∀ x rest, P x rest → Q (g (x, rest)).1 (g (x, rest)).2) : Yields Q (d.map g) := by
  cases d with
  | error r => exact fun _ _ h => nomatch h
  | ok p => exact .ok (hg p.1 p.2 (hd p.1 p.2 rfl))

theorem Yields.bind {d : Decoded α} {k : α × List Byte → Decoded β} (hd : Yields P d)
    (hk : ∀ x rest, P x rest → Yields Q (k (x, rest))) : Yields Q (d.bind k) := by
  cases d with
  | error r => exact fun _ _ h => nomatch h
  | ok p => exact hk p.1 p.2 (hd p.1 p.2 rfl)

theorem yields_true (d : Decoded α) : Yields (fun _ _ => True) d := fun _ _ _ => trivial

end

/-! ### The encodings that fault (30_encoding.md R99, R100) -/

/-- An instruction that raises a fault by its encoding has an encoding that R99 and R100 list. -/
abbrev FaultFits (aw : AddrWidth) (ow : OpWidth) (i : Instr) (_ : List Byte) : Prop :=
  Instr.faults i = true → i.wf aw ow = true

section
variable (aw : AddrWidth) (ow : OpWidth) (m : ModRm) (bs : List Byte)

/-- A decoder that always builds an instruction that does not fault. -/
theorem faultFits_map {α : Type} {d : Decoded α} {g : α × List Byte → Instr × List Byte}
    (hg : ∀ p, Instr.faults (g p).1 = false) : Yields (FaultFits aw ow) (d.map g) :=
  (yields_true d).map fun x rest _ hf => absurd hf (by simp [hg (x, rest)])

theorem sreg_none_cases : ∀ i : BitVec 3, Sreg.ofIndex? i = none → i = 6 ∨ i = 7 := by decide

theorem sregDst_none_cases : ∀ i : BitVec 3, SregDst.ofIndex? i = none → i = 1 ∨ i = 6 ∨ i = 7 := by decide

theorem decode8C_faultFits : Yields (FaultFits aw ow) (decode8C aw m bs) := by
  unfold decode8C
  split
  · exact faultFits_map aw ow fun _ => rfl
  · next hn => exact .ok fun _ => by simpa [Instr.wf] using sreg_none_cases _ hn

theorem decode8E_faultFits : Yields (FaultFits aw ow) (decode8E aw m bs) := by
  unfold decode8E
  split
  · exact faultFits_map aw ow fun _ => rfl
  · next hn =>
    refine .ok fun _ => ?_
    split
    · next h1 => simpa [Instr.wf] using h1
    · next h1 => simpa [Instr.wf] using (sregDst_none_cases _ hn).resolve_left h1

theorem decodeC6_faultFits : Yields (FaultFits aw ow) (decodeC6 aw m bs) := by
  unfold decodeC6
  split
  · exact (yields_true _).bind fun _ _ _ => faultFits_map aw ow fun _ => rfl
  · next h0 => exact .ok fun _ => by simpa [Instr.wf] using h0

theorem decodeC7_faultFits : Yields (FaultFits aw ow) (decodeC7 aw ow m bs) := by
  unfold decodeC7
  split
  · exact (yields_true _).bind fun _ _ _ => faultFits_map aw ow fun _ => rfl
  · next h0 => exact .ok fun _ => by simpa [Instr.wf] using h0

theorem decodeFF_faultFits : Yields (FaultFits aw ow) (decodeFF aw ow m bs) := by
  unfold decodeFF
  split
  · exact faultFits_map aw ow fun _ => rfl
  · next h6 => exact .ok fun _ => by simpa [Instr.wf] using h6

theorem withModRm_faultFits {k : ModRm → List Byte → Decoded Instr}
    (hk : ∀ m bs, Yields (FaultFits aw ow) (k m bs)) : Yields (FaultFits aw ow) (withModRm bs k) :=
  (yields_true _).bind fun _ _ _ => hk _ _

theorem not_mapped_of_opcodeEntry_unmapped :
    ∀ op : Byte, opcodeEntry op = .unmapped → mappedOpcodes.contains op = false := by decide

/-- What decodes to an instruction that faults is the encoding of one. -/
theorem decode_faultFits : Yields (FaultFits aw ow) (decode aw ow bs) := by
  cases bs with
  | nil => exact fun _ _ h => nomatch h
  | cons op bs =>
    simp only [decode]
    cases he : opcodeEntry op with
    | halt | operandSize | addressSize => exact .ok nofun
    | movRm8R8 | movRmR | movR8Rm8 | movRRm =>
      exact withModRm_faultFits aw ow bs fun _ _ => faultFits_map aw ow fun _ => rfl
    | movRm16Sreg => exact withModRm_faultFits aw ow bs (decode8C_faultFits aw ow)
    | movSregRm16 => exact withModRm_faultFits aw ow bs (decode8E_faultFits aw ow)
    | movRm8Imm => exact withModRm_faultFits aw ow bs (decodeC6_faultFits aw ow)
    | movRmImm => exact withModRm_faultFits aw ow bs (decodeC7_faultFits aw ow)
    | groupFF => exact withModRm_faultFits aw ow bs (decodeFF_faultFits aw ow)
    | movAlMoffs | movAxMoffs | movMoffsAl | movMoffsAx | movR8Imm | movRImm =>
      exact faultFits_map aw ow fun _ => rfl
    | unmapped => exact .ok fun _ => by simp only [Instr.wf, not_mapped_of_opcodeEntry_unmapped op he, Bool.not_false]

end

/-! ### The pieces of an instruction, and how many bytes each takes -/

/-- Whatever `d` accepts of the stream `bs`, it takes `n` bytes of it. -/
abbrev Takes {α : Type} (n : Nat) (bs : List Byte) (d : Decoded α) : Prop := Yields (fun _ rest => rest = bs.drop n) d

section
variable {α β : Type} {n k : Nat} {bs : List Byte} {d : Decoded α}

theorem Takes.map {g : α × List Byte → β × List Byte} (hd : Takes n bs d)
    (hg : ∀ p, (g p).2 = p.2 := by exact fun _ => rfl) : Takes n bs (d.map g) :=
  Yields.map hd fun x rest h => (hg (x, rest)).trans h

theorem Takes.bind {f : α × List Byte → Decoded β} (hd : Takes n bs d)
    (hf : ∀ x rest, Takes k rest (f (x, rest))) : Takes (n + k) bs (d.bind f) :=
  Yields.bind hd fun x rest h y rest' hy => by rw [hf x rest y rest' hy, h, List.drop_drop]

end

theorem take1_takes (bs : List Byte) : Takes 1 bs (take1 bs) := by
  match bs with
  | [] => nofun
  | _ :: _ => exact .ok rfl

theorem take2_takes (bs : List Byte) : Takes 2 bs (take2 bs) := by
  match bs with
  | [] | [_] => nofun
  | _ :: _ :: _ => exact .ok rfl

theorem take4_takes (bs : List Byte) : Takes 4 bs (take4 bs) := by
  match bs with
  | [] | [_] | [_, _] | [_, _, _] => nofun
  | _ :: _ :: _ :: _ :: _ => exact .ok rfl

theorem takeVal_takes (ow : OpWidth) (bs : List Byte) : Takes (OpWidth.bytes ow) bs (takeVal ow bs) := by
  cases ow with
  | w16 => exact (take2_takes bs).map
  | w32 => exact (take4_takes bs).map

/-- `AW`/8. -/
def AddrWidth.bytes : AddrWidth → Nat
  | .a16 => 2
  | .a32 => 4

theorem takeMoffs_takes (aw : AddrWidth) (bs : List Byte) : Takes (AddrWidth.bytes aw) bs (takeMoffs aw bs) := by
  cases aw with
  | a16 => exact (take2_takes bs).map
  | a32 => exact (take4_takes bs).map

/-! ### Memory operands: S + D of 30_encoding.md R71 -/

/-- R71 shifts and masks the ModRM byte where the decoder takes its fields. -/
theorem modField_eq_iff : ∀ (b : Byte), (b >>> 6 = 0 ↔ (ModRm.ofByte b).mod = 0) ∧
    (b >>> 6 = 1 ↔ (ModRm.ofByte b).mod = 1) ∧ (b >>> 6 = 2 ↔ (ModRm.ofByte b).mod = 2) ∧
    (b >>> 6 = 3 ↔ (ModRm.ofByte b).mod = 3) := by decide

theorem rmField_eq_iff : ∀ (b : Byte), (b &&& 7 = 4 ↔ (ModRm.ofByte b).rm = 4) ∧
    (b &&& 7 = 5 ↔ (ModRm.ofByte b).rm = 5) ∧ (b &&& 7 = 6 ↔ (ModRm.ofByte b).rm = 6) := by decide

theorem sibBase_eq_ebp_iff : ∀ b : Byte, b &&& 7 = 5 ↔ sibBase b = .ebp := by decide

/-- `r71Operand` in terms of the fields. -/
def operandBytes (aw : AddrWidth) (m : ModRm) (base : Reg) : Nat :=
  match aw with
  | .a16 => if m.mod = 0 then (if m.rm = 6 then 2 else 0) else if m.mod = 1 then 1 else if m.mod = 2 then 2 else 0
  | .a32 =>
    (if m.mod ≠ 3 ∧ m.rm = 4 then 1 else 0) +
    (if m.mod = 0 then (if m.rm = 5 ∨ (m.rm = 4 ∧ base = .ebp) then 4 else 0)
      else if m.mod = 1 then 1 else if m.mod = 2 then 4 else 0)

theorem r71Operand_eq (aw : AddrWidth) (modrm sib : Byte) :
    r71Operand aw modrm sib = operandBytes aw (ModRm.ofByte modrm) (sibBase sib) := by
  obtain ⟨m0, m1, m2, m3⟩ := modField_eq_iff modrm
  obtain ⟨r4, r5, r6⟩ := rmField_eq_iff modrm
  have hb := sibBase_eq_ebp_iff sib
  cases aw with
  | a16 => simp only [r71Operand, operandBytes, m0, m1, m2, r6]
  | a32 => simp only [r71Operand, operandBytes, m0, m1, m2, ne_eq, m3, r4, r5, hb]

theorem operandBytes_le (aw : AddrWidth) (m : ModRm) (base : Reg) : operandBytes aw m base ≤ 5 := by
  cases aw with
  | a16 => simp only [operandBytes]; split_ifs <;> omega
  | a32 => simp only [operandBytes]; split_ifs <;> omega

theorem modField_eq_two {mod : BitVec 2} : mod ≠ 3 → mod ≠ 0 → mod ≠ 1 → mod = 2 := by revert mod; decide

section
variable {m : ModRm}

theorem decodeMem16_takes (h3 : m.mod ≠ 3) (base : Reg) (bs : List Byte) :
    Takes (operandBytes .a16 m base) bs (decodeMem16 m bs) := by
  simp only [decodeMem16, operandBytes]
  split_ifs with h0 h6 h1 h2
  · exact (take2_takes bs).map
  · exact .ok rfl
  · exact (take1_takes bs).map
  · exact (take2_takes bs).map
  · exact absurd (modField_eq_two h3 h0 h1) h2

/-- A SIB byte and the displacement after it. -/
theorem decodeSib_takes (h3 : m.mod ≠ 3) (h4 : m.rm = 4) (sib : Byte) (bs : List Byte) :
    Takes (operandBytes .a32 m (sibBase sib)) (sib :: bs) (decodeSib m.mod sib bs) := by
  have h5 : (4 : BitVec 3) ≠ 5 := by decide
  simp only [decodeSib, operandBytes, h4, h5, ne_eq, h3, not_false_eq_true, true_and, false_or, if_true]
  split_ifs with h0 hb h1 h2
  · exact (take4_takes bs).map
  · exact .ok rfl
  · exact (take1_takes bs).map
  · exact (take4_takes bs).map
  · exact absurd (modField_eq_two h3 h0 h1) h2

theorem decodeMem32_takes (h3 : m.mod ≠ 3) (sib : Byte) (bs : List Byte) :
    Takes (operandBytes .a32 m (sibBase sib)) (sib :: bs) (decodeMem32 m (sib :: bs)) := by
  by_cases h4 : m.rm = 4
  · simp only [decodeMem32, h4, if_true]
    exact decodeSib_takes h3 h4 sib bs
  · simp only [decodeMem32, operandBytes, h4, and_false, false_and, or_false, if_false, Nat.zero_add]
    split_ifs with h0 h5 h1 h2
    · exact (take4_takes _).map
    · exact .ok rfl
    · exact (take1_takes _).map
    · exact (take4_takes _).map
    · exact absurd (modField_eq_two h3 h0 h1) h2

end

/-- An r/m operand takes S + D bytes after the ModRM byte. -/
theorem decodeRm_takes {ρ : Type} (aw : AddrWidth) (regOf : BitVec 3 → ρ) (modrm sib : Byte) (bs : List Byte) :
    Takes (r71Operand aw modrm sib) (sib :: bs) (decodeRm aw regOf (ModRm.ofByte modrm) (sib :: bs)) := by
  rw [r71Operand_eq]
  unfold decodeRm
  split_ifs with h3
  · refine .ok ?_
    cases aw <;> simp [operandBytes, h3]
  · cases aw with
    | a16 => exact (decodeMem16_takes h3 _ _).map
    | a32 => exact (decodeMem32_takes h3 sib bs).map

/-! ### The body: L of 30_encoding.md R71 -/

/-- The opcode bytes of an entry. -/
def OpcodeEntry.opcodes : OpcodeEntry → List Byte
  | .halt => [0x00] | .operandSize => [0x66] | .addressSize => [0x67]
  | .movRm8R8 => [0x88] | .movRmR => [0x89] | .movR8Rm8 => [0x8A] | .movRRm => [0x8B]
  | .movRm16Sreg => [0x8C] | .movSregRm16 => [0x8E]
  | .movAlMoffs => [0xA0] | .movAxMoffs => [0xA1] | .movMoffsAl => [0xA2] | .movMoffsAx => [0xA3]
  | .movR8Imm => [0xB0, 0xB1, 0xB2, 0xB3, 0xB4, 0xB5, 0xB6, 0xB7]
  | .movRImm => [0xB8, 0xB9, 0xBA, 0xBB, 0xBC, 0xBD, 0xBE, 0xBF]
  | .movRm8Imm => [0xC6] | .movRmImm => [0xC7] | .groupFF => [0xFF]
  | .unmapped => []

theorem opcodeEntry_unmapped_or_mem :
    ∀ op : Byte, opcodeEntry op = .unmapped ∨ op ∈ OpcodeEntry.opcodes (opcodeEntry op) := by decide

/-- L of R71 for each entry, `n` being S + D. -/
def OpcodeEntry.length (aw : AddrWidth) (ow : OpWidth) (n : Nat) : OpcodeEntry → Nat
  | .halt => 1
  | .movRm8R8 | .movRmR | .movR8Rm8 | .movRRm | .movRm16Sreg | .movSregRm16 | .groupFF => n + 2
  | .movAlMoffs | .movAxMoffs | .movMoffsAl | .movMoffsAx => AddrWidth.bytes aw + 1
  | .movR8Imm => 2
  | .movRImm => OpWidth.bytes ow + 1
  | .movRm8Imm => n + 1 + 2
  | .movRmImm => n + OpWidth.bytes ow + 2
  | .operandSize | .addressSize | .unmapped => 0

/-- R71's length by opcode is the length of the opcode's entry: both tables, opcode by opcode. -/
theorem r71Length_of_mem {x : OpcodeEntry} {op : Byte} (h : op ∈ OpcodeEntry.opcodes x) (aw : AddrWidth)
    (ow : OpWidth) (modrm sib : Byte) :
    r71Length aw ow op modrm sib = OpcodeEntry.length aw ow (r71Operand aw modrm sib) x := by
  cases x <;> fin_cases h <;> cases aw <;> simp [r71Length, OpcodeEntry.length, AddrWidth.bytes] <;> omega

theorem length_le_maxBody (aw : AddrWidth) (ow : OpWidth) {n : Nat} (hn : n ≤ 5) (x : OpcodeEntry) :
    OpcodeEntry.length aw ow n x ≤ Config.maxBody := by
  have ha : AddrWidth.bytes aw ≤ 4 := by cases aw <;> decide
  have ho : OpWidth.bytes ow ≤ 4 := by cases ow <;> decide
  cases x <;> simp only [OpcodeEntry.length, Config.maxBody] <;> omega

/-- No body is longer than the window a step fetches (30_encoding.md R71). -/
theorem r71Length_le_maxBody {op : Byte} (h : opcodeEntry op ≠ .unmapped) (aw : AddrWidth) (ow : OpWidth)
    (modrm sib : Byte) : r71Length aw ow op modrm sib ≤ Config.maxBody := by
  rw [r71Length_of_mem ((opcodeEntry_unmapped_or_mem op).resolve_left h), r71Operand_eq]
  exact length_le_maxBody aw ow (operandBytes_le aw _ _) _

/-- What `d` accepts of the stream `bs`, unless it faults by its encoding, takes `n` bytes of it. -/
abbrev TakesUnlessFault (n : Nat) (bs : List Byte) (d : Decoded Instr) : Prop :=
  Yields (fun i rest => Instr.faults i = false → rest = bs.drop n) d

theorem Takes.unlessFault {n : Nat} {bs : List Byte} {d : Decoded Instr} (h : Takes n bs d) :
    TakesUnlessFault n bs d := fun i rest hi _ => h i rest hi

section
variable (aw : AddrWidth) (ow : OpWidth) (modrm sib : Byte) (bs : List Byte)

theorem decode8C_takes : TakesUnlessFault (r71Operand aw modrm sib) (sib :: bs)
    (decode8C aw (ModRm.ofByte modrm) (sib :: bs)) := by
  unfold decode8C
  split
  · exact ((decodeRm_takes aw _ modrm sib bs).map).unlessFault
  · exact .ok nofun

theorem decode8E_takes : TakesUnlessFault (r71Operand aw modrm sib) (sib :: bs)
    (decode8E aw (ModRm.ofByte modrm) (sib :: bs)) := by
  unfold decode8E
  split
  · exact ((decodeRm_takes aw _ modrm sib bs).map).unlessFault
  · split <;> exact .ok nofun

theorem decodeC6_takes : TakesUnlessFault (r71Operand aw modrm sib + 1) (sib :: bs)
    (decodeC6 aw (ModRm.ofByte modrm) (sib :: bs)) := by
  unfold decodeC6
  split
  · exact ((decodeRm_takes aw _ modrm sib bs).bind fun _ rest => (take1_takes rest).map).unlessFault
  · exact .ok nofun

theorem decodeC7_takes : TakesUnlessFault (r71Operand aw modrm sib + OpWidth.bytes ow) (sib :: bs)
    (decodeC7 aw ow (ModRm.ofByte modrm) (sib :: bs)) := by
  unfold decodeC7
  split
  · exact ((decodeRm_takes aw _ modrm sib bs).bind fun _ rest => (takeVal_takes ow rest).map).unlessFault
  · exact .ok nofun

theorem decodeFF_takes : TakesUnlessFault (r71Operand aw modrm sib) (sib :: bs)
    (decodeFF aw ow (ModRm.ofByte modrm) (sib :: bs)) := by
  unfold decodeFF
  split
  · exact ((decodeRm_takes aw _ modrm sib bs).map).unlessFault
  · exact .ok nofun

/-- A body that does not fault takes the bytes R71 says: entry by entry, R71's length is one or two more than what the
decoder takes after the opcode, or after the ModRM byte. -/
theorem decode_takes_r71Length {op : Byte} (h66 : op ≠ 0x66) (h67 : op ≠ 0x67) :
    TakesUnlessFault (r71Length aw ow op modrm sib) (op :: modrm :: sib :: bs)
      (decode aw ow (op :: modrm :: sib :: bs)) := by
  rcases opcodeEntry_unmapped_or_mem op with hu | hop
  · simp only [decode, hu]
    exact .ok nofun
  · rw [r71Length_of_mem hop]
    simp only [decode]
    cases he : opcodeEntry op with
    | halt => exact .ok fun _ => rfl
    | operandSize => exact absurd (by simpa [he, OpcodeEntry.opcodes] using hop) h66
    | addressSize => exact absurd (by simpa [he, OpcodeEntry.opcodes] using hop) h67
    | movRm8R8 | movRmR | movR8Rm8 | movRRm =>
      exact ((decodeRm_takes aw _ modrm sib bs).map).unlessFault
    | movRm16Sreg => exact decode8C_takes aw modrm sib bs
    | movSregRm16 => exact decode8E_takes aw modrm sib bs
    | movRm8Imm => exact decodeC6_takes aw modrm sib bs
    | movRmImm => exact decodeC7_takes aw ow modrm sib bs
    | groupFF => exact decodeFF_takes aw ow modrm sib bs
    | movAlMoffs | movAxMoffs | movMoffsAl | movMoffsAx =>
      exact ((takeMoffs_takes aw (modrm :: sib :: bs)).map).unlessFault
    | movR8Imm => exact ((take1_takes (modrm :: sib :: bs)).map).unlessFault
    | movRImm => exact ((takeVal_takes ow (modrm :: sib :: bs)).map).unlessFault
    | unmapped => exact .ok nofun

end

end Sys2Proof.Machine
end

section
/-! PROOFS. What an instruction, a step and a run leave alone: EFLAGS, the mode, CS, and the invariant of the block
(10_state.md R29, R32, R33, R35). -/

namespace Sys2Proof.Machine

/-! ### An instruction -/

/-- No destination of opcode 0x8E is CS (10_state.md R29). -/
theorem Sregs.cs_set_toSreg (g : Sregs) (d : SregDst) (v : SegReg) : (g.set d.toSreg v).cs = g.cs := by
  cases d <;> rfl

/-- Taking a fault changes the status alone, to the record. -/
theorem takeFault_eq (s : State) (x : FaultInfo) :
    takeFault s x = { s with status := .faulted (faultRecord s x) } := rfl

section
variable {s t : State} {i : Instr}

theorem Effect.eflags_mode_eip (h : Effect s i t) : t.eflags = s.eflags ∧ t.mode = s.mode ∧ t.eip = s.eip := by
  cases h with
  | prefixFlag p => simp
  | halt | move | segment | trap | invalid | unknown => exact ⟨rfl, rfl, rfl⟩

theorem Effect.cs (h : Effect s i t) : t.sreg.cs = s.sreg.cs := by
  cases h with
  | prefixFlag p => simp
  | segment d x v => exact Sregs.cs_set_toSreg s.sreg d _
  | halt | move | trap | invalid | unknown => rfl

theorem Effect.sreg (h : Effect s i t) (hi : ∀ d x, i ≠ .movSregRm16 d x) : t.sreg = s.sreg := by
  cases h with
  | prefixFlag p => simp
  | segment d x v => exact absurd rfl (hi d x)
  | halt | move | trap | invalid | unknown => rfl

theorem Effect.flags (h : Effect s i t) (hi : i.isPrefix = false) : t.opsz = s.opsz ∧ t.adsz = s.adsz := by
  cases h with
  | prefixFlag p => cases p <;> cases hi
  | halt | move | segment | trap | invalid | unknown => exact ⟨rfl, rfl⟩

theorem Effect.status (h : Effect s i t) :
    t.status = s.status ∨ (i = .halt ∧ t.status = .halted) ∨
      ∃ r, t.status = .faulted r ∧ t = { s with status := .faulted r } := by
  cases h with
  | prefixFlag p => exact .inl (by simp)
  | move | segment => exact .inl rfl
  | halt => exact .inr (.inl ⟨rfl, rfl⟩)
  | trap | invalid | unknown => exact .inr (.inr ⟨_, rfl, takeFault_eq _ _⟩)

/-- An encoding that faults takes its fault. -/
theorem Effect.isFaulted (h : Effect s i t) (hi : Instr.faults i = true) : t.status.isFaulted = true := by
  cases h with
  | prefixFlag p => cases p <;> cases hi
  | halt | segment => cases hi
  | move g m hp hh hf => rw [hf] at hi; cases hi
  | trap | invalid | unknown => rfl

theorem Effect.memory_wf (h : Effect s i t) (hs : Memory.wf s.mem = true) : Memory.wf t.mem = true := by
  cases h with
  | prefixFlag p => simpa using hs
  | move g m hp hh hf hwf => exact hwf hs
  | halt | segment | trap | invalid | unknown => exact hs

end

/-- Settles O26: field by field, over the effects an instruction can have. -/
theorem noInstructionChangesSystemState : Obligations.NoInstructionChangesSystemState := by
  intro i s t h
  have he := exec_effect h
  obtain ⟨hfl, hm, hip⟩ := he.eflags_mode_eip
  exact ⟨hfl, hm, hip, he.cs, he.flags, he.sreg, he.status⟩

/-! ### A step: EFLAGS, the mode and CS -/

/-- The part of the state that no step changes. -/
structure KeepsSystem (s t : State) : Prop where
  eflags : t.eflags = s.eflags
  mode   : t.mode = s.mode
  cs     : t.sreg.cs = s.sreg.cs

theorem KeepsSystem.refl (s : State) : KeepsSystem s s := ⟨rfl, rfl, rfl⟩

theorem KeepsSystem.trans {s t u : State} (h : KeepsSystem s t) (h' : KeepsSystem t u) : KeepsSystem s u :=
  ⟨h'.eflags.trans h.eflags, h'.mode.trans h.mode, h'.cs.trans h.cs⟩

theorem step_keepsSystem {s t : State} (h : step s = .next t) : KeepsSystem s t := by
  obtain ⟨-, ⟨-, rfl⟩ | ⟨-, o, a, k, bs, i, rest, -, -, -, v, hv, rfl⟩⟩ := step_cases h
  · exact ⟨rfl, rfl, rfl⟩
  · have he := exec_effect hv
    obtain ⟨hfl, hm, -⟩ := he.eflags_mode_eip
    split
    · exact ⟨rfl, rfl, rfl⟩
    · exact ⟨hfl, hm, he.cs⟩

/-- Settles O27: two of the fields of `KeepsSystem`. -/
theorem stepKeepsModeAndCs : Obligations.StepKeepsModeAndCs :=
  fun _ _ h => ⟨(step_keepsSystem h).mode, (step_keepsSystem h).cs⟩

/-- Settles O28: EFLAGS is a field of `KeepsSystem`, and one of those that `rehide` may change under a step. -/
theorem eflagsIsNeverReadOrWritten : Obligations.EflagsIsNeverReadOrWritten :=
  ⟨State.launch_eflags, fun _ _ h => (step_keepsSystem h).eflags, fun s v => step_withEflags v s⟩

/-! ### A block that has ended takes no step -/

theorem stepRunning_ne_runEnded (s : State) : stepRunning s ≠ .fault .runEnded := by
  unfold stepRunning
  split
  · nofun
  · nofun
  · next t k _ =>
    split
    · nofun
    · split
      · nofun
      · next i rest _ =>
        obtain ⟨v, hv⟩ := exec_next i t
        rw [hv, finish]
        split <;> nofun

/-- Settles O32: a running block's step is never `runEnded`, and any other block's is nothing else. -/
theorem noStepAfterTheRunEnded : Obligations.NoStepAfterTheRunEnded := by
  intro s
  unfold step
  cases s.status with
  | running => exact ⟨fun h => absurd h (stepRunning_ne_runEnded s), fun h => absurd rfl h⟩
  | halted | faulted r => exact ⟨nofun, fun _ => rfl⟩

/-! ### The invariant -/

/-- Settles O47: the store is canonical by hypothesis, and a launched block is Running. -/
theorem launchSatisfiesInvariant : Obligations.LaunchSatisfiesInvariant := by
  have launch : ∀ p m, Memory.wf m = true → Inv (State.launch p m) := fun _ _ hm => ⟨hm, nofun, nofun⟩
  exact ⟨launch Launch.default [] rfl, launch⟩

/-- A fault taken by a block whose record of it fits keeps the invariant. -/
theorem Inv.setStatus_faulted {s : State} (hs : Inv s) {r : FaultRecord} (hr : r.Fits s) :
    Inv (s.setStatus (.faulted r)) where
  memory := hs.memory
  halted := nofun
  record := by
    rintro _ ⟨⟩
    exact hr

/-- The record of a fault that an instruction takes in Real mode fits the state. -/
theorem Effect.record_fits {s t : State} {i : Instr} (h : Effect s i t) (hm : s.mode = .real)
    (hrun : s.status = .running) (hwf : Instr.faults i = true → ∃ aw ow, i.wf aw ow = true) {r : FaultRecord}
    (hr : t.status = .faulted r) : r.Fits s := by
  cases h with
  | prefixFlag p => rw [State.applyPrefix_status, hrun] at hr; cases hr
  | halt => cases hr
  | move | segment => cases hrun.symm.trans hr
  | trap _ h => exact absurd hm h
  | invalid op reg hp hf hw =>
    cases hr
    obtain ⟨aw, ow, hi⟩ := hwf hf
    exact ⟨rfl, rfl, hm, rfl, op, reg, rfl, rfl, hw aw ow hi⟩
  | unknown op =>
    cases hr
    obtain ⟨aw, ow, hi⟩ := hwf rfl
    exact ⟨rfl, rfl, hm, rfl, rfl, op, rfl, by simpa [Instr.wf] using hi⟩

theorem Status.exists_of_isFaulted {st : Status} (h : st.isFaulted = true) : ∃ r, st = .faulted r := by
  cases st with
  | running | halted => cases h
  | faulted r => exact ⟨r, rfl⟩

/-- The end of an instruction that does not fault keeps the invariant. -/
theorem Inv.advanceEip {s : State} (hm : s.mode = .real) (hmem : Memory.wf s.mem = true)
    (hf : ¬s.status.isFaulted = true) (n : Nat) : Inv (s.advanceEip n) where
  memory := hmem
  halted _ := hm
  record r hr := absurd (by rw [← State.advanceEip_status s n, hr]; rfl) hf

theorem step_keeps_inv {s t : State} (hs : Inv s) (h : step s = .next t) : Inv t := by
  obtain ⟨hrun, ⟨hm, rfl⟩ | ⟨hm, o, a, k, bs, i, rest, -, -, hd, v, hv, rfl⟩⟩ := step_cases h
  · exact hs.setStatus_faulted ⟨rfl, rfl, hm, rfl, rfl, rfl⟩
  · have he := exec_effect hv
    split
    · next hf =>
      obtain ⟨r, hr⟩ := Status.exists_of_isFaulted hf
      rw [hr]
      exact hs.setStatus_faulted
        (he.record_fits hm hrun (fun hi => ⟨_, _, decode_faultFits _ _ _ _ _ hd hi⟩) hr)
    · next hf =>
      obtain ⟨-, hvm, -⟩ := he.eflags_mode_eip
      exact Inv.advanceEip (hvm.trans hm) (he.memory_wf hs.memory) hf _

/-- Settles O53: every step keeps the invariant and the three fields, so a run does. -/
theorem runKeepsInvariantModeCsAndEflags : Obligations.RunKeepsInvariantModeCsAndEflags := by
  intro n s t hs h
  have hstep : ∀ u v, Inv u ∧ KeepsSystem s u → step u = .next v → Inv v ∧ KeepsSystem s v :=
    fun _ _ ⟨hu, hk⟩ hv => ⟨step_keeps_inv hu hv, hk.trans (step_keepsSystem hv)⟩
  obtain ⟨⟨ht, hk⟩, -⟩ := State.run_ended_induction hstep ⟨hs, KeepsSystem.refl s⟩ h
  exact ⟨ht, hk.mode, hk.cs, hk.eflags⟩

end Sys2Proof.Machine
end

section
/-! PROOFS. The step from the raw bytes at CS:EIP: where the scan stops, what the window holds, and by how much EIP
moves (10_state.md R30, R31; 30_encoding.md R71 to R75). -/

namespace Sys2Proof.Machine

/-! ### Bytes standing in the stream -/

/-- The bytes `bs` stand `k` bytes after the instruction start and on. -/
def CodeFrom (s : State) (k : Nat) (bs : List Byte) : Prop :=
  ∀ j (h : j < bs.length), s.codeByte (k + j) = bs[j]

theorem codeFrom_zero_of_codeAt {s : State} {bs : List Byte} (h : CodeAt s bs) : CodeFrom s 0 bs := fun j hj => by
  rw [Nat.zero_add]
  exact h j hj

section
variable {s : State} {k : Nat}

theorem CodeFrom.head {b : Byte} {bs : List Byte} (h : CodeFrom s k (b :: bs)) : s.codeByte k = b :=
  h 0 (Nat.zero_lt_succ _)

theorem CodeFrom.tail {b : Byte} {bs : List Byte} (h : CodeFrom s k (b :: bs)) : CodeFrom s (k + 1) bs :=
  fun j hj => by
    rw [Nat.add_assoc, Nat.add_comm 1]
    exact h (j + 1) (Nat.succ_lt_succ hj)

theorem CodeFrom.drop {as bs : List Byte} (h : CodeFrom s k (as ++ bs)) : CodeFrom s (k + as.length) bs := by
  induction as generalizing k with
  | nil => exact h
  | cons a as ih =>
    have := ih h.tail
    rwa [Nat.add_assoc, Nat.add_comm 1] at this

/-- The bytes of the stream do not depend on `opsz` and `adsz`. -/
theorem CodeFrom.applyPrefix {bs : List Byte} (h : CodeFrom s k bs) (p : PrefixByte) :
    CodeFrom (s.applyPrefix p) k bs := by cases p <;> exact h

/-! ### The scan -/

theorem prefixOf?_toByte (p : PrefixByte) : prefixOf? p.toByte = some p := by cases p <;> rfl

theorem prefixOf?_eq_none {b : Byte} (h66 : b ≠ 0x66) (h67 : b ≠ 0x67) : prefixOf? b = none := by
  rw [prefixOf?, if_neg h66, if_neg h67]

/-- The scan sets the flags of a run of prefixes and stops at the byte after it (30_encoding.md R73, R75). -/
theorem State.prefixScan_run {ps : List PrefixByte} {b : Byte} {bs : List Byte} {fuel : Nat} (hm : s.mode = .real)
    (hfuel : ps.length < fuel) (h66 : b ≠ 0x66) (h67 : b ≠ 0x67)
    (hc : CodeFrom s k (ps.map PrefixByte.toByte ++ b :: bs)) :
    State.prefixScan fuel s k = .opcodeAt (ps.foldl State.applyPrefix s) (k + ps.length) := by
  induction ps generalizing s k fuel with
  | nil =>
    obtain ⟨fuel, rfl⟩ := Nat.exists_eq_succ_of_ne_zero (Nat.ne_zero_of_lt hfuel)
    exact State.prefixScan_stop hm (by rw [hc.head, prefixOf?_eq_none h66 h67]) fuel
  | cons p ps ih =>
    obtain ⟨fuel, rfl⟩ := Nat.exists_eq_succ_of_ne_zero (Nat.ne_zero_of_lt hfuel)
    have hp : prefixOf? (s.codeByte k) = some p := by rw [CodeFrom.head hc, prefixOf?_toByte]
    rw [State.prefixScan_prefix hm hp, ih (by simpa using hm) (Nat.lt_of_succ_lt_succ hfuel)
      ((CodeFrom.tail hc).applyPrefix p), List.length_cons, List.foldl_cons, Nat.add_right_comm, Nat.add_assoc]

/-! ### The window -/

/-- The window starts with the bytes that stand where it is read. -/
theorem State.fetchBytes_codeFrom {bs : List Byte} {n : Nat} (hm : s.mode = .real) (hc : CodeFrom s k bs) :
    ∃ tail, tail.length = n ∧ s.fetchBytes k (bs.length + n) = .ok (bs ++ tail) := by
  induction bs generalizing k with
  | nil =>
    refine ⟨(List.range n).map fun j => s.codeByte (k + j), by simp, ?_⟩
    simpa using State.fetchBytes_real hm k n
  | cons b bs ih =>
    obtain ⟨tail, hlen, htail⟩ := ih hc.tail
    refine ⟨tail, hlen, ?_⟩
    have hb : s.fetchByte k = .ok b := by rw [State.fetchByte_real hm]; exact congrArg _ hc.head
    simp [List.length_cons, Nat.add_right_comm, State.fetchBytes, hb, htail, Except.map]

end

/-! ### The step -/

/-- The inversion of `step` where the bytes at CS:EIP are known: `step_cases` with the scan and the window
worked out. -/
theorem step_code_cases {s t : State} {ps : List PrefixByte} {op modrm sib : Byte} (hm : s.mode = .real)
    (hps : ps.length < Config.prefixLimit) (h66 : op ≠ 0x66) (h67 : op ≠ 0x67)
    (hc : CodeAt s (ps.map PrefixByte.toByte ++ [op, modrm, sib])) (h : step s = .next t) :
    ∃ tail i rest v, tail.length = 8 ∧
      decode (s.afterPrefixes ps).addrWidth (s.afterPrefixes ps).opWidth (op :: modrm :: sib :: tail) =
        .ok (i, rest) ∧
      exec i (s.afterPrefixes ps) = .next v ∧
      t = if v.status.isFaulted then s.setStatus v.status
        else v.advanceEip (ps.length + ((op :: modrm :: sib :: tail).length - rest.length)) := by
  obtain ⟨-, ⟨hm', -⟩ | ⟨-, o, a, k, bs, i, rest, hscan, hfetch, hdec, v, hv, ht⟩⟩ := step_cases h
  · exact absurd hm hm'
  have hcode := codeFrom_zero_of_codeAt hc
  have hrun := State.prefixScan_run (s := s.clearPrefixes) hm hps h66 h67 hcode
  obtain ⟨hu, rfl⟩ := Scan.opcodeAt.inj (hrun.symm.trans hscan)
  have hbody : CodeFrom s (0 + ps.length) [op, modrm, sib] := by simpa using hcode.drop
  obtain ⟨tail, htail, hwin⟩ :=
    State.fetchBytes_codeFrom (s := { s with opsz := o, adsz := a }) (n := 8) hm hbody
  obtain rfl := Except.ok.inj (hfetch.symm.trans hwin)
  have hafter : s.afterPrefixes ps = { s with opsz := o, adsz := a } := hu
  rw [hafter, ← Nat.zero_add ps.length]
  exact ⟨tail, i, rest, v, htail, hdec, hv, ht⟩

theorem State.eip_afterPrefixes (s : State) (ps : List PrefixByte) : (s.afterPrefixes ps).eip = s.eip := by
  have hfold : ∀ u : State, (ps.foldl State.applyPrefix u).eip = u.eip := by
    induction ps with
    | nil => exact fun _ => rfl
    | cons p ps ih => exact fun u => (ih (u.applyPrefix p)).trans (u.applyPrefix_eip p)
  exact hfold s.clearPrefixes

/-- Settles O38: a step that completes ran an instruction that does not fault, and the decoder took R71's bytes for it
out of the window of eleven. -/
theorem eipAdvancesByTheInstructionLength : Obligations.EipAdvancesByTheInstructionLength := by
  intro s t ps op modrm sib hm hps h66 h67 hc h hnf
  obtain ⟨tail, i, rest, v, htail, hdec, hv, rfl⟩ := step_code_cases hm hps h66 h67 hc h
  have he := exec_effect hv
  have hvf : ¬v.status.isFaulted = true := by
    intro hf
    rw [if_pos hf, State.setStatus_status, hf] at hnf
    cases hnf
  have hi : Instr.faults i = false := by
    cases hif : Instr.faults i with
    | false => rfl
    | true => exact absurd (he.isFaulted hif) hvf
  have hop : opcodeEntry op ≠ .unmapped := by
    intro hu
    simp only [decode, hu] at hdec
    cases hdec
    cases hi
  have hrest := decode_takes_r71Length _ _ modrm sib tail h66 h67 i rest hdec hi
  have hle := r71Length_le_maxBody hop (s.afterPrefixes ps).addrWidth (s.afterPrefixes ps).opWidth modrm sib
  obtain ⟨-, -, hip⟩ := he.eflags_mode_eip
  rw [if_neg hvf, State.advanceEip_eip, hip, State.eip_afterPrefixes, hrest, List.length_drop]
  congr 3
  simp only [List.length_cons, htail, Config.maxBody] at hle ⊢
  omega

end Sys2Proof.Machine
end

section
/-! PROOFS. The views of the registers: what each reads after a write through it or through another
(10_state.md R22 to R25), and the host's accessors by number (R41). -/

namespace Sys2Proof.Machine

/-! ### The 32-bit and 16-bit views -/

/-- Settles O1: the rules of the register file, collected. -/
theorem wideViewsReadAndWriteTheirBits : Obligations.WideViewsReadAndWriteTheirBits := fun s r =>
  ⟨rfl, fun v => ⟨s.gpr32_setGpr32_self r v, fun _ h => s.gpr32_setGpr32_of_ne v h⟩,
    fun v => ⟨s.gpr32_setGpr16_self r v, s.gpr16_setGpr16_self r v, fun _ h => s.gpr32_setGpr16_of_ne v h⟩⟩

theorem State.gpr16_setGpr16_of_ne (s : State) {r r' : Reg} (v : Half) (h : r' ≠ r) :
    (s.setGpr16 r v).gpr16 r' = s.gpr16 r' := by
  rw [State.gpr16, s.gpr32_setGpr16_of_ne v h, State.gpr16]

/-! ### The 8-bit views -/

/-- The two low bytes of a register whose bits 7:0 were replaced. -/
theorem extract_replaceLow (old : Word) (new : Byte) :
    (old.extractLsb' 8 24 ++ new : Word).extractLsb' 0 8 = new ∧
    (old.extractLsb' 8 24 ++ new : Word).extractLsb' 8 8 = old.extractLsb' 8 8 := by
  refine ⟨BitVec.extractLsb'_append_eq_right, ?_⟩
  rw [BitVec.extractLsb'_append_eq_of_le (by decide)]
  ext i hi
  simpa using fun _ => by omega

/-- The two low bytes of a register whose bits 15:8 were replaced. -/
theorem extract_replaceHigh (old : Word) (new : Byte) :
    (old.extractLsb' 16 16 ++ (new ++ old.extractLsb' 0 8 : Half) : Word).extractLsb' 0 8 = old.extractLsb' 0 8 ∧
    (old.extractLsb' 16 16 ++ (new ++ old.extractLsb' 0 8 : Half) : Word).extractLsb' 8 8 = new := by
  constructor <;> rw [BitVec.extractLsb'_append_eq_of_add_le (by decide)]
  · exact BitVec.extractLsb'_append_eq_right
  · exact BitVec.extractLsb'_append_eq_left

theorem State.gpr32_setGpr8_low (s : State) {r : Reg8} (v : Byte) (h : Reg8.isHigh r = false) :
    (s.setGpr8 r v).gpr32 (Reg8.parent r) = (s.gpr32 (Reg8.parent r)).extractLsb' 8 24 ++ v := by
  simp [State.setGpr8, h]

theorem State.gpr32_setGpr8_high (s : State) {r : Reg8} (v : Byte) (h : Reg8.isHigh r = true) :
    (s.setGpr8 r v).gpr32 (Reg8.parent r) =
      (s.gpr32 (Reg8.parent r)).extractLsb' 16 16 ++ (v ++ (s.gpr32 (Reg8.parent r)).extractLsb' 0 8 : Half) := by
  simp [State.setGpr8, h]

theorem State.gpr8_low (s : State) {r : Reg8} (h : Reg8.isHigh r = false) :
    s.gpr8 r = (s.gpr32 (Reg8.parent r)).extractLsb' 0 8 := by simp [State.gpr8, h]

theorem State.gpr8_high (s : State) {r : Reg8} (h : Reg8.isHigh r = true) :
    s.gpr8 r = (s.gpr32 (Reg8.parent r)).extractLsb' 8 8 := by simp [State.gpr8, h]

theorem State.gpr8_setGpr8_self (s : State) (r : Reg8) (v : Byte) : (s.setGpr8 r v).gpr8 r = v := by
  cases h : Reg8.isHigh r with
  | false => rw [State.gpr8_low _ h, s.gpr32_setGpr8_low v h, (extract_replaceLow _ v).1]
  | true => rw [State.gpr8_high _ h, s.gpr32_setGpr8_high v h, (extract_replaceHigh _ v).2]

/-- An 8-bit view is its register and which of the two bytes it is. -/
theorem reg8_eq_of_parent {r r' : Reg8} :
    Reg8.parent r = Reg8.parent r' → Reg8.isHigh r = Reg8.isHigh r' → r = r' := by
  cases r <;> cases r' <;> decide

/-- Two views of one register are its two different bytes. -/
theorem State.gpr8_setGpr8_of_ne (s : State) {r r' : Reg8} (v : Byte) (h : r' ≠ r) :
    (s.setGpr8 r v).gpr8 r' = s.gpr8 r' := by
  by_cases hp : Reg8.parent r' = Reg8.parent r
  · cases hr : Reg8.isHigh r <;> cases hr' : Reg8.isHigh r'
    · exact absurd (reg8_eq_of_parent hp (hr'.trans hr.symm)) h
    · rw [State.gpr8_high _ hr', State.gpr8_high _ hr', hp, s.gpr32_setGpr8_low v hr, (extract_replaceLow _ v).2]
    · rw [State.gpr8_low _ hr', State.gpr8_low _ hr', hp, s.gpr32_setGpr8_high v hr, (extract_replaceHigh _ v).1]
    · exact absurd (reg8_eq_of_parent hp (hr'.trans hr.symm)) h
  · simp only [State.gpr8, s.gpr32_setGpr8_of_ne v hp]

theorem parent_ofIndex : ∀ j : BitVec 3,
    Reg8.parent (Reg8.ofIndex j) = if j.toNat < 4 then Reg.ofIndex j else Reg.ofIndex (j - 4) := by decide

theorem isHigh_ofIndex : ∀ j : BitVec 3, Reg8.isHigh (Reg8.ofIndex j) = !decide (j.toNat < 4) := by decide

/-- Settles O2: the register of the statement is the view's `parent`, and its two forms are the two values of
`isHigh`. -/
theorem byteViewWriteChangesOneByte : Obligations.ByteViewWriteChangesOneByte := by
  intro s j v
  simp only [← parent_ofIndex]
  refine ⟨?_, s.gpr8_setGpr8_self _ v, fun _ h => s.gpr32_setGpr8_of_ne v h⟩
  split
  · next hj => exact s.gpr32_setGpr8_low v (by simp [isHigh_ofIndex, hj])
  · next hj => exact s.gpr32_setGpr8_high v (by simp [isHigh_ofIndex, hj])

/-! ### The segment registers -/

theorem SegReg.full_ofFull (x : Word) : SegReg.full (SegReg.ofFull x) = x := BitVec.extractLsb'_append_extractLsb'

theorem State.sreg16_writeSreg_self (s : State) (r : Sreg) (v : Half) : (s.writeSreg r v).sreg16 r = v := by
  simp [State.sreg16, SegReg.write]

theorem State.sreg16_writeSreg_of_ne (s : State) {r r' : Sreg} (v : Half) (h : r' ≠ r) :
    (s.writeSreg r v).sreg16 r' = s.sreg16 r' := by
  simp [State.sreg16, Sregs.get_set_of_ne _ _ h]

/-! ### The accessors by number: which indices they take -/

section
variable (s : State) {v : RegView} {i : Nat}

theorem State.getView_of_count_le (h : v.count ≤ i) : s.getView v i = .error .programmingError := if_pos h

theorem State.getView_error_iff : s.getView v i = .error .programmingError ↔ ¬v.InRange i := by
  rw [← RegView.count_le_iff]
  unfold State.getView
  split <;> simp [*]

theorem State.setView_error_iff (x : Word) : s.setView v i x = .error .programmingError ↔ ¬v.InRange i := by
  rw [← RegView.count_le_iff]
  unfold State.setView
  split <;> simp [*]

/-- The status is looked at after the index. -/
theorem State.readReg_error_iff : s.readReg v i = .error .programmingError ↔ ¬v.InRange i := by
  rw [← s.getView_error_iff, State.readReg]
  cases s.getView v i with
  | error e => simp
  | ok x => cases s.status <;> simp

theorem State.exists_setView (x : Word) (h : v.InRange i) : ∃ t, s.setView v i x = .ok t := by
  unfold State.setView
  rw [if_neg (by rwa [RegView.count_le_iff, not_not])]
  exact ⟨_, rfl⟩

end

/-! ### The accessors by number: what a write leaves -/

theorem setWidth_extract8 (x : Word) : (x.extractLsb' 0 8).setWidth 32 = x &&& 0xFF := by
  apply BitVec.eq_of_toNat_eq
  have hlt : x.toNat % 256 < 4294967296 := by omega
  simpa [Nat.mod_eq_of_lt hlt] using (Nat.and_two_pow_sub_one_eq_mod x.toNat 8).symm

theorem setWidth_extract16 (x : Word) : (x.extractLsb' 0 16).setWidth 32 = x &&& 0xFFFF := by
  apply BitVec.eq_of_toNat_eq
  have hlt : x.toNat % 65536 < 4294967296 := by omega
  simpa [Nat.mod_eq_of_lt hlt] using (Nat.and_two_pow_sub_one_eq_mod x.toNat 16).symm

theorem and_allBits (x : Word) : x &&& 0xFFFFFFFF = x := BitVec.and_allOnes

theorem reg_ofNat_inj :
    ∀ i < 8, ∀ j < 8, Reg.ofIndex (BitVec.ofNat 3 j) = Reg.ofIndex (BitVec.ofNat 3 i) → j = i := by
  decide

theorem reg8_ofNat_inj :
    ∀ i < 8, ∀ j < 8, Reg8.ofIndex (BitVec.ofNat 3 j) = Reg8.ofIndex (BitVec.ofNat 3 i) → j = i := by
  decide

theorem sreg_ofNat_inj : ∀ i < 6, ∀ j < 6, sregOfNat j = sregOfNat i → j = i := by decide

section
variable {s t : State} {v : RegView} {i : Nat} {x : Word}

theorem State.count_le_of_setView (h : s.setView v i x = .ok t) : ¬v.count ≤ i := by
  intro hc
  unfold State.setView at h
  rw [if_pos hc] at h
  cases h

theorem State.setView_keeps (h : s.setView v i x = .ok t) :
    t.mem = s.mem ∧ t.mode = s.mode ∧ t.opsz = s.opsz ∧ t.adsz = s.adsz ∧ t.status = s.status := by
  unfold State.setView at h
  rw [if_neg (State.count_le_of_setView h)] at h
  obtain rfl := Except.ok.inj h
  cases v with
  | gpr8 => simp
  | gpr16 | gpr32 | sreg | sreg16 | eip | ip | eflags | flags16 => exact ⟨rfl, rfl, rfl, rfl, rfl⟩

theorem State.getView_setView_self (h : s.setView v i x = .ok t) : t.getView v i = .ok (x &&& v.mask) := by
  have hi := State.count_le_of_setView h
  unfold State.setView at h
  rw [if_neg hi] at h
  obtain rfl := Except.ok.inj h
  unfold State.getView
  rw [if_neg hi]
  refine congrArg Except.ok ?_
  cases v with
  | gpr8 => exact (congrArg (BitVec.setWidth 32) (s.gpr8_setGpr8_self _ _)).trans (setWidth_extract8 x)
  | gpr16 => exact (congrArg (BitVec.setWidth 32) (s.gpr16_setGpr16_self _ _)).trans (setWidth_extract16 x)
  | gpr32 => exact (s.gpr32_setGpr32_self _ x).trans (and_allBits x).symm
  | sreg =>
    exact ((congrArg SegReg.full (s.sreg.get_set_self _ _)).trans (SegReg.full_ofFull x)).trans (and_allBits x).symm
  | sreg16 => exact (congrArg (BitVec.setWidth 32) (s.sreg16_writeSreg_self _ _)).trans (setWidth_extract16 x)
  | eip | eflags => exact (and_allBits x).symm
  | ip | flags16 => exact (congrArg (BitVec.setWidth 32) (extractLow_append _ _)).trans (setWidth_extract16 x)

theorem State.getView_setView_of_ne (h : s.setView v i x = .ok t) {j : Nat} (hj : j ≠ i) :
    t.getView v j = s.getView v j := by
  have hi := State.count_le_of_setView h
  by_cases hc : v.count ≤ j
  · rw [t.getView_of_count_le hc, s.getView_of_count_le hc]
  · unfold State.setView at h
    rw [if_neg hi] at h
    obtain rfl := Except.ok.inj h
    unfold State.getView
    rw [if_neg hc, if_neg hc]
    refine congrArg Except.ok ?_
    rw [not_le] at hi hc
    cases v with
    | gpr8 => exact congrArg (BitVec.setWidth 32) (s.gpr8_setGpr8_of_ne _ fun e => hj (reg8_ofNat_inj i hi j hc e))
    | gpr16 => exact congrArg (BitVec.setWidth 32) (s.gpr16_setGpr16_of_ne _ fun e => hj (reg_ofNat_inj i hi j hc e))
    | gpr32 => exact s.gpr32_setGpr32_of_ne _ fun e => hj (reg_ofNat_inj i hi j hc e)
    | sreg => exact congrArg SegReg.full (s.sreg.get_set_of_ne _ fun e => hj (sreg_ofNat_inj i hi j hc e))
    | sreg16 =>
      exact congrArg (BitVec.setWidth 32) (s.sreg16_writeSreg_of_ne _ fun e => hj (sreg_ofNat_inj i hi j hc e))
    | eip | ip | eflags | flags16 => exact absurd ((Nat.lt_one_iff.1 hc).trans (Nat.lt_one_iff.1 hi).symm) hj

end

/-- Settles O49: the three accessors test the range alone, and a write in range obeys the rules of its view. -/
theorem hostIndexOutOfRangeIsProgrammingError : Obligations.HostIndexOutOfRangeIsProgrammingError := by
  intro s v i x
  refine ⟨s.getView_error_iff, s.readReg_error_iff, s.setView_error_iff x, fun hi => ?_⟩
  obtain ⟨t, ht⟩ := s.exists_setView x hi
  exact ⟨t, ht, State.getView_setView_self ht, fun _ hj => State.getView_setView_of_ne ht hj, State.setView_keeps ht⟩

end Sys2Proof.Machine
end

section
/-! PROOFS. Memory: translation, the reads and writes of 1, 2 and 4 bytes in Real mode, and the fault of each in
another mode (20_memory.md R50 to R62). -/

namespace Sys2Proof.Machine

/-! ### Translation -/

/-- Settles O3: by the mode. -/
theorem translationIsSumModuloTwoTo20 : Obligations.TranslationIsSumModuloTwoTo20 := by
  refine fun seg off => ⟨⟨realAddress seg off, rfl, BitVec.toNat_ofNat _ _⟩, fun m hm => ?_⟩
  cases m with
  | real => exact absurd rfl hm
  | protectedMode | virtual8086 => rfl

/-! ### Bytes at seg:off and bytes of a value -/

/-- The `n` bytes at seg:off, each address wrapped on its own (20_memory.md R53). -/
def State.bytesAt (s : State) (seg : Half) (off : Word) (n : Nat) : List Byte :=
  (storedAddrs seg off n).map s.physRead

/-- The `n` low bytes of a value, the least significant first. -/
def lowBytes (n : Nat) (v : Word) : List Byte := (List.range n).map fun k => v.extractLsb' (8 * k) 8

@[simp] theorem lowBytes_length (n : Nat) (v : Word) : (lowBytes n v).length = n := by simp [lowBytes]

/-- `Holds` compares two lists of bytes. -/
theorem holds_iff_bytesAt {s : State} {seg : Half} {off : Word} {n : Nat} {v : Word} :
    Holds s seg off n v ↔ s.bytesAt seg off n = lowBytes n v := by
  simp only [State.bytesAt, storedAddrs, List.map_map, lowBytes, List.map_inj_left, List.mem_range]
  rfl

theorem lowBytes_byte (v : Byte) : lowBytes 1 (v.setWidth 32) = [v] :=
  congrArg (fun b : Byte => [b]) ((BitVec.extractLsb'_setWidth_of_le (by decide)).trans BitVec.extractLsb'_eq_self)

theorem lowBytes_half (v : Half) : lowBytes 2 (v.setWidth 32) = bytes16 v :=
  congrArg₂ (fun b0 b1 : Byte => [b0, b1]) (BitVec.extractLsb'_setWidth_of_le (by decide))
    (BitVec.extractLsb'_setWidth_of_le (by decide))

theorem lowBytes_word (v : Word) : lowBytes 4 v = bytes32 v := rfl

theorem Val.toBytes_eq_lowBytes (v : Val) : Val.toBytes v = lowBytes (Val.bytes v) (Val.word v) := by
  cases v with
  | v16 v => exact (lowBytes_half v).symm
  | v32 v => exact (lowBytes_word v).symm

/-! ### Reads -/

/-- Settles O4: a read of `n` bytes assembles the list `bytesAt`, and taking the value apart gives the list back. -/
theorem readsAreLittleEndianAndWrapPerByte : Obligations.ReadsAreLittleEndianAndWrapPerByte := by
  refine fun s seg off => ⟨fun hm => ⟨⟨_, State.readU8_real hm seg off, ?byte⟩,
    ⟨_, State.readU16_real hm seg off, ?half⟩, ⟨_, State.readU32_real hm seg off, ?word⟩⟩,
    fun hm => ⟨State.readU8_not_real hm seg off, State.readU16_not_real hm seg off, State.readU32_not_real hm seg off⟩⟩
  case byte => exact holds_iff_bytesAt.2 (lowBytes_byte _).symm
  case half => exact holds_iff_bytesAt.2 ((lowBytes_half _).trans (bytes16_le16 _ _)).symm
  case word => exact holds_iff_bytesAt.2 ((lowBytes_word _).trans (bytes32_le32 _ _ _ _)).symm

/-! ### Writes -/

section
variable {s : State}

/-- A Real-mode write of the bytes `bs`: it succeeds, they are read back, nothing else changes, and the store stays
canonical. -/
theorem State.writeBytes_bytesAt (hm : s.mode = .real) (hwf : Memory.wf s.mem = true) (seg : Half) (off : Word)
    {bs : List Byte} (hlen : bs.length ≤ 1048576) :
    ∃ t, s.writeBytes seg off 0 bs = .ok t ∧ t.bytesAt seg off bs.length = bs ∧
      OnlyBytes (storedAddrs seg off bs.length) s t ∧ Memory.wf t.mem = true := by
  obtain ⟨m, ht, hmwf, hframe⟩ := State.writeBytes_real hm seg off 0 bs
  refine ⟨_, ht, ?stored, ⟨⟨rfl, rfl, rfl, rfl, rfl, rfl⟩, fun _ => rfl, fun _ => rfl, ?frame⟩, hmwf hwf⟩
  case stored =>
    refine List.ext_getElem (by simp [State.bytesAt, storedAddrs]) fun j _ hj => ?_
    have := State.writeBytes_stored hm hwf seg off 0 bs (by omega) ht j hj
    simpa [State.bytesAt, storedAddrs] using this
  case frame =>
    intro p hp
    refine hframe p.toNat fun j hj e => hp (List.mem_map.2 ⟨j, List.mem_range.2 hj, ?_⟩)
    rw [Nat.zero_add] at e
    exact (BitVec.eq_of_toNat_eq e).symm

/-- The same of the `n` low bytes of a value. -/
theorem State.writeBytes_holds (hm : s.mode = .real) (hwf : Memory.wf s.mem = true) (seg : Half) (off : Word)
    {n : Nat} (hn : n ≤ 1048576) (v : Word) :
    ∃ t, s.writeBytes seg off 0 (lowBytes n v) = .ok t ∧ Holds t seg off n v ∧
      OnlyBytes (storedAddrs seg off n) s t ∧ Memory.wf t.mem = true := by
  have h := State.writeBytes_bytesAt hm hwf seg off (bs := lowBytes n v) (by rwa [lowBytes_length])
  rw [lowBytes_length] at h
  simpa only [holds_iff_bytesAt] using h

theorem State.writeU8_holds (hm : s.mode = .real) (hwf : Memory.wf s.mem = true) (seg : Half) (off : Word)
    (v : Byte) :
    ∃ t, s.writeU8 seg off v = .ok t ∧ Holds t seg off 1 (v.setWidth 32) ∧
      OnlyBytes (storedAddrs seg off 1) s t ∧ Memory.wf t.mem = true := by
  rw [State.writeU8, ← lowBytes_byte]
  exact State.writeBytes_holds hm hwf seg off (by decide) _

theorem State.writeOw_holds (hm : s.mode = .real) (hwf : Memory.wf s.mem = true) (seg : Half) (off : Word)
    (v : Val) :
    ∃ t, s.writeOw seg off v = .ok t ∧ Holds t seg off (Val.bytes v) (Val.word v) ∧
      OnlyBytes (storedAddrs seg off (Val.bytes v)) s t ∧ Memory.wf t.mem = true := by
  rw [State.writeOw_eq, Val.toBytes_eq_lowBytes]
  exact State.writeBytes_holds hm hwf seg off (by cases v <;> simp [Val.bytes]) _

theorem State.writeU8_not_real (hm : s.mode ≠ .real) (seg : Half) (off : Word) (v : Byte) :
    s.writeU8 seg off v = .error (.unimplementedMode s.mode) := State.writeBytes_not_real hm seg off 0 v []

theorem State.writeOw_not_real (hm : s.mode ≠ .real) (seg : Half) (off : Word) (v : Val) :
    s.writeOw seg off v = .error (.unimplementedMode s.mode) := by
  cases v <;> exact State.writeBytes_not_real hm seg off 0 _ _

end

/-- Settles O5: the writes of 2 and 4 bytes are `writeOw` of a value of that width. -/
theorem writesChangeExactlyTheirBytes : Obligations.WritesChangeExactlyTheirBytes := fun _ seg off =>
  ⟨fun hm hwf => ⟨State.writeU8_holds hm hwf seg off, fun v => State.writeOw_holds hm hwf seg off (.v16 v),
      fun v => State.writeOw_holds hm hwf seg off (.v32 v)⟩,
    fun hm => ⟨State.writeU8_not_real hm seg off, fun v => State.writeOw_not_real hm seg off (.v16 v),
      fun v => State.writeOw_not_real hm seg off (.v32 v)⟩⟩

/-! ### Instructions outside Real mode -/

section
variable {s : State}

/-- The push's own change of SP leaves the mode alone. -/
theorem State.push_not_real (hm : s.mode ≠ .real) (v : Val) : s.push v = .error (.unimplementedMode s.mode) :=
  State.writeOw_not_real (s := s.setGpr16 .esp (s.pushedSp v)) hm _ _ v

/-- A push fails at the read of a memory source, else at its own write. -/
theorem State.readRmOw_push_not_real (hm : s.mode ≠ .real) (w : OpWidth) (src : Rm Reg) :
    (s.readRmOw w src).bind s.push = .error (.unimplementedMode s.mode) := by
  cases src with
  | reg r => exact State.push_not_real hm _
  | mem m => rw [State.readRmOw, State.readOw_not_real hm]; rfl

/-- A meaning that ends in a write that fails. -/
theorem complete_of_error {x : Except FaultInfo State} {f : FaultInfo} (h : x = .error f) :
    complete s x = .next (takeFault s f) := by rw [h, complete_error]

/-- A meaning that begins with a read that fails. -/
theorem complete_map_of_error {α : Type} {x : Except FaultInfo α} {f : FaultInfo} (h : x = .error f)
    (g : α → State) : complete s (x.map g) = .next (takeFault s f) := complete_of_error (by rw [h]; rfl)

end

/-- Settles O25: each form is a load, a store or a push whose access fails. -/
theorem memoryFormsTrapOutsideRealMode : Obligations.MemoryFormsTrapOutsideRealMode := by
  intro s m o w r b g d x v src hm
  have load8 (seg off) := complete_map_of_error (s := s) (State.readU8_not_real hm seg off)
  have load16 (seg off) := complete_map_of_error (s := s) (State.readU16_not_real hm seg off)
  have loadOw (seg off) := complete_map_of_error (s := s) (State.readOw_not_real hm w seg off)
  have store8 (seg off y) := complete_of_error (s := s) (State.writeU8_not_real hm seg off y)
  have storeOw (seg off y) := complete_of_error (s := s) (State.writeOw_not_real hm seg off y)
  exact ⟨store8 _ _ _, storeOw _ _ _, load8 _ _ _, loadOw _ _ _, storeOw _ _ (.v16 (s.sreg16 g)), load16 _ _ _,
    load8 _ _ _, loadOw _ _ _, store8 _ _ _, storeOw _ _ _, store8 _ _ x, storeOw _ _ v,
    complete_of_error (State.readRmOw_push_not_real hm w src)⟩

end Sys2Proof.Machine
end

section
/-! PROOFS. Encoding an instruction and decoding the bytes gives it back (30_encoding.md R70, R76, R80, R84): operand by
operand, then instruction by instruction. -/

namespace Sys2Proof.Machine

/-! ### Immediates and literals -/

theorem takeVal_encodeVal {ow : OpWidth} {v : Val} (h : v.width = ow) (tail : List Byte) :
    takeVal ow (encodeVal v ++ tail) = .ok (v, tail) := by
  subst h
  cases v <;> simp [takeVal, encodeVal, Val.width, Except.map]

theorem takeMoffs_encodeMoffs {aw : AddrWidth} {o : Moffs} (h : o.wf aw = true) (tail : List Byte) :
    takeMoffs aw (encodeMoffs o ++ tail) = .ok (o, tail) := by
  cases o <;> obtain rfl := of_decide_eq_true h <;> simp [takeMoffs, encodeMoffs, Except.map]

/-! ### Operands -/

theorem withModRm_toByte (k : ModRm → List Byte → Decoded Instr) (m : ModRm) (bs : List Byte) :
    withModRm (m.toByte :: bs) k = k m bs := by
  simp [withModRm, take1, Except.bind]

/-- `bs` is a ModRM byte with `reg`, and bytes from which the decoder reads the operand `x`, whatever follows. -/
def DecodesTo {ρ : Type} (aw : AddrWidth) (regOf : BitVec 3 → ρ) (reg : BitVec 3) (x : Rm ρ) (bs : List Byte) :
    Prop :=
  ∃ m more, bs = ModRm.toByte m :: more ∧ m.reg = reg ∧
    ∀ tail, decodeRm aw regOf m (more ++ tail) = .ok (x, tail)

theorem Base16.index_ne_six : ∀ {b : Base16}, b ≠ .bp → b.index ≠ 6#3 := by
  rintro ⟨⟩ <;> decide

theorem Reg.index_ne_four : ∀ {r : Reg}, r ≠ .esp → r.index ≠ 4#3 := by
  rintro ⟨⟩ <;> decide

theorem Reg.index_ne_five : ∀ {r : Reg}, r ≠ .ebp → r.index ≠ 5#3 := by
  rintro ⟨⟩ <;> decide

section
variable {ρ : Type} (regOf : BitVec 3 → ρ) (reg : BitVec 3)

theorem encodeMem16_decodesTo {m : Mem16} (h : m.wf = true) :
    DecodesTo .a16 regOf reg (.mem (.m16 m)) (encodeMem reg (.m16 m)) := by
  cases m with
  | base b =>
    have h6 := Base16.index_ne_six (of_decide_eq_true h)
    exact ⟨_, [], rfl, rfl, fun tail => by simp [decodeRm, decodeMem16, h6, Except.map]⟩
  | direct d | disp8 b d | disp16 b d =>
    exact ⟨_, _, rfl, rfl, fun tail => by simp [decodeRm, decodeMem16, take1, Except.map]⟩

theorem encodeMem32_decodesTo {m : Mem32} (h : m.wf = true) :
    DecodesTo .a32 regOf reg (.mem (.m32 m)) (encodeMem reg (.m32 m)) := by
  cases m with
  | base r =>
    obtain ⟨hsp, hbp⟩ : r ≠ .esp ∧ r ≠ .ebp := by simpa [Mem32.wf] using h
    have h4 := Reg.index_ne_four hsp
    have h5 := Reg.index_ne_five hbp
    exact ⟨_, [], rfl, rfl, fun tail => by simp [decodeRm, decodeMem32, h4, h5, Except.map]⟩
  | disp8 r d | disp32 r d =>
    have h4 := Reg.index_ne_four (of_decide_eq_true h)
    exact ⟨_, _, rfl, rfl, fun tail => by simp [decodeRm, decodeMem32, h4, take1, Except.map]⟩
  | sib x r =>
    have hbp : r ≠ .ebp := of_decide_eq_true h
    exact ⟨_, _, rfl, rfl, fun tail => by
      simp [decodeRm, decodeMem32, decodeSib, hbp, take1, Except.map, Except.bind]⟩
  | direct d | sibDirect x d | sibDisp8 x r d | sibDisp32 x r d =>
    exact ⟨_, _, rfl, rfl, fun tail => by
      simp [decodeRm, decodeMem32, decodeSib, take1, Except.map, Except.bind]⟩

variable {regOf} {indexOf : ρ → BitVec 3} (hindex : ∀ r, regOf (indexOf r) = r) {aw : AddrWidth} {x : Rm ρ}
include hindex

theorem encodeRm_decodesTo (h : x.wf aw = true) : DecodesTo aw regOf reg x (encodeRm indexOf reg x) := by
  match x, h with
  | .reg r, _ => exact ⟨_, [], rfl, rfl, fun tail => by simp [decodeRm, hindex]⟩
  | .mem (.m16 m), h =>
    obtain ⟨rfl, hm⟩ : aw = .a16 ∧ m.wf = true := by simpa [Rm.wf, MemOp.wf] using h
    exact encodeMem16_decodesTo regOf reg hm
  | .mem (.m32 m), h =>
    obtain ⟨rfl, hm⟩ : aw = .a32 ∧ m.wf = true := by simpa [Rm.wf, MemOp.wf] using h
    exact encodeMem32_decodesTo regOf reg hm

/-- What an opcode with an r/m operand decodes to, given what its own decoder makes of the operand. -/
theorem withModRm_encodeRm {k : ModRm → List Byte → Decoded Instr} {tail : List Byte} {d : Decoded Instr}
    (h : x.wf aw = true) (hk : ∀ m bs, m.reg = reg → decodeRm aw regOf m bs = .ok (x, tail) → k m bs = d) :
    withModRm (encodeRm indexOf reg x ++ tail) k = d := by
  obtain ⟨m, more, henc, hreg, hdec⟩ := encodeRm_decodesTo reg hindex h
  rw [henc, List.cons_append, withModRm_toByte]
  exact hk m _ hreg (hdec tail)

end

/-! ### Instructions -/

theorem sreg_ofIndex_reserved : ∀ {i : BitVec 3}, i = 6 ∨ i = 7 → Sreg.ofIndex? i = none := by decide

theorem sregDst_ofIndex_reserved : ∀ {i : BitVec 3}, i = 1 ∨ i = 6 ∨ i = 7 → SregDst.ofIndex? i = none := by decide

theorem decode8C_reserved {m : ModRm} (h : m.reg = 6 ∨ m.reg = 7) (aw : AddrWidth) (bs : List Byte) :
    decode8C aw m bs = .ok (.invalid8CReg m, bs) := by
  simp only [decode8C, sreg_ofIndex_reserved h]

theorem decode8E_cs {m : ModRm} (h : m.reg = 1) (aw : AddrWidth) (bs : List Byte) :
    decode8E aw m bs = .ok (.invalid8ECs m, bs) := by
  simp only [decode8E, sregDst_ofIndex_reserved (.inl h), if_pos h]

theorem decode8E_reserved {m : ModRm} (h : m.reg = 6 ∨ m.reg = 7) (aw : AddrWidth) (bs : List Byte) :
    decode8E aw m bs = .ok (.invalid8EReg m, bs) := by
  have h1 : m.reg ≠ 1 := by rcases h with h | h <;> rw [h] <;> decide
  simp only [decode8E, sregDst_ofIndex_reserved (.inr h), if_neg h1]

/-- Settles O40: the opcode selects the entry, whose decoder reads back the operands one after the other. -/
theorem decodeOfEncodeIsTheInstruction : Obligations.DecodeOfEncodeIsTheInstruction := by
  intro aw ow i tail h
  cases i with
  | prefixOperandSize | prefixAddressSize | halt => rfl
  | movRm8R8 dst src =>
    exact withModRm_encodeRm _ Reg8.ofIndex_index h fun m bs hreg hrm => by simp [decode88, hrm, hreg, Except.map]
  | movR8Rm8 dst src =>
    exact withModRm_encodeRm _ Reg8.ofIndex_index h fun m bs hreg hrm => by simp [decode8A, hrm, hreg, Except.map]
  | movRmR w x r | movRRm w r x =>
    obtain ⟨rfl, hx⟩ : w = ow ∧ x.wf aw = true := by simpa [Instr.wf] using h
    exact withModRm_encodeRm _ Reg.ofIndex_index hx fun m bs hreg hrm => by
      simp [decode89, decode8B, hrm, hreg, Except.map]
  | movRm16Sreg dst src =>
    exact withModRm_encodeRm _ Reg.ofIndex_index h fun m bs hreg hrm => by simp [decode8C, hrm, hreg, Except.map]
  | movSregRm16 dst src =>
    exact withModRm_encodeRm _ Reg.ofIndex_index h fun m bs hreg hrm => by simp [decode8E, hrm, hreg, Except.map]
  | movAlMoffs src | movMoffsAl src =>
    simp [encode, decode, takeMoffs_encodeMoffs h, Except.map]
  | movAxMoffs w src | movMoffsAx w src =>
    obtain ⟨rfl, hx⟩ : w = ow ∧ src.wf aw = true := by simpa [Instr.wf] using h
    simp [encode, decode, takeMoffs_encodeMoffs hx, Except.map]
  | movR8Imm dst imm => simp [encode, decode, take1, Except.map]
  | movRImm dst imm => simp [encode, decode, takeVal_encodeVal (of_decide_eq_true h), Except.map]
  | movRm8Imm dst imm =>
    simp only [encode, List.cons_append, List.append_assoc, decode]
    exact withModRm_encodeRm 0 Reg8.ofIndex_index h fun m bs hreg hrm => by
      simp [decodeC6, hrm, hreg, take1, Except.map, Except.bind]
  | movRmImm dst imm =>
    obtain ⟨hv, hx⟩ : imm.width = ow ∧ dst.wf aw = true := by simpa [Instr.wf] using h
    simp only [encode, List.cons_append, List.append_assoc, decode]
    exact withModRm_encodeRm 0 Reg.ofIndex_index hx fun m bs hreg hrm => by
      simp [decodeC7, hrm, hreg, takeVal_encodeVal hv, Except.map, Except.bind]
  | pushRm w src =>
    obtain ⟨rfl, hx⟩ : w = ow ∧ src.wf aw = true := by simpa [Instr.wf] using h
    exact withModRm_encodeRm 6 Reg.ofIndex_index hx fun m bs hreg hrm => by simp [decodeFF, hrm, hreg, Except.map]
  | invalidC6 m | invalidC7 m | invalidFF m =>
    exact (withModRm_toByte _ m tail).trans (if_neg (of_decide_eq_true h))
  | invalid8ECs m => exact (withModRm_toByte _ m tail).trans (decode8E_cs (of_decide_eq_true h) aw tail)
  | invalid8EReg m =>
    exact (withModRm_toByte _ m tail).trans (decode8E_reserved (by simpa [Instr.wf] using h) aw tail)
  | invalid8CReg m =>
    exact (withModRm_toByte _ m tail).trans (decode8C_reserved (by simpa [Instr.wf] using h) aw tail)
  | unknown op =>
    have hop : mappedOpcodes.contains op = false := by simpa [Instr.wf] using h
    simp [encode, decode, opcodeEntry_unmapped op hop]

end Sys2Proof.Machine
end

section
/-! PROOFS. The bytes that decode to an instruction are its encoding (30_encoding.md R101); with the converse, which bodies
decode to an instruction that faults (R99, R100); and how many bytes the others take (R71). -/

namespace Sys2Proof.Machine

/-! ### Immediates and literals -/

theorem take1_bytes (bs : List Byte) : Yields (fun b rest => bs = b :: rest) (take1 bs) := by
  match bs with
  | [] => nofun
  | _ :: _ => exact .ok rfl

theorem take2_bytes (bs : List Byte) : Yields (fun v rest => bs = bytes16 v ++ rest) (take2 bs) := by
  match bs with
  | [] | [_] => nofun
  | b0 :: b1 :: _ => exact .ok (by rw [bytes16_le16]; rfl)

theorem take4_bytes (bs : List Byte) : Yields (fun v rest => bs = bytes32 v ++ rest) (take4 bs) := by
  match bs with
  | [] | [_] | [_, _] | [_, _, _] => nofun
  | b0 :: b1 :: b2 :: b3 :: _ => exact .ok (by rw [bytes32_le32]; rfl)

theorem takeVal_bytes (ow : OpWidth) (bs : List Byte) :
    Yields (fun v rest => bs = encodeVal v ++ rest ∧ v.width = ow) (takeVal ow bs) := by
  cases ow with
  | w16 => exact (take2_bytes bs).map fun _ _ h => ⟨h, rfl⟩
  | w32 => exact (take4_bytes bs).map fun _ _ h => ⟨h, rfl⟩

theorem takeMoffs_bytes (aw : AddrWidth) (bs : List Byte) :
    Yields (fun o rest => bs = encodeMoffs o ++ rest ∧ o.wf aw = true) (takeMoffs aw bs) := by
  cases aw with
  | a16 => exact (take2_bytes bs).map fun _ _ h => ⟨h, rfl⟩
  | a32 => exact (take4_bytes bs).map fun _ _ h => ⟨h, rfl⟩

/-! ### Operands -/

/-- The ModRM byte `m` and the bytes `bs` are the encoding of a memory operand of the table of `aw`, and `rest`. -/
abbrev MemBytes (aw : AddrWidth) (m : ModRm) (bs : List Byte) (x : MemOp) (rest : List Byte) : Prop :=
  m.toByte :: bs = encodeMem m.reg x ++ rest ∧ x.wf aw = true

theorem toByte_ofByte_sibBase : ∀ b : Byte, SibIndex.toByte (SibIndex.ofByte b) (sibBase b) = b := by decide

theorem base16_ofIndex_ne_bp : ∀ {i : BitVec 3}, i ≠ 6 → Base16.ofIndex i ≠ .bp := by decide

theorem reg_ofIndex_ne_esp : ∀ {i : BitVec 3}, i ≠ 4 → Reg.ofIndex i ≠ .esp := by decide

theorem reg_ofIndex_ne_ebp : ∀ {i : BitVec 3}, i ≠ 5 → Reg.ofIndex i ≠ .ebp := by decide

section
variable {m : ModRm} {bs : List Byte}

theorem decodeMem16_bytes (h3 : m.mod ≠ 3) :
    Yields (fun x => MemBytes .a16 m bs (.m16 x)) (decodeMem16 m bs) := by
  obtain ⟨mod, reg, rm⟩ := m
  simp only [decodeMem16]
  split_ifs with h0 h6 h1
  · subst h0 h6
    exact (take2_bytes bs).map fun _ _ h => ⟨by simp [h, encodeMem], rfl⟩
  · subst h0
    exact .ok ⟨by simp [encodeMem], decide_eq_true (base16_ofIndex_ne_bp h6)⟩
  · subst h1
    exact (take1_bytes bs).map fun _ _ h => ⟨by simp [h, encodeMem], rfl⟩
  · obtain rfl : mod = 2 := modField_eq_two h3 h0 h1
    exact (take2_bytes bs).map fun _ _ h => ⟨by simp [h, encodeMem], rfl⟩

theorem decodeSib_bytes (h3 : m.mod ≠ 3) (h4 : m.rm = 4) (sib : Byte) :
    Yields (fun x => MemBytes .a32 m (sib :: bs) (.m32 x)) (decodeSib m.mod sib bs) := by
  obtain ⟨mod, reg, rm⟩ := m
  obtain rfl : rm = 4 := h4
  have hsib := toByte_ofByte_sibBase sib
  simp only [decodeSib]
  split_ifs with h0 hbp h1
  · subst h0
    rw [hbp] at hsib
    exact (take4_bytes bs).map fun _ _ h => ⟨by simp [h, encodeMem, hsib], rfl⟩
  · subst h0
    exact .ok ⟨by simp [encodeMem, hsib], decide_eq_true hbp⟩
  · subst h1
    exact (take1_bytes bs).map fun _ _ h => ⟨by simp [h, encodeMem, hsib], rfl⟩
  · obtain rfl : mod = 2 := modField_eq_two h3 h0 h1
    exact (take4_bytes bs).map fun _ _ h => ⟨by simp [h, encodeMem, hsib], rfl⟩

theorem decodeMem32_bytes (h3 : m.mod ≠ 3) :
    Yields (fun x => MemBytes .a32 m bs (.m32 x)) (decodeMem32 m bs) := by
  by_cases h4 : m.rm = 4
  · rw [decodeMem32, if_pos h4]
    refine (take1_bytes bs).bind fun b rest h => ?_
    rw [h]
    exact decodeSib_bytes h3 h4 b
  · obtain ⟨mod, reg, rm⟩ := m
    have hsp := reg_ofIndex_ne_esp h4
    simp only [decodeMem32, if_neg h4]
    split_ifs with h0 h5 h1
    · subst h0 h5
      exact (take4_bytes bs).map fun _ _ h => ⟨by simp [h, encodeMem], rfl⟩
    · subst h0
      exact .ok ⟨by simp [encodeMem], by simp [MemOp.wf, Mem32.wf, hsp, reg_ofIndex_ne_ebp h5]⟩
    · subst h1
      exact (take1_bytes bs).map fun _ _ h => ⟨by simp [h, encodeMem], decide_eq_true hsp⟩
    · obtain rfl : mod = 2 := modField_eq_two h3 h0 h1
      exact (take4_bytes bs).map fun _ _ h => ⟨by simp [h, encodeMem], decide_eq_true hsp⟩

/-- A register or memory operand of ModRM, as the encoder writes it. -/
theorem decodeRm_bytes {ρ : Type} {regOf : BitVec 3 → ρ} {indexOf : ρ → BitVec 3}
    (hindex : ∀ i, indexOf (regOf i) = i) (aw : AddrWidth) (m : ModRm) (bs : List Byte) :
    Yields (fun x rest => m.toByte :: bs = encodeRm indexOf m.reg x ++ rest ∧ x.wf aw = true)
      (decodeRm aw regOf m bs) := by
  unfold decodeRm
  split_ifs with h3
  · exact .ok ⟨by simp [encodeRm, hindex, ← h3], rfl⟩
  · cases aw with
    | a16 => exact (decodeMem16_bytes h3).map fun _ _ h => h
    | a32 => exact (decodeMem32_bytes h3).map fun _ _ h => h

end

/-! ### Instructions -/

/-- `bs` is the encoding of the well-formed instruction `i`, and `rest`. -/
abbrev InstrBytes (aw : AddrWidth) (ow : OpWidth) (bs : List Byte) (i : Instr) (rest : List Byte) : Prop :=
  bs = encode i ++ rest ∧ i.wf aw ow = true

theorem index_of_sreg_ofIndex : ∀ {i : BitVec 3} {r : Sreg}, Sreg.ofIndex? i = some r → r.index = i := by
  rintro i ⟨⟩ <;> revert i <;> decide

theorem index_of_sregDst_ofIndex :
    ∀ {i : BitVec 3} {r : SregDst}, SregDst.ofIndex? i = some r → r.toSreg.index = i := by
  rintro i ⟨⟩ <;> revert i <;> decide

theorem eq_append_opcodeReg :
    (∀ op ∈ OpcodeEntry.opcodes .movR8Imm, op = (0b10110 : BitVec 5) ++ opcodeReg op) ∧
    ∀ op ∈ OpcodeEntry.opcodes .movRImm, op = (0b10111 : BitVec 5) ++ opcodeReg op := by decide

section
variable (aw : AddrWidth) (ow : OpWidth) (m : ModRm) (bs : List Byte)

theorem decode8C_bytes : Yields (InstrBytes aw ow (0x8C :: m.toByte :: bs)) (decode8C aw m bs) := by
  unfold decode8C
  split
  · next hs =>
    exact (decodeRm_bytes Reg.index_ofIndex aw m bs).map fun _ _ ⟨hb, hx⟩ =>
      ⟨by simp [encode, hb, index_of_sreg_ofIndex hs], hx⟩
  · next hs => exact .ok ⟨rfl, by simpa [Instr.wf] using sreg_none_cases _ hs⟩

theorem decode8E_bytes : Yields (InstrBytes aw ow (0x8E :: m.toByte :: bs)) (decode8E aw m bs) := by
  unfold decode8E
  split
  · next hs =>
    exact (decodeRm_bytes Reg.index_ofIndex aw m bs).map fun _ _ ⟨hb, hx⟩ =>
      ⟨by simp [encode, hb, index_of_sregDst_ofIndex hs], hx⟩
  · next hs =>
    split_ifs with h1
    · exact .ok ⟨rfl, decide_eq_true h1⟩
    · exact .ok ⟨rfl, by simpa [Instr.wf] using (sregDst_none_cases _ hs).resolve_left h1⟩

theorem decodeC6_bytes : Yields (InstrBytes aw ow (0xC6 :: m.toByte :: bs)) (decodeC6 aw m bs) := by
  unfold decodeC6
  split_ifs with h0
  · refine (decodeRm_bytes Reg8.index_ofIndex aw m bs).bind fun x rest ⟨hb, hx⟩ => ?_
    exact (take1_bytes rest).map fun _ _ h => ⟨by simp [encode, hb, h, h0], hx⟩
  · exact .ok ⟨rfl, decide_eq_true h0⟩

theorem decodeC7_bytes : Yields (InstrBytes aw ow (0xC7 :: m.toByte :: bs)) (decodeC7 aw ow m bs) := by
  unfold decodeC7
  split_ifs with h0
  · refine (decodeRm_bytes Reg.index_ofIndex aw m bs).bind fun x rest ⟨hb, hx⟩ => ?_
    exact (takeVal_bytes ow rest).map fun _ _ ⟨h, hv⟩ =>
      ⟨by simp [encode, hb, h, h0], by simp [Instr.wf, hx, hv]⟩
  · exact .ok ⟨rfl, decide_eq_true h0⟩

theorem decodeFF_bytes : Yields (InstrBytes aw ow (0xFF :: m.toByte :: bs)) (decodeFF aw ow m bs) := by
  unfold decodeFF
  split_ifs with h6
  · exact (decodeRm_bytes Reg.index_ofIndex aw m bs).map fun _ _ ⟨hb, hx⟩ =>
      ⟨by simp [encode, hb, h6], by simp [Instr.wf, hx]⟩
  · exact .ok ⟨rfl, decide_eq_true h6⟩

/-- An entry of the one opcode `c` whose bytes go on with a ModRM byte. -/
theorem withModRm_bytes {op c : Byte} (hop : op ∈ [c]) {k : ModRm → List Byte → Decoded Instr}
    (hk : ∀ m bs, Yields (InstrBytes aw ow (c :: m.toByte :: bs)) (k m bs)) :
    Yields (InstrBytes aw ow (op :: bs)) (withModRm bs k) := by
  obtain rfl := List.mem_singleton.1 hop
  refine (take1_bytes bs).bind fun b rest h => ?_
  simpa [h] using hk (ModRm.ofByte b) rest

/-- What the decoder accepts is the encoding of what it answers: by the entry the opcode selects. -/
theorem decode_bytes : Yields (InstrBytes aw ow bs) (decode aw ow bs) := by
  cases bs with
  | nil => exact fun _ _ h => nomatch h
  | cons op bs =>
    simp only [decode]
    rcases opcodeEntry_unmapped_or_mem op with hu | hop
    · rw [hu]
      exact .ok ⟨rfl, by simp only [Instr.wf, not_mapped_of_opcodeEntry_unmapped op hu, Bool.not_false]⟩
    generalize opcodeEntry op = x at hop ⊢
    cases x with
    | unmapped => nomatch hop
    | halt | operandSize | addressSize =>
      obtain rfl := List.mem_singleton.1 hop
      exact .ok ⟨rfl, rfl⟩
    | movRm8R8 | movR8Rm8 =>
      exact withModRm_bytes aw ow bs hop fun m bs =>
        (decodeRm_bytes Reg8.index_ofIndex aw m bs).map fun _ _ ⟨hb, hx⟩ => ⟨by simp [encode, hb], hx⟩
    | movRmR | movRRm =>
      exact withModRm_bytes aw ow bs hop fun m bs =>
        (decodeRm_bytes Reg.index_ofIndex aw m bs).map fun _ _ ⟨hb, hx⟩ =>
          ⟨by simp [encode, hb], by simp [Instr.wf, hx]⟩
    | movRm16Sreg => exact withModRm_bytes aw ow bs hop (decode8C_bytes aw ow)
    | movSregRm16 => exact withModRm_bytes aw ow bs hop (decode8E_bytes aw ow)
    | movRm8Imm => exact withModRm_bytes aw ow bs hop (decodeC6_bytes aw ow)
    | movRmImm => exact withModRm_bytes aw ow bs hop (decodeC7_bytes aw ow)
    | groupFF => exact withModRm_bytes aw ow bs hop (decodeFF_bytes aw ow)
    | movAlMoffs | movMoffsAl =>
      obtain rfl := List.mem_singleton.1 hop
      exact (takeMoffs_bytes aw bs).map fun _ _ ⟨hb, ho⟩ => ⟨by simp [encode, hb], ho⟩
    | movAxMoffs | movMoffsAx =>
      obtain rfl := List.mem_singleton.1 hop
      exact (takeMoffs_bytes aw bs).map fun _ _ ⟨hb, ho⟩ => ⟨by simp [encode, hb], by simp [Instr.wf, ho]⟩
    | movR8Imm =>
      have hreg := eq_append_opcodeReg.1 op hop
      exact (take1_bytes bs).map fun _ _ hb => ⟨by simpa [encode, hb] using hreg, rfl⟩
    | movRImm =>
      have hreg := eq_append_opcodeReg.2 op hop
      exact (takeVal_bytes ow bs).map fun _ _ ⟨hb, hv⟩ => ⟨by simpa [encode, hb] using hreg, decide_eq_true hv⟩

end

/-- Settles O41 by `decode_bytes`. -/
theorem encodeOfDecodeIsTheBytes : Obligations.EncodeOfDecodeIsTheBytes :=
  fun aw ow bs rest i h => decode_bytes aw ow bs i rest h

/-! ### The opcode map (30_encoding.md R99) -/

/-- Settles O42: the single bytes by their own equations, the two ranges over all 256 bytes. -/
theorem opcodeMapIsTheSpecs : Obligations.OpcodeMapIsTheSpecs :=
  ⟨opcodeEntry_00, opcodeEntry_66, opcodeEntry_67, opcodeEntry_88, opcodeEntry_89, opcodeEntry_8A, opcodeEntry_8B,
    opcodeEntry_8C, opcodeEntry_8E, opcodeEntry_A0, opcodeEntry_A1, opcodeEntry_A2, opcodeEntry_A3, opcodeEntry_C6,
    opcodeEntry_C7, opcodeEntry_FF, by decide, by decide,
    fun op => ⟨not_mapped_of_opcodeEntry_unmapped op, opcodeEntry_unmapped op⟩, rfl⟩

/-! ### The encodings that fault (30_encoding.md R99, R100) -/

theorem modRm_ofByte_reg (b : Byte) : (ModRm.ofByte b).reg = b.extractLsb' 3 3 := rfl

/-- Each pair that R100 lists is the encoding of an instruction that faults. -/
theorem exists_encode_of_invalidEncoding {op : Byte} {m : ModRm} (h : invalidEncoding op m.reg = true)
    (aw : AddrWidth) (ow : OpWidth) : ∃ i, encode i = [op, m.toByte] ∧ i.wf aw ow = true ∧ Instr.faults i = true := by
  simp only [invalidEncoding, Bool.or_eq_true, Bool.and_eq_true, decide_eq_true_eq] at h
  rcases h with (((⟨rfl, h⟩ | ⟨rfl, h⟩) | ⟨rfl, h⟩) | ⟨rfl, (h | h) | h⟩) | ⟨rfl, h⟩
  · exact ⟨.invalidC6 m, rfl, decide_eq_true h, rfl⟩
  · exact ⟨.invalidC7 m, rfl, decide_eq_true h, rfl⟩
  · exact ⟨.invalidFF m, rfl, decide_eq_true h, rfl⟩
  · exact ⟨.invalid8ECs m, rfl, decide_eq_true h, rfl⟩
  · exact ⟨.invalid8EReg m, rfl, by simp [Instr.wf, h], rfl⟩
  · exact ⟨.invalid8EReg m, rfl, by simp [Instr.wf, h], rfl⟩
  · exact ⟨.invalid8CReg m, rfl, by simpa [Instr.wf] using h, rfl⟩

/-- An instruction that faults is encoded as a pair that R100 lists, or as an unmapped opcode. -/
theorem encode_of_faults {i : Instr} {aw : AddrWidth} {ow : OpWidth} (hf : Instr.faults i = true)
    (h : i.wf aw ow = true) :
    (∃ op m, encode i = [op, ModRm.toByte m] ∧ invalidEncoding op m.reg = true) ∨
    ∃ op, encode i = [op] ∧ mappedOpcodes.contains op = false := by
  cases i with
  | invalidC6 m | invalidC7 m | invalidFF m => exact .inl ⟨_, m, rfl, by simpa [invalidEncoding, Instr.wf] using h⟩
  | invalid8ECs m =>
    have h1 : m.reg = 1 := of_decide_eq_true h
    exact .inl ⟨_, m, rfl, by simp [invalidEncoding, h1]⟩
  | invalid8EReg m | invalid8CReg m =>
    have h67 : m.reg = 6 ∨ m.reg = 7 := by simpa [Instr.wf] using h
    exact .inl ⟨_, m, rfl, by rcases h67 with h' | h' <;> simp [invalidEncoding, h']⟩
  | unknown op => exact .inr ⟨op, rfl, by simpa [Instr.wf] using h⟩
  | _ => cases hf

/-- Settles O43: an invalid pair and an unmapped opcode are encodings of instructions that fault, so that is what they
decode to (O40); and an instruction that faults has only such encodings (O41). -/
theorem decoderRejectsExactlyTheInvalidEncodings : Obligations.DecoderRejectsExactlyTheInvalidEncodings := by
  intro aw ow op modrm bs rest i h
  have hinvalid : invalidEncoding op (modrm.extractLsb' 3 3) = true → Instr.faults i = true ∧ rest = bs := by
    intro hinv
    obtain ⟨j, henc, hwf, hf⟩ := exists_encode_of_invalidEncoding (m := ModRm.ofByte modrm) hinv aw ow
    have hj := decodeOfEncodeIsTheInstruction aw ow j bs hwf
    rw [henc, ModRm.toByte_ofByte] at hj
    cases h.symm.trans hj
    exact ⟨hf, rfl⟩
  have hunmapped : mappedOpcodes.contains op = false → Instr.faults i = true ∧ rest = modrm :: bs := by
    intro hun
    have hj := decodeOfEncodeIsTheInstruction aw ow (.unknown op) (modrm :: bs) (by simpa [Instr.wf] using hun)
    cases h.symm.trans hj
    exact ⟨rfl, rfl⟩
  refine ⟨⟨fun hf => ?_, fun hc => hc.elim (fun h => (hinvalid h).1) fun h => (hunmapped h).1⟩,
    fun h => (hinvalid h).2, fun h => (hunmapped h).2⟩
  obtain ⟨hbytes, hwf⟩ := encodeOfDecodeIsTheBytes aw ow _ _ _ h
  rcases encode_of_faults hf hwf with ⟨op', m, henc, hinv⟩ | ⟨op', henc, hun⟩
  · rw [henc] at hbytes
    obtain ⟨rfl, rfl, -⟩ : op = op' ∧ modrm = m.toByte ∧ bs = rest := by simpa using hbytes
    exact .inl (by rwa [← modRm_ofByte_reg, ModRm.ofByte_toByte])
  · rw [henc] at hbytes
    obtain ⟨rfl, -⟩ : op = op' ∧ modrm :: bs = rest := by simpa using hbytes
    exact .inr hun

/-! ### The length of a body (30_encoding.md R71) -/

/-- Settles O45: the opcode is mapped and is none of the prefixes, so the decoder takes the bytes of R71. -/
theorem decoderTakesTheR71Length : Obligations.DecoderTakesTheR71Length := by
  intro aw ow op modrm sib bs rest i h hf hp
  have h66 : op ≠ 0x66 := by rintro rfl; cases h; cases hp
  have h67 : op ≠ 0x67 := by rintro rfl; cases h; cases hp
  have hop : opcodeEntry op ≠ .unmapped := fun hu => by
    simp only [decode, hu] at h
    cases h
    cases hf
  exact ⟨decode_takes_r71Length aw ow modrm sib bs h66 h67 i rest h hf, r71Length_le_maxBody hop aw ow modrm sib⟩

end Sys2Proof.Machine
end

section
/-! PROOFS. The widths and the effective addresses (30_encoding.md R82 to R95). -/

namespace Sys2Proof.Machine

/-! ### The widths (30_encoding.md R82, R83) -/

/-- The condition of R82 and R83 says that the flag is set in Real mode and in no other. -/
theorem toggle_iff (p : Prop) (b : Bool) : (¬p ∧ b = false) ∨ (p ∧ b = true) ↔ (p ↔ b = true) := by
  cases b <;> simp

/-- Settles O7: each width is the 32-bit one exactly when that condition holds. -/
theorem widthsToggleTheModeDefault : Obligations.WidthsToggleTheModeDefault := fun s =>
  have haddr := toggle_iff (s.mode = .real) s.adsz
  have hop := toggle_iff (s.mode = .real) s.opsz
  have h32 : AddrWidth.a32 ≠ .a16 := nofun
  have hw32 : OpWidth.w32 ≠ .w16 := nofun
  ⟨h32.ite_eq_left_iff.trans haddr, h32.ite_eq_right_iff.trans (not_congr haddr),
    hw32.ite_eq_left_iff.trans hop, hw32.ite_eq_right_iff.trans (not_congr hop)⟩

/-! ### Offsets of 16 bits (30_encoding.md R89, R95) -/

/-- Settles O10: a 16-bit offset is zero-extended, and in Real mode a 32-bit one is masked. -/
theorem realModeOffsetsFitSixteenBits : Obligations.RealModeOffsetsFitSixteenBits := by
  intro s m h
  cases m with
  | m16 x =>
    rw [State.offset, BitVec.toNat_setWidth]
    exact (Nat.mod_le _ _).trans_lt (s.offset16 x).isLt
  | m32 x =>
    have hm : s.mode = .real := h.resolve_right fun ⟨_, hx⟩ => nomatch hx
    rw [State.offset, if_pos hm, BitVec.toNat_and]
    exact Nat.and_lt_two_pow (n := 16) _ (by decide)

/-! ### The 16-bit table (30_encoding.md R87, R88) -/

/-- `Disp16(mod)` from the two bytes that follow, with the number fetched. -/
def disp16Of (mod : BitVec 2) (b0 b1 : Byte) : Half × Nat :=
  if mod = 0 then (0, 0) else if mod = 1 then (b0.signExtend 16, 1) else (b1 ++ b0, 2)

section
variable (s : State) {mod : BitVec 2} {rm : BitVec 3}

/-- The table's rows with a base: every row but mod = 0, rm = 6. -/
theorem ea16Rule_base (h : mod = 0 → rm ≠ 6) (b0 b1 : Byte) :
    ea16Rule s mod rm b0 b1 = (Base16.segment (Base16.ofIndex rm),
      s.base16 (Base16.ofIndex rm) + (disp16Of mod b0 b1).1, (disp16Of mod b0 b1).2) := by
  have hdisp : (if mod = 0 then 0 else if mod = 1 then b0.signExtend 16 else b1 ++ b0) = (disp16Of mod b0 b1).1 := by
    unfold disp16Of; split_ifs <;> rfl
  have hlen : (if mod = 0 then 0 else if mod = 1 then 1 else 2) = (disp16Of mod b0 b1).2 := by
    unfold disp16Of; split_ifs <;> rfl
  obtain ⟨b, rfl⟩ : ∃ b, Base16.index b = rm := ⟨_, Base16.index_ofIndex rm⟩
  rw [Base16.ofIndex_index]
  simp only [ea16Rule, hdisp, hlen]
  cases b with
  | bp => exact if_neg fun h0 => h h0 rfl
  | _ => rfl

/-- The decoder's operand has the segment and the offset of the table, and takes the bytes the table fetches. -/
theorem decodeMem16_ea16Rule (h3 : mod ≠ 3) (reg : BitVec 3) (b0 b1 : Byte) (bs : List Byte) :
    ∃ x n, decodeMem16 ⟨mod, reg, rm⟩ (b0 :: b1 :: bs) = .ok (x, (b0 :: b1 :: bs).drop n) ∧
      ea16Rule s mod rm b0 b1 = (Mem16.segment x, s.offset16 x, n) := by
  simp only [decodeMem16]
  split_ifs with h0 h6 h1
  · subst h0 h6
    exact ⟨.direct _, 2, rfl, rfl⟩
  · rw [ea16Rule_base s fun _ => h6]
    subst h0
    exact ⟨.base _, 0, rfl, by simp [disp16Of, Mem16.segment, State.offset16]⟩
  · rw [ea16Rule_base s fun h => absurd h h0]
    subst h1
    exact ⟨.disp8 _ _, 1, rfl, rfl⟩
  · rw [ea16Rule_base s fun h => absurd h h0]
    obtain rfl := modField_eq_two h3 h0 h1
    exact ⟨.disp16 _ _, 2, rfl, rfl⟩

end

/-- Settles O8: the segment, the offset and the bytes are those of the operand the decoder answers. -/
theorem effectiveAddress16FollowsTheTable : Obligations.EffectiveAddress16FollowsTheTable := by
  intro s mod reg rm b0 b1 bs h3
  obtain ⟨x, n, hdec, hrule⟩ := decodeMem16_ea16Rule s (rm := rm) h3 reg b0 b1 bs
  rw [hrule]
  exact ⟨.m16 x, _, by simp only [decodeRm, if_neg h3, hdec, Except.map], rfl, rfl, rfl⟩

/-! ### The 32-bit table and the SIB byte (30_encoding.md R87, R90 to R94) -/

/-- The table masks and shifts the SIB byte where the decoder takes its fields. -/
theorem sibFields_eq : ∀ b : Byte, (b >>> 6).toNat = (SibIndex.ofByte b).scale.toNat ∧
    Reg.ofIndex (((b >>> 3) &&& 7).setWidth 3) = (SibIndex.ofByte b).index ∧
    ((b >>> 3) &&& 7 = 4 ↔ (SibIndex.ofByte b).index = .esp) ∧
    Reg.ofIndex ((b &&& 7).setWidth 3) = sibBase b ∧
    (b &&& 7 = 4 ↔ sibBase b = .esp) ∧ (b &&& 7 = 5 ↔ sibBase b = .ebp) := by decide

section
variable (s : State) {mod : BitVec 2} {rm : BitVec 3}

/-- The rows with a SIB byte, in terms of its fields. -/
theorem ea32Rule_sib (mod : BitVec 2) (b0 b1 b2 b3 b4 : Byte) :
    ea32Rule s mod 4 b0 b1 b2 b3 b4 =
      if sibBase b0 = .ebp ∧ mod = 0 then (.ds, s.scaledIndex (SibIndex.ofByte b0) + le32 b1 b2 b3 b4, 5)
      else (Reg.sibSegment (sibBase b0), s.scaledIndex (SibIndex.ofByte b0) + s.gpr32 (sibBase b0) +
        (disp32Rule mod b1 b2 b3 b4).1, 1 + (disp32Rule mod b1 b2 b3 b4).2) := by
  obtain ⟨hscale, hindex, hesp, hbase, hsp, hbp⟩ := sibFields_eq b0
  simp only [ea32Rule, hscale, hindex, hesp, hbase, hsp, hbp]
  rfl

/-- The rows without a SIB byte. -/
theorem ea32Rule_noSib (h4 : rm ≠ 4) (mod : BitVec 2) (b0 b1 b2 b3 b4 : Byte) :
    ea32Rule s mod rm b0 b1 b2 b3 b4 =
      if rm = 5 ∧ mod = 0 then (.ds, le32 b0 b1 b2 b3, 4)
      else (Reg.segment32 (Reg.ofIndex rm), s.gpr32 (Reg.ofIndex rm) + (disp32Rule mod b0 b1 b2 b3).1,
        (disp32Rule mod b0 b1 b2 b3).2) := by
  have hbp : Reg.ofIndex rm = .ebp ↔ rm = 5 := by revert rm; decide
  simp only [ea32Rule, if_neg h4, Reg.segment32, hbp]
  rfl

/-- The operand of a SIB byte: mod = 0 has a row of its own for SIB.base = 5. -/
theorem decodeSib_ea32Rule (h3 : mod ≠ 3) (b0 b1 b2 b3 b4 : Byte) (bs : List Byte) :
    ∃ x n, decodeSib mod b0 (b1 :: b2 :: b3 :: b4 :: bs) = .ok (x, (b0 :: b1 :: b2 :: b3 :: b4 :: bs).drop n) ∧
      ea32Rule s mod 4 b0 b1 b2 b3 b4 = (Mem32.segment x, s.offset32 x, n) := by
  rw [ea32Rule_sib]
  by_cases h0 : mod = 0
  · subst h0
    by_cases hbp : sibBase b0 = .ebp
    · simp only [decodeSib, hbp]
      exact ⟨.sibDirect _ _, 5, rfl, rfl⟩
    · simp only [decodeSib, hbp]
      exact ⟨.sib _ _, 1, rfl, by simp [disp32Rule, Mem32.segment, State.offset32]⟩
  · simp only [decodeSib, h0, and_false, if_false]
    split_ifs with h1
    · subst h1
      exact ⟨.sibDisp8 _ _ _, 2, rfl, rfl⟩
    · obtain rfl := modField_eq_two h3 h0 h1
      exact ⟨.sibDisp32 _ _ _, 5, rfl, rfl⟩

/-- The decoder's operand has the segment and the unmasked offset of the tables, and takes the bytes they fetch. -/
theorem decodeMem32_ea32Rule (h3 : mod ≠ 3) (reg : BitVec 3) (b0 b1 b2 b3 b4 : Byte) (bs : List Byte) :
    ∃ x n,
      decodeMem32 ⟨mod, reg, rm⟩ (b0 :: b1 :: b2 :: b3 :: b4 :: bs) =
        .ok (x, (b0 :: b1 :: b2 :: b3 :: b4 :: bs).drop n) ∧
      ea32Rule s mod rm b0 b1 b2 b3 b4 = (Mem32.segment x, s.offset32 x, n) := by
  by_cases h4 : rm = 4
  · subst h4
    exact decodeSib_ea32Rule s h3 b0 b1 b2 b3 b4 bs
  · rw [ea32Rule_noSib s h4]
    simp only [decodeMem32, if_neg h4]
    by_cases h0 : mod = 0
    · subst h0
      by_cases h5 : rm = 5
      · simp only [h5]
        exact ⟨.direct _, 4, rfl, rfl⟩
      · simp only [h5]
        exact ⟨.base _, 0, rfl, by simp [disp32Rule, Mem32.segment, State.offset32]⟩
    · simp only [h0, and_false, if_false]
      split_ifs with h1
      · subst h1
        exact ⟨.disp8 _ _, 1, rfl, rfl⟩
      · obtain rfl := modField_eq_two h3 h0 h1
        exact ⟨.disp32 _ _, 4, rfl, rfl⟩

end

/-- Settles O9: the same of the 32-bit operand, whose offset is the unmasked one behind the Real-mode mask. -/
theorem effectiveAddress32FollowsTheTables : Obligations.EffectiveAddress32FollowsTheTables := by
  intro s mod reg rm b0 b1 b2 b3 b4 bs h3
  obtain ⟨x, n, hdec, hrule⟩ := decodeMem32_ea32Rule s (rm := rm) h3 reg b0 b1 b2 b3 b4 bs
  rw [hrule]
  exact ⟨.m32 x, _, by simp only [decodeRm, if_neg h3, hdec, Except.map], rfl, rfl, rfl⟩

end Sys2Proof.Machine
end

section
/-! PROOFS. Fetching and progress: what a fetch gives, where the scan of the prefixes stops, and that a running block steps
unless it is stuck there (30_encoding.md R71 to R75, R101; 40_step_and_halt.md R118). -/

namespace Sys2Proof.Machine

/-! ### Fetching (30_encoding.md R72) -/

/-- Settles O39: the window of a Real-mode fetch, byte by byte. -/
theorem fetchSeesTheStore : Obligations.FetchSeesTheStore := fun s k n hm =>
  ⟨_, State.fetchBytes_real hm k n, by simp, fun j hj => by simp⟩

/-! ### The scan of the prefixes (30_encoding.md R73, R74) -/

/-- The flags after a run of prefixes: each as it was, or set by one of the run. -/
theorem State.foldl_applyPrefix (s : State) (ps : List PrefixByte) :
    ps.foldl State.applyPrefix s = { s with
      opsz := ps.contains .operandSize || s.opsz
      adsz := ps.contains .addressSize || s.adsz } := by
  induction ps generalizing s with
  | nil => rfl
  | cons p ps ih =>
    rw [List.foldl_cons, ih]
    cases p <;> simp [State.applyPrefix]

/-- Settles O31: the scan stops after the run, and the fold of its prefixes over cleared flags has set those seen. -/
theorem prefixScanSetsTheFlagsSeen : Obligations.PrefixScanSetsTheFlagsSeen := by
  intro s ps b hm hps h66 h67 hc
  rw [State.prefixScan_run (s := s.clearPrefixes) hm hps h66 h67 (codeFrom_zero_of_codeAt hc),
    State.foldl_applyPrefix, Nat.zero_add]
  simp [State.clearPrefixes]

/-! ### The decoder accepts every stream that is long enough (30_encoding.md R101) -/

/-- If the stream `bs` has `n` bytes, `d` accepts it and takes no more than them. -/
def AcceptsWithin {α : Type} (n : Nat) (bs : List Byte) (d : Decoded α) : Prop :=
  n ≤ bs.length → ∃ x rest, d = .ok (x, rest) ∧ bs.length ≤ rest.length + n

section
variable {α β : Type} {n k : Nat} {bs : List Byte} {d : Decoded α}

theorem acceptsWithin_ok (n : Nat) (x : α) (bs : List Byte) : AcceptsWithin n bs (.ok (x, bs)) :=
  fun _ => ⟨x, bs, rfl, Nat.le_add_right _ _⟩

theorem AcceptsWithin.map {g : α × List Byte → β × List Byte} (hd : AcceptsWithin n bs d) {l : Nat}
    (hl : n ≤ l := by decide) (hg : ∀ p, (g p).2 = p.2 := by exact fun _ => rfl) : AcceptsWithin l bs (d.map g) :=
  fun hbs => by
    obtain ⟨x, rest, rfl, hle⟩ := hd (hl.trans hbs)
    exact ⟨(g (x, rest)).1, (g (x, rest)).2, rfl, by rw [hg]; exact hle.trans (Nat.add_le_add_left hl _)⟩

theorem AcceptsWithin.bind {f : α × List Byte → Decoded β} (hd : AcceptsWithin n bs d) {l : Nat}
    (hf : ∀ x rest, AcceptsWithin k rest (f (x, rest))) (hl : n + k ≤ l := by decide) :
    AcceptsWithin l bs (d.bind f) := fun hbs => by
  obtain ⟨x, rest, rfl, hle⟩ := hd (by omega)
  obtain ⟨y, rest', hy, hle'⟩ := hf x rest (by omega)
  exact ⟨y, rest', hy, by omega⟩

end

section
variable (aw : AddrWidth) (ow : OpWidth) (m : ModRm) (bs : List Byte)

theorem take1_accepts : AcceptsWithin 1 bs (take1 bs) := by
  match bs with
  | [] => nofun
  | b :: bs => exact fun _ => ⟨b, bs, rfl, by simp⟩

theorem take2_accepts : AcceptsWithin 2 bs (take2 bs) := by
  match bs with
  | [] | [_] => nofun
  | _ :: _ :: bs => exact fun _ => ⟨_, bs, rfl, by simp⟩

theorem take4_accepts : AcceptsWithin 4 bs (take4 bs) := by
  match bs with
  | [] | [_] | [_, _] | [_, _, _] => nofun
  | _ :: _ :: _ :: _ :: bs => exact fun _ => ⟨_, bs, rfl, by simp⟩

theorem takeVal_accepts : AcceptsWithin 4 bs (takeVal ow bs) := by
  cases ow with
  | w16 => exact (take2_accepts bs).map
  | w32 => exact (take4_accepts bs).map

theorem takeMoffs_accepts : AcceptsWithin 4 bs (takeMoffs aw bs) := by
  cases aw with
  | a16 => exact (take2_accepts bs).map
  | a32 => exact (take4_accepts bs).map

theorem decodeMem16_accepts : AcceptsWithin 2 bs (decodeMem16 m bs) := by
  unfold decodeMem16
  split_ifs
  · exact (take2_accepts bs).map
  · exact acceptsWithin_ok 2 _ bs
  · exact (take1_accepts bs).map
  · exact (take2_accepts bs).map

theorem decodeSib_accepts (mod : BitVec 2) (sib : Byte) : AcceptsWithin 4 bs (decodeSib mod sib bs) := by
  unfold decodeSib
  split_ifs
  · exact (take4_accepts bs).map
  · exact acceptsWithin_ok 4 _ bs
  · exact (take1_accepts bs).map
  · exact (take4_accepts bs).map

theorem decodeMem32_accepts : AcceptsWithin 5 bs (decodeMem32 m bs) := by
  unfold decodeMem32
  split_ifs
  · exact (take1_accepts bs).bind fun b rest => decodeSib_accepts rest m.mod b
  · exact (take4_accepts bs).map
  · exact acceptsWithin_ok 5 _ bs
  · exact (take1_accepts bs).map
  · exact (take4_accepts bs).map

theorem decodeRm_accepts {ρ : Type} (regOf : BitVec 3 → ρ) : AcceptsWithin 5 bs (decodeRm aw regOf m bs) := by
  unfold decodeRm
  split_ifs
  · exact acceptsWithin_ok 5 _ bs
  · cases aw with
    | a16 => exact (decodeMem16_accepts m bs).map
    | a32 => exact (decodeMem32_accepts m bs).map

theorem decode8C_accepts : AcceptsWithin 9 bs (decode8C aw m bs) := by
  unfold decode8C
  split
  · exact (decodeRm_accepts aw m bs _).map
  · exact acceptsWithin_ok 9 _ bs

theorem decode8E_accepts : AcceptsWithin 9 bs (decode8E aw m bs) := by
  unfold decode8E
  split
  · exact (decodeRm_accepts aw m bs _).map
  · exact acceptsWithin_ok 9 _ bs

theorem decodeC6_accepts : AcceptsWithin 9 bs (decodeC6 aw m bs) := by
  unfold decodeC6
  split_ifs
  · exact (decodeRm_accepts aw m bs _).bind fun _ rest => (take1_accepts rest).map (l := 1)
  · exact acceptsWithin_ok 9 _ bs

theorem decodeC7_accepts : AcceptsWithin 9 bs (decodeC7 aw ow m bs) := by
  unfold decodeC7
  split_ifs
  · exact (decodeRm_accepts aw m bs _).bind fun _ rest => (takeVal_accepts ow rest).map (l := 4)
  · exact acceptsWithin_ok 9 _ bs

theorem decodeFF_accepts : AcceptsWithin 9 bs (decodeFF aw ow m bs) := by
  unfold decodeFF
  split_ifs
  · exact (decodeRm_accepts aw m bs _).map
  · exact acceptsWithin_ok 9 _ bs

theorem withModRm_accepts {k : ModRm → List Byte → Decoded Instr} (hk : ∀ m bs, AcceptsWithin 9 bs (k m bs)) :
    AcceptsWithin 10 bs (withModRm bs k) :=
  (take1_accepts bs).bind fun _ _ => hk _ _

/-- After the opcode no instruction takes more than ten bytes. -/
theorem decode_accepts (op : Byte) : AcceptsWithin 10 bs (decode aw ow (op :: bs)) := by
  simp only [decode]
  cases opcodeEntry op with
  | halt | operandSize | addressSize | unmapped => exact acceptsWithin_ok 10 _ bs
  | movRm8R8 | movRmR | movR8Rm8 | movRRm =>
    exact withModRm_accepts bs fun m bs => (decodeRm_accepts aw m bs _).map
  | movRm16Sreg => exact withModRm_accepts bs (decode8C_accepts aw)
  | movSregRm16 => exact withModRm_accepts bs (decode8E_accepts aw)
  | movRm8Imm => exact withModRm_accepts bs (decodeC6_accepts aw)
  | movRmImm => exact withModRm_accepts bs (decodeC7_accepts aw ow)
  | groupFF => exact withModRm_accepts bs (decodeFF_accepts aw ow)
  | movAlMoffs | movAxMoffs | movMoffsAl | movMoffsAx => exact (takeMoffs_accepts aw bs).map
  | movR8Imm => exact (take1_accepts bs).map
  | movRImm => exact (takeVal_accepts ow bs).map

variable {bs}

/-- Every window of eleven bytes decodes. -/
theorem exists_decode_window (h : bs.length = Config.maxBody) : ∃ i rest, decode aw ow bs = .ok (i, rest) := by
  cases bs with
  | nil => cases h
  | cons op bs =>
    obtain ⟨i, rest, hd, -⟩ := decode_accepts aw ow bs op (Nat.le_of_eq (Nat.succ.inj h).symm)
    exact ⟨i, rest, hd⟩

end

/-! ### Progress (30_encoding.md R74, R101; 40_step_and_halt.md R118) -/

theorem finish_next (pre u : State) (len : Nat) : ∃ t, finish pre len (.next u) = .next t := by
  simp only [finish]
  split <;> exact ⟨_, rfl⟩

theorem prefixOf?_ne_none_iff (b : Byte) : prefixOf? b ≠ none ↔ b = 0x66 ∨ b = 0x67 := by
  by_cases h66 : b = 0x66
  · simp [prefixOf?, h66]
  · by_cases h67 : b = 0x67
    · simp [prefixOf?, h67]
    · simp only [prefixOf?_eq_none h66 h67, h66, h67, ne_eq, not_true, or_self]

/-- Where the scan stops at an opcode, the window decodes and its instruction has a next state. -/
theorem stepRunning_of_opcodeAt {s u : State} {k : Nat}
    (hscan : State.prefixScan Config.prefixLimit s.clearPrefixes 0 = .opcodeAt u k) (hu : u.mode = .real) :
    ∃ t, stepRunning s = .next t := by
  obtain ⟨bs, hfetch, hlen, -⟩ := fetchSeesTheStore u k Config.maxBody hu
  obtain ⟨i, rest, hdec⟩ := exists_decode_window u.addrWidth u.opWidth hlen
  obtain ⟨v, hv⟩ := exec_next i u
  simp only [stepRunning, hscan, hfetch, hdec, hv]
  exact finish_next s v _

/-- What a running block does: it is stuck on prefixes in Real mode, or it takes a step, and then in Real mode a byte within
the limit is none. -/
theorem stepRunning_cases (s : State) :
    (stepRunning s = .fault .prefixHang ∧ s.mode = .real ∧
      ∀ k, k < Config.prefixLimit → prefixOf? (s.codeByte k) ≠ none) ∨
    ((∃ t, stepRunning s = .next t) ∧
      (s.mode = .real → ∃ k, k < Config.prefixLimit ∧ prefixOf? (s.codeByte k) = none)) := by
  by_cases hm : s.mode = .real
  · rcases State.prefixScan_real (fuel := Config.prefixLimit) (s := s.clearPrefixes) (k := 0) hm with
      ⟨hscan, hall⟩ | ⟨o, a, j, hscan, hnone, -, hj, -⟩
    · exact .inl ⟨by rw [stepRunning, hscan], hm, fun k hk => hall k (Nat.zero_le k) (by omega)⟩
    · exact .inr ⟨stepRunning_of_opcodeAt hscan hm, fun _ => ⟨j, by omega, hnone⟩⟩
  · have hscan := State.prefixScan_not_real (s := s.clearPrefixes) hm 1048575 0
    exact .inr ⟨⟨_, by rw [stepRunning, hscan]⟩, fun h => absurd h hm⟩

theorem step_of_running {s : State} (h : s.status = .running) : step s = stepRunning s := by
  simp only [step, h]

theorem step_of_not_running {s : State} (h : s.status ≠ .running) : step s = .fault .runEnded :=
  (noStepAfterTheRunEnded s).2 h

/-- Settles O34: of the two things a running block can do, the bytes from CS:EIP on decide which. -/
theorem stuckExactlyOnEndlessPrefixes : Obligations.StuckExactlyOnEndlessPrefixes := by
  intro s
  simp only [← prefixOf?_ne_none_iff]
  by_cases hr : s.status = .running
  · rw [step_of_running hr]
    rcases stepRunning_cases s with ⟨hstep, hm, hall⟩ | ⟨⟨t, hstep⟩, hnone⟩
    · exact ⟨fun _ => ⟨hr, hm, hall⟩, fun _ => hstep⟩
    · rw [hstep]
      refine ⟨nofun, fun ⟨_, hm, hall⟩ => ?_⟩
      obtain ⟨k, hk, hn⟩ := hnone hm
      exact absurd hn (hall k hk)
  · rw [step_of_not_running hr]
    exact ⟨nofun, fun h => absurd h.1 hr⟩

/-- Settles O35: a running block is stuck or steps, and every other one answers `runEnded`. -/
theorem everyRunningBlockSteps : Obligations.EveryRunningBlockSteps := by
  intro s
  by_cases hr : s.status = .running
  · rw [step_of_running hr]
    rcases stepRunning_cases s with ⟨hstep, -⟩ | ⟨⟨t, hstep⟩, -⟩
    · rw [hstep]
      exact ⟨nofun, fun _ h => absurd rfl h⟩
    · rw [hstep]
      exact ⟨nofun, fun _ _ => ⟨t, rfl⟩⟩
  · rw [step_of_not_running hr]
    exact ⟨nofun, fun h => absurd h hr⟩

end Sys2Proof.Machine
end

section
/-! PROOFS. The step and the run: that a step runs the instruction at CS:EIP, what it does in another mode, and how a run
repeats it (40_step_and_halt.md R110, R111, R115, R119). -/

namespace Sys2Proof.Machine

/-! ### One field each (40_step_and_halt.md R115, 30_encoding.md R73) -/

/-- Settles O23: the three meanings are these updates by definition. -/
theorem haltAndPrefixesSetTheirField : Obligations.HaltAndPrefixesSetTheirField := fun _ => ⟨rfl, rfl, rfl⟩

/-! ### Another mode (40_step_and_halt.md R119) -/

/-- Settles O33: the scan's first fetch raises the fault, which is taken from the state before the step. -/
theorem otherModesFaultAtTheFirstFetch : Obligations.OtherModesFaultAtTheFirstFetch := by
  intro s hrun hm
  have hscan := State.prefixScan_not_real (s := s.clearPrefixes) hm 1048575 0
  rw [step_of_running hrun, stepRunning, hscan]
  rfl

/-! ### The instruction at CS:EIP (40_step_and_halt.md R111, 30_encoding.md R70, R73) -/

section
variable {aw : AddrWidth} {ow : OpWidth} {bs : List Byte} {i : Instr}

/-- What decodes with nothing left over decodes in the same way before any other bytes. -/
theorem decode_append (h : decode aw ow bs = .ok (i, [])) (tail : List Byte) :
    decode aw ow (bs ++ tail) = .ok (i, tail) := by
  obtain ⟨hbs, hwf⟩ := encodeOfDecodeIsTheBytes aw ow bs [] i h
  rw [hbs, List.append_nil]
  exact decodeOfEncodeIsTheInstruction aw ow i tail hwf

/-- What decodes with nothing left over fits the window of a step. -/
theorem length_le_of_decode (h : decode aw ow bs = .ok (i, [])) : bs.length ≤ Config.maxBody := by
  cases bs with
  | nil => exact Nat.zero_le _
  | cons op bs =>
    rw [List.length_cons]
    refine Nat.succ_le_succ (not_lt.1 fun hlt => ?_)
    obtain ⟨j, rest, hd, hle⟩ := decode_accepts aw ow bs op hlt.le
    obtain ⟨-, rfl⟩ := Prod.mk.inj (Except.ok.inj (h.symm.trans hd))
    exact absurd hle (by simpa using hlt)

/-- What decodes to none of the prefixes starts with none of their bytes. -/
theorem exists_opcode_of_decode (h : decode aw ow bs = .ok (i, [])) (hi : i.isPrefix = false) :
    ∃ op body, bs = op :: body ∧ op ≠ 0x66 ∧ op ≠ 0x67 := by
  cases bs with
  | nil => cases h
  | cons op body =>
    refine ⟨op, body, rfl, ?_, ?_⟩ <;>
    · rintro rfl
      cases h
      cases hi

end

theorem State.mode_afterPrefixes (s : State) (ps : List PrefixByte) : (s.afterPrefixes ps).mode = s.mode := by
  rw [State.afterPrefixes, State.foldl_applyPrefix, State.clearPrefixes_mode]

theorem CodeFrom.afterPrefixes {s : State} {k : Nat} {bs : List Byte} (h : CodeFrom s k bs) (ps : List PrefixByte) :
    CodeFrom (s.afterPrefixes ps) k bs := by
  rw [State.afterPrefixes, State.foldl_applyPrefix]
  exact h

/-- A step of a running Real-mode block is the meaning of the instruction that stands at CS:EIP after the prefixes `ps`,
and the end of the step. -/
theorem step_of_codeAt {s : State} {ps : List PrefixByte} {bs : List Byte} {i : Instr} (hrun : s.status = .running)
    (hm : s.mode = .real) (hps : ps.length < Config.prefixLimit) (hc : CodeAt s (ps.map PrefixByte.toByte ++ bs))
    (hdec : decode (s.afterPrefixes ps).addrWidth (s.afterPrefixes ps).opWidth bs = .ok (i, []))
    (hi : i.isPrefix = false) :
    step s = finish s (ps.length + bs.length) (exec i (s.afterPrefixes ps)) := by
  have hcode := codeFrom_zero_of_codeAt hc
  have hscan : State.prefixScan Config.prefixLimit s.clearPrefixes 0 = .opcodeAt (s.afterPrefixes ps) ps.length := by
    obtain ⟨op, body, rfl, h66, h67⟩ := exists_opcode_of_decode hdec hi
    rw [State.prefixScan_run (s := s.clearPrefixes) hm hps h66 h67 hcode, Nat.zero_add, State.afterPrefixes]
  have hbody : CodeFrom s ps.length bs := by simpa using hcode.drop
  obtain ⟨tail, -, hwin⟩ := State.fetchBytes_codeFrom (n := Config.maxBody - bs.length)
    ((State.mode_afterPrefixes s ps).trans hm) (hbody.afterPrefixes ps)
  rw [Nat.add_sub_cancel' (length_le_of_decode hdec)] at hwin
  simp only [step_of_running hrun, stepRunning, hscan, hwin, decode_append hdec, List.length_append,
    Nat.add_sub_cancel]

/-- Settles O30: the end of the step either keeps the result or restores the state before it. -/
theorem stepRunsDecodedInstruction : Obligations.StepRunsDecodedInstruction := by
  intro s ps bs i hrun hm hps hc hdec hi u hu
  rw [step_of_codeAt hrun hm hps hc hdec hi, hu]
  constructor
  · intro hnf
    simp [finish, hnf]
  · intro r hr
    simp [finish, hr, Status.isFaulted, State.setStatus]

/-! ### A run (40_step_and_halt.md R110, R118; 70_reset_and_hazards.md R194) -/

/-- What it takes for a run of at most `n` steps from `s` to come out as it does: the steps it has taken. -/
def RunEnd.ReachedIn (n : Nat) (s : State) : RunEnd → Prop
  | .ended t => t.status ≠ .running ∧ ∃ k, k ≤ n ∧ StepsTo k s t
  | .unfinished t => t.status = .running ∧ StepsTo n s t
  | .stuck f => f = .prefixHang ∧ ∃ k t, k < n ∧ StepsTo k s t ∧ step t = .fault .prefixHang
  | .refused _ => False

theorem step_hangs_or_next {s : State} (h : s.status = .running) :
    step s = .fault .prefixHang ∨ ∃ t, step s = .next t :=
  or_iff_not_imp_left.2 ((everyRunningBlockSteps s).2 h)

theorem status_of_step_hangs {s : State} (h : step s = .fault .prefixHang) : s.status = .running :=
  ((stuckExactlyOnEndlessPrefixes s).1 h).1

/-- What comes out after a step comes out with one step more before it. -/
theorem RunEnd.ReachedIn.after_step {n : Nat} {s t : State} {e : RunEnd} (hst : step s = .next t)
    (h : e.ReachedIn n t) : e.ReachedIn (n + 1) s := by
  cases e with
  | ended u =>
    obtain ⟨hu, k, hk, hsteps⟩ := h
    exact ⟨hu, k + 1, Nat.succ_le_succ hk, t, hst, hsteps⟩
  | unfinished u => exact ⟨h.1, t, hst, h.2⟩
  | stuck f =>
    obtain ⟨hf, k, u, hk, hsteps, hu⟩ := h
    exact ⟨hf, k + 1, u, Nat.succ_lt_succ hk, ⟨t, hst, hsteps⟩, hu⟩
  | refused r => exact h

theorem State.run_reachedIn (n : Nat) (s : State) : (State.run n s).ReachedIn n s := by
  induction n generalizing s with
  | zero =>
    by_cases hr : s.status = .running
    · rw [State.run_zero_of_running hr]
      exact ⟨hr, rfl⟩
    · rw [State.run_of_not_running hr]
      exact ⟨hr, 0, le_rfl, rfl⟩
  | succ n ih =>
    by_cases hr : s.status = .running
    · rw [State.run_succ_of_running hr]
      rcases step_hangs_or_next hr with hst | ⟨t, hst⟩
      · rw [hst]
        exact ⟨rfl, 0, s, Nat.succ_pos n, rfl, hst⟩
      · rw [hst]
        exact (ih t).after_step hst
    · rw [State.run_of_not_running hr]
      exact ⟨hr, 0, Nat.zero_le _, rfl⟩

/-- After `k` of its steps a run is what the rest of its bound gives. -/
theorem State.run_of_stepsTo {k : Nat} {s t : State} (h : StepsTo k s t) (m : Nat) :
    State.run (k + m) s = State.run m t := by
  induction k generalizing s with
  | zero => rw [Nat.zero_add, show s = t from h]
  | succ k ih =>
    obtain ⟨u, hst, hsteps⟩ := h
    rw [Nat.add_right_comm, State.run_succ_of_running (step_cases hst).1, hst]
    exact ih hsteps

/-- A run comes out in one way alone. -/
theorem RunEnd.ReachedIn.run_eq {n : Nat} {s : State} {e : RunEnd} (h : e.ReachedIn n s) : State.run n s = e := by
  cases e with
  | ended t =>
    obtain ⟨ht, k, hk, hsteps⟩ := h
    obtain ⟨m, rfl⟩ := Nat.exists_eq_add_of_le hk
    rw [State.run_of_stepsTo hsteps, State.run_of_not_running ht]
  | unfinished t => exact (State.run_of_stepsTo h.2 0).trans (State.run_zero_of_running h.1)
  | stuck f =>
    obtain ⟨rfl, k, t, hk, hsteps, hst⟩ := h
    obtain ⟨m, rfl⟩ := Nat.exists_eq_add_of_lt hk
    rw [Nat.add_assoc, State.run_of_stepsTo hsteps, State.run_succ_of_running (status_of_step_hangs hst), hst]
  | refused r => exact h.elim

theorem State.run_eq_iff {n : Nat} {s : State} {e : RunEnd} : State.run n s = e ↔ e.ReachedIn n s :=
  ⟨fun h => h ▸ State.run_reachedIn n s, fun h => h.run_eq⟩

/-- A larger bound does not change the end of a run. -/
theorem State.run_ended_mono {n n' : Nat} {s t : State} (h : State.run n s = .ended t) (hn : n ≤ n') :
    State.run n' s = .ended t := by
  obtain ⟨ht, k, hk, hsteps⟩ := State.run_eq_iff.1 h
  exact State.run_eq_iff.2 ⟨ht, k, hk.trans hn, hsteps⟩

/-- Settles O52: each ending is the case of `RunEnd.ReachedIn` for it, and two bounds agree with the larger one. -/
theorem runRepeatsTheStep : Obligations.RunRepeatsTheStep := by
  refine fun n s => ⟨fun _ => State.run_eq_iff, fun _ => State.run_eq_iff, fun _ => State.run_eq_iff,
    fun _ h => State.run_eq_iff.1 h, fun n' t t' h h' => ?_⟩
  have ht := State.run_ended_mono h (le_max_left n n')
  have ht' := State.run_ended_mono h' (le_max_right n n')
  exact RunEnd.ended.inj (ht.symm.trans ht')

end Sys2Proof.Machine
end

section
/-! PROOFS. MOV with a ModRM operand (41_mov_modrm.md R125 to R131). `RM_read` of an accessible operand succeeds with
the operand's value, `RM_write` succeeds with the operand changed and nothing else (30_encoding.md R98); each opcode is
one of the two, joined with a register read or write. -/

namespace Sys2Proof.Machine

/-! ### Register writes and their frames (10_state.md R22 to R25, R29) -/

/-- A byte of `old` above the bits that are replaced. -/
theorem extract_replaceBelow (old : Word) {n m i : Nat} (new : BitVec n) (hn : n ≤ i) (hm : i + 8 ≤ n + m) :
    (old.extractLsb' n m ++ new).extractLsb' i 8 = old.extractLsb' i 8 := by
  rw [BitVec.extractLsb'_append_eq_of_le hn]
  ext j hj
  simp [show i - n + j < m by omega, show n + (i - n + j) = i + j by omega]

/-- What changes the register file alone, and there `r` alone. -/
theorem OnlyGpr.of_gpr {s t : State} {r : Reg} {kept : List Nat} (ht : ∃ g, t = { s with gpr := g })
    (hgpr : ∀ r', r' ≠ r → t.gpr32 r' = s.gpr32 r')
    (hbytes : ∀ k, k ∈ kept → (t.gpr32 r).extractLsb' (8 * k) 8 = (s.gpr32 r).extractLsb' (8 * k) 8) :
    OnlyGpr r kept s t := by
  obtain ⟨g, rfl⟩ := ht
  exact ⟨⟨rfl, rfl, rfl, rfl, rfl, rfl⟩, hgpr, hbytes, fun _ => rfl, fun _ _ => rfl⟩

section
variable (s : State)

theorem State.setGpr8_onlyGpr (r : Reg8) (v : Byte) :
    OnlyGpr (Reg8.parent r) (Reg8.kept r) s (s.setGpr8 r v) := by
  refine .of_gpr (s.setGpr8_eq r v) (fun _ h => s.gpr32_setGpr8_of_ne v h) fun k hk => ?bytes
  cases h : Reg8.isHigh r with
  | false =>
    have hk : k = 1 ∨ k = 2 ∨ k = 3 := by simpa [Reg8.kept, h] using hk
    rw [s.gpr32_setGpr8_low v h]
    exact extract_replaceBelow _ v (by omega) (by omega)
  | true =>
    have hk : k = 0 ∨ k = 2 ∨ k = 3 := by simpa [Reg8.kept, h] using hk
    rw [s.gpr32_setGpr8_high v h]
    rcases hk with rfl | hk
    · exact (extract_replaceHigh _ v).1
    · exact extract_replaceBelow _ _ (by omega) (by omega)

theorem State.setGprOw_onlyGpr (r : Reg) (v : Val) : OnlyGpr r (OpWidth.kept v.width) s (s.setGprOw r v) := by
  cases v with
  | v16 v =>
    refine .of_gpr (s.setGprOw_eq r _) (fun _ h => s.gpr32_setGpr16_of_ne v h) fun k hk => ?_
    have hk : k = 2 ∨ k = 3 := by simpa [Val.width, OpWidth.kept] using hk
    rw [State.setGprOw, s.gpr32_setGpr16_self]
    exact extract_replaceBelow _ v (by omega) (by omega)
  | v32 v => exact .of_gpr (s.setGprOw_eq r _) (fun _ h => s.gpr32_setGpr32_of_ne v h) nofun

theorem extractLow_setWidth (v : Half) : (v.setWidth 32 : Word).extractLsb' 0 16 = v :=
  (BitVec.extractLsb'_setWidth_of_le (by decide)).trans BitVec.extractLsb'_eq_self

theorem State.setGprOw_gprIs (r : Reg) (v : Val) : GprIs (s.setGprOw r v) v.width r (Val.word v) := by
  cases v with
  | v16 v => exact (s.gpr16_setGpr16_self r v).trans (extractLow_setWidth v).symm
  | v32 v => exact s.gpr32_setGpr32_self r v

theorem State.writeSreg_onlySreg (r : Sreg) (v : Half) : OnlySreg r s (s.writeSreg r v) :=
  ⟨⟨rfl, rfl, rfl, rfl, rfl, rfl⟩, fun _ => rfl, fun _ h => s.sreg.get_set_of_ne _ h, fun _ _ => rfl⟩

/-- The two values of `SREG_WRITE_UPPER` (10_state.md R29). -/
theorem SegReg.upper_write (p : SregUpper) (r : SegReg) (v : Half) :
    (r.write p v).upper = if p = .preserve then r.upper else 0 := by
  cases p <;> rfl

theorem State.upper_writeSreg (r : Sreg) (v : Half) : ((s.writeSreg r v).sreg.get r).upper =
    if Config.sregWriteUpper = .preserve then (s.sreg.get r).upper else 0 := by
  rw [State.writeSreg_sreg, Sregs.get_set_self, SegReg.upper_write]

end

/-! ### Reads and writes of an accessible operand (30_encoding.md R98) -/

theorem Val.bytes_eq_width (v : Val) : Val.bytes v = OpWidth.bytes v.width := by cases v <;> rfl

theorem State.width_gprOw (s : State) (w : OpWidth) (r : Reg) : (s.gprOw w r).width = w := by cases w <;> rfl

section
variable {s : State}

/-- A Real-mode read of operand width gives the bytes at seg:off. -/
theorem State.readOw_holds (hm : s.mode = .real) (w : OpWidth) (seg : Half) (off : Word) :
    ∃ v, s.readOw w seg off = .ok v ∧ v.width = w ∧ Holds s seg off (OpWidth.bytes w) (Val.word v) := by
  obtain ⟨-, ⟨v16, hread16, hv16⟩, v32, hread32, hv32⟩ := (readsAreLittleEndianAndWrapPerByte s seg off).1 hm
  cases w with
  | w16 => exact ⟨.v16 v16, congrArg (Except.map Val.v16) hread16, rfl, hv16⟩
  | w32 => exact ⟨.v32 v32, congrArg (Except.map Val.v32) hread32, rfl, hv32⟩

theorem State.readRm8_source {src : Rm Reg8} (h : Accessible s src) :
    ∃ v, s.readRm8 src = .ok v ∧ Source8 s src v := by
  cases src with
  | reg r => exact ⟨_, rfl, rfl⟩
  | mem m =>
    obtain ⟨hread, -, -⟩ := (readsAreLittleEndianAndWrapPerByte s (s.segOf m) (s.offset m)).1 (h m rfl)
    exact hread

theorem State.readRmOw_source {src : Rm Reg} (h : Accessible s src) (w : OpWidth) :
    ∃ v, s.readRmOw w src = .ok v ∧ v.width = w ∧ SourceOw s w src (Val.word v) := by
  cases src with
  | reg r => exact ⟨_, rfl, s.width_gprOw w r, rfl⟩
  | mem m => exact State.readOw_holds (h m rfl) w (s.segOf m) (s.offset m)

theorem State.readRm16_source {src : Rm Reg} (h : Accessible s src) :
    ∃ v, s.readRm16 src = .ok v ∧ SourceOw s .w16 src (v.setWidth 32) := by
  cases src with
  | reg r => exact ⟨_, rfl, rfl⟩
  | mem m =>
    obtain ⟨-, hread, -⟩ := (readsAreLittleEndianAndWrapPerByte s (s.segOf m) (s.offset m)).1 (h m rfl)
    exact hread

theorem State.writeRm8_stored {dst : Rm Reg8} (h : Accessible s dst) (hwf : Memory.wf s.mem = true) (v : Byte) :
    ∃ t, s.writeRm8 v dst = .ok t ∧ Stored8 s t dst v := by
  cases dst with
  | reg r => exact ⟨_, rfl, s.gpr8_setGpr8_self r v, s.setGpr8_onlyGpr r v⟩
  | mem m =>
    obtain ⟨t, ht, hstored, honly, -⟩ := State.writeU8_holds (h m rfl) hwf (s.segOf m) (s.offset m) v
    exact ⟨t, ht, hstored, honly⟩

theorem State.writeRmOw_stored {dst : Rm Reg} (h : Accessible s dst) (hwf : Memory.wf s.mem = true) (v : Val) :
    ∃ t, s.writeRmOw v dst = .ok t ∧ StoredOw s t v.width dst (Val.word v) := by
  cases dst with
  | reg r => exact ⟨_, rfl, s.setGprOw_gprIs r v, s.setGprOw_onlyGpr r v⟩
  | mem m =>
    obtain ⟨t, ht, hstored, honly, -⟩ := State.writeOw_holds (h m rfl) hwf (s.segOf m) (s.offset m) v
    rw [Val.bytes_eq_width] at hstored honly
    exact ⟨t, ht, hstored, honly⟩

/-! ### Meanings that succeed -/

/-- A meaning that ends in a write that succeeds. -/
theorem complete_of_ok {x : Except FaultInfo State} {t : State} (h : x = .ok t) : complete s x = .next t := by
  rw [h, complete_ok]

/-- A meaning that begins with a read that succeeds. -/
theorem complete_map_of_ok {α : Type} {x : Except FaultInfo α} {v : α} (h : x = .ok v) (g : α → State) :
    complete s (x.map g) = .next (g v) := complete_of_ok (by rw [h]; rfl)

end

/-! ### The opcodes -/

/-- Settles O11: the write of an accessible 8-bit operand. -/
theorem movRm8R8WritesTheByte : Obligations.MovRm8R8WritesTheByte := by
  intro s dst src hacc hwf
  obtain ⟨t, ht, hstored⟩ := State.writeRm8_stored hacc hwf (s.gpr8 src)
  exact ⟨t, complete_of_ok ht, hstored⟩

/-- Settles O12: the write of an accessible operand, with a value of the operand width. -/
theorem movRmRWritesTheRegister : Obligations.MovRmRWritesTheRegister := by
  intro s w dst src hacc hwf
  obtain ⟨t, ht, hstored⟩ := State.writeRmOw_stored hacc hwf (s.gprOw w src)
  rw [State.width_gprOw] at hstored
  exact ⟨t, complete_of_ok ht, hstored⟩

/-- Settles O13: the read of an accessible 8-bit operand, then the write of a register byte. -/
theorem movR8Rm8LoadsTheByte : Obligations.MovR8Rm8LoadsTheByte := by
  intro s dst src hacc
  obtain ⟨v, hv, hsource⟩ := State.readRm8_source hacc
  exact ⟨s.setGpr8 dst v, v, complete_map_of_ok hv _, hsource, s.gpr8_setGpr8_self dst v, s.setGpr8_onlyGpr dst v⟩

/-- Settles O14: the read of an accessible operand, then the write of a register at the width of the value read. -/
theorem movRRmLoadsTheOperand : Obligations.MovRRmLoadsTheOperand := by
  intro s w dst src hacc
  obtain ⟨v, hv, rfl, hsource⟩ := State.readRmOw_source hacc w
  exact ⟨s.setGprOw dst v, Val.word v, complete_map_of_ok hv _, hsource, s.setGprOw_gprIs dst v,
    s.setGprOw_onlyGpr dst v⟩

/-- Settles O15: the write of an accessible operand, with a 16-bit value. -/
theorem movRm16SregStoresSixteenBits : Obligations.MovRm16SregStoresSixteenBits := by
  intro s dst src hacc hwf
  obtain ⟨t, ht, hstored⟩ := State.writeRmOw_stored hacc hwf (.v16 (s.sreg16 src))
  exact ⟨t, complete_of_ok ht, hstored⟩

/-- Settles O16: the 16-bit read of an accessible operand, then the write of the segment register. -/
theorem movSregRm16WritesTheSegment : Obligations.MovSregRm16WritesTheSegment := by
  intro s dst src hacc
  obtain ⟨v, hv, hsource⟩ := State.readRm16_source hacc
  refine ⟨s.writeSreg dst.toSreg v, v.setWidth 32, complete_map_of_ok hv _, hsource, ?low,
    s.upper_writeSreg dst.toSreg v, s.writeSreg_onlySreg dst.toSreg v⟩
  case low => rw [s.sreg16_writeSreg_self, extractLow_setWidth]

end Sys2Proof.Machine
end

section
/-! PROOFS. MOV between the accumulator and a moffs operand (42_mov_moffs.md R140 to R144). Each opcode is one memory
access at DS:moffs, which in Real mode succeeds, joined with a read or a write of the accumulator; the offset is the
number that the literal's bytes spell. -/

namespace Sys2Proof.Machine

/-! ### The number little-endian bytes spell (20_memory.md R53) -/

theorem toNat_append_eq_add {n m : Nat} (hi : BitVec n) (lo : BitVec m) :
    (hi ++ lo).toNat = lo.toNat + 2 ^ m * hi.toNat := by
  rw [BitVec.toNat_append, ← Nat.shiftLeft_add_eq_or_of_lt lo.isLt, Nat.shiftLeft_eq, Nat.mul_comm, Nat.add_comm]

theorem le16_toNat (b0 b1 : Byte) : (le16 b0 b1).toNat = b0.toNat + 256 * b1.toNat :=
  toNat_append_eq_add b1 b0

theorem le32_toNat (b0 b1 b2 b3 : Byte) :
    (le32 b0 b1 b2 b3).toNat = b0.toNat + 256 * b1.toNat + 65536 * b2.toNat + 16777216 * b3.toNat := by
  simp only [le32, toNat_append_eq_add]
  omega

/-! ### The opcodes -/

/-- Settles O17: the read at DS:moffs, then the write of the accumulator at the width of the value read. -/
theorem moffsLoadsReadTheDataSegment : Obligations.MoffsLoadsReadTheDataSegment := by
  refine fun s o hm => ⟨?byte, fun w => ?operand⟩
  case byte =>
    obtain ⟨⟨v, hv, hholds⟩, -, -⟩ := (readsAreLittleEndianAndWrapPerByte s (s.sreg16 .ds) (Moffs.offset o)).1 hm
    exact ⟨s.setGpr8 .al v, v, complete_map_of_ok hv _, hholds, s.gpr8_setGpr8_self .al v, s.setGpr8_onlyGpr .al v⟩
  case operand =>
    obtain ⟨v, hv, rfl, hholds⟩ := State.readOw_holds hm w (s.sreg16 .ds) (Moffs.offset o)
    exact ⟨s.setGprOw .eax v, Val.word v, complete_map_of_ok hv _, hholds, s.setGprOw_gprIs .eax v,
      s.setGprOw_onlyGpr .eax v⟩

/-- Settles O18: the write at DS:moffs of AL, or of the accumulator at the operand width. -/
theorem moffsStoresWriteTheDataSegment : Obligations.MoffsStoresWriteTheDataSegment := by
  refine fun s o hm hwf => ⟨?byte, fun w => ?operand⟩
  case byte =>
    obtain ⟨t, ht, hholds, honly, -⟩ := State.writeU8_holds hm hwf (s.sreg16 .ds) (Moffs.offset o) (s.gpr8 .al)
    exact ⟨t, complete_of_ok ht, hholds, honly⟩
  case operand =>
    obtain ⟨t, ht, hholds, honly, -⟩ := State.writeOw_holds hm hwf (s.sreg16 .ds) (Moffs.offset o) (s.gprOw w .eax)
    rw [Val.bytes_eq_width, State.width_gprOw] at hholds honly
    exact ⟨t, complete_of_ok ht, hholds, honly⟩

/-- Settles O19: the literal is the little-endian value of the bytes taken, and 16 bits zero-extended to 32 keep
their number. -/
theorem moffsLiteralIsTheOffset : Obligations.MoffsLiteralIsTheOffset := by
  refine fun b0 b1 b2 b3 bs => ⟨⟨.o16 (le16 b0 b1), rfl, ?half⟩, ⟨.o32 (le32 b0 b1 b2 b3), rfl, ?word⟩⟩
  case half => exact (BitVec.toNat_setWidth_of_le (by decide)).trans (le16_toNat b0 b1)
  case word => exact le32_toNat b0 b1 b2 b3

end Sys2Proof.Machine
end

section
/-! PROOFS. MOV of an immediate (43_mov_imm.md R150 to R153). A write through a register view cannot fail; the write of
an r/m operand is `RM_write`, which succeeds on an accessible operand (30_encoding.md R98). -/

namespace Sys2Proof.Machine

/-- Settles O20: the rules of the register writes, at the immediate's width. -/
theorem movImmediateSetsTheRegister : Obligations.MovImmediateSetsTheRegister := fun s =>
  ⟨fun dst imm => ⟨s.setGpr8 dst imm, rfl, s.gpr8_setGpr8_self dst imm, s.setGpr8_onlyGpr dst imm⟩,
    fun dst imm => ⟨s.setGprOw dst imm, rfl, s.setGprOw_gprIs dst imm, s.setGprOw_onlyGpr dst imm⟩⟩

/-- Settles O21: the write of an accessible operand, at 8 bits and at the immediate's width. -/
theorem movImmediateWritesTheOperand : Obligations.MovImmediateWritesTheOperand := by
  refine fun s hwf => ⟨fun dst imm hacc => ?byte, fun dst imm hacc => ?operand⟩
  case byte =>
    obtain ⟨t, ht, hstored⟩ := State.writeRm8_stored hacc hwf imm
    exact ⟨t, complete_of_ok ht, hstored⟩
  case operand =>
    obtain ⟨t, ht, hstored⟩ := State.writeRmOw_stored hacc hwf imm
    exact ⟨t, complete_of_ok ht, hstored⟩

end Sys2Proof.Machine
end

section
/-! PROOFS. PUSH r/m16/32 (44_push.md R160, R161): the read of the source in the old state, then the push, which is a
16-bit register write followed by a memory write. -/

namespace Sys2Proof.Machine

theorem State.pushedSp_eq_width (s : State) (v : Val) :
    s.pushedSp v = s.gpr16 .esp - BitVec.ofNat 16 (OpWidth.bytes v.width) := by
  rw [State.pushedSp, Val.bytes_eq_width]

/-- A Real-mode push succeeds: the value is at SS and the lowered SP, and those bytes are all that distinguishes the
result from the state with SP lowered. -/
theorem State.push_holds {s : State} (hm : s.mode = .real) (hwf : Memory.wf s.mem = true) (v : Val) :
    ∃ t, s.push v = .ok t ∧
      Holds t (s.sreg16 .ss) ((s.pushedSp v).setWidth 32) (OpWidth.bytes v.width) (Val.word v) ∧
      OnlyBytes (storedAddrs (s.sreg16 .ss) ((s.pushedSp v).setWidth 32) (OpWidth.bytes v.width))
        (s.setGpr16 .esp (s.pushedSp v)) t := by
  obtain ⟨t, ht, hholds, honly, -⟩ := State.writeOw_holds (s := s.setGpr16 .esp (s.pushedSp v)) hm hwf
    (s.sreg16 .ss) ((s.pushedSp v).setWidth 32) v
  rw [Val.bytes_eq_width] at hholds honly
  exact ⟨t, ht, hholds, honly⟩

/-- Settles O22: the source is read in `s`, before SP is lowered; the registers are then those of the write to SP, and
the rest is the frame of the store. -/
theorem pushLowersSpThenStores : Obligations.PushLowersSpThenStores := by
  intro s w src hm hwf
  obtain ⟨v, hv, rfl, hsource⟩ := State.readRmOw_source (src := src) (fun _ _ => hm) w
  obtain ⟨t, ht, hholds, ⟨hcontrol, hgpr, hsreg, hmemory⟩⟩ := State.push_holds hm hwf v
  have hexec : exec (.pushRm v.width src) s = .next t := complete_of_ok (by rw [hv]; exact ht)
  rw [State.pushedSp_eq_width] at hholds hgpr hmemory
  refine ⟨t, Val.word v, hexec, hsource, ?esp, fun r hr => ?others, hholds, hmemory, hsreg, ?control⟩
  case esp => rw [hgpr, State.gpr32_setGpr16_self]
  case others => rw [hgpr, s.gpr32_setGpr16_of_ne _ hr]
  case control =>
    obtain ⟨heip, heflags, hmode, hopsz, hadsz, hstatus⟩ := hcontrol
    exact ⟨heip, heflags, hmode, hopsz, hadsz, hstatus⟩

end Sys2Proof.Machine
end

section
/-! PROOFS. The faults (60_exceptions.md R172 to R178): what a step that faults leaves, and which bytes at CS:EIP make a
step fault. -/

namespace Sys2Proof.Machine

/-! ### A step that faults (R175, R176) -/

/-- Settles O48: a fault leaves the state it found with a record that fits it, and an instruction that completes keeps
the store canonical and the mode Real. -/
theorem stepKeepsInvariant : Obligations.StepKeepsInvariant := fun _ _ => step_keeps_inv

/-- A step that ends Faulted changes the status alone, to a record that fits the state before it. -/
theorem step_faulted {s t : State} {r : FaultRecord} (h : step s = .next t) (hr : t.status = .faulted r) :
    t = { s with status := .faulted r } ∧ r.Fits s := by
  obtain ⟨hrun, ⟨hm, rfl⟩ | ⟨hm, o, a, k, bs, i, rest, -, -, hd, v, hv, rfl⟩⟩ := step_cases h
  · cases hr
    exact ⟨rfl, rfl, rfl, hm, rfl, rfl, rfl⟩
  · by_cases hf : v.status.isFaulted = true
    · rw [if_pos hf, State.setStatus_status] at hr
      rw [if_pos hf, hr]
      exact ⟨rfl, (exec_effect hv).record_fits hm hrun (fun hi => ⟨_, _, decode_faultFits _ _ _ _ _ hd hi⟩) hr⟩
    · rw [if_neg hf, State.advanceEip_status] at hr
      exact absurd (by rw [hr]; rfl) hf

/-- Settles O36: CS and EIP are the first two fields that a fitting record shares with the state. -/
theorem faultsArePrecise : Obligations.FaultsArePrecise := by
  intro s t r h hr
  obtain ⟨ht, hcs, heip, -⟩ := step_faulted h hr
  exact ⟨ht, hcs, heip⟩

/-! ### The meaning of an encoding that faults (R172, R173) -/

/-- Settles O24: the meanings are `takeFault` of an `invalidOpcode` or an `unknownOpcode`, whose records these are. -/
theorem invalidAndUnknownEncodingsTakeTheirFault : Obligations.InvalidAndUnknownEncodingsTakeTheirFault :=
  fun _ _ _ => ⟨rfl, rfl, rfl, rfl, rfl, rfl, rfl⟩

/-- An instruction that faults and has two bytes takes InvalidOpcode, with the opcode and reg those bytes hold. -/
theorem exec_of_encode_pair {i : Instr} {op modrm : Byte} (hf : Instr.faults i = true) (henc : encode i = [op, modrm])
    (s : State) : exec i s = .next (takeFault s (.invalidOpcode op (modrm.extractLsb' 3 3))) := by
  have hreg : ∀ m : ModRm, m.toByte.extractLsb' 3 3 = m.reg := fun m => congrArg ModRm.reg m.ofByte_toByte
  cases i with
  | invalidC6 m | invalidC7 m | invalidFF m | invalid8ECs m | invalid8EReg m | invalid8CReg m =>
    cases henc
    rw [hreg]
    rfl
  | unknown op => cases henc
  | _ => cases hf

theorem Instr.isPrefix_of_faults {i : Instr} (hf : Instr.faults i = true) : i.isPrefix = false := by
  cases i with
  | prefixOperandSize | prefixAddressSize => cases hf
  | _ => rfl

/-- In Real mode an instruction whose encoding is valid does not fault, and only the sentinel stops the block. -/
theorem Effect.status_of_not_faults {s t : State} {i : Instr} (h : Effect s i t) (hm : s.mode = .real)
    (hf : Instr.faults i = false) : t.status = if i = .halt then .halted else s.status := by
  cases h with
  | prefixFlag p => cases p <;> rfl
  | halt => rfl
  | move g m hp hh => rw [if_neg hh]
  | segment d x v => rfl
  | trap _ h => exact absurd hm h
  | invalid op reg hp hf' => cases hf.symm.trans hf'
  | unknown op => cases hf

/-- The sentinel is the opcode 0x00 and nothing else (40_step_and_halt.md R115). -/
theorem halt_iff_of_decode {aw : AddrWidth} {ow : OpWidth} {op : Byte} {bs rest : List Byte} {i : Instr}
    (h : decode aw ow (op :: bs) = .ok (i, rest)) : i = .halt ↔ op = 0 := by
  constructor
  · rintro rfl
    obtain ⟨hbs, -⟩ := encodeOfDecodeIsTheBytes aw ow _ rest .halt h
    exact (List.cons.inj hbs).1
  · rintro rfl
    cases h
    rfl

/-! ### The step from the bytes (R178, 30_encoding.md R100) -/

theorem CodeAt.left {s : State} {as bs : List Byte} (h : CodeAt s (as ++ bs)) : CodeAt s as := fun k hk => by
  rw [h k (by rw [List.length_append]; omega), List.getElem_append_left hk]

/-- Some byte stands after the bytes `bs`. -/
theorem CodeAt.exists_next {s : State} {bs : List Byte} (h : CodeAt s bs) : ∃ b, CodeAt s (bs ++ [b]) := by
  refine ⟨s.codeByte bs.length, fun k hk => ?_⟩
  by_cases hlt : k < bs.length
  · rw [List.getElem_append_left hlt]
    exact h k hlt
  · obtain rfl : k = bs.length := by
      rw [List.length_append, List.length_singleton] at hk
      omega
    rw [List.getElem_concat_length rfl]
    rfl

theorem State.status_afterPrefixes (s : State) (ps : List PrefixByte) : (s.afterPrefixes ps).status = s.status := by
  rw [State.afterPrefixes, State.foldl_applyPrefix, State.clearPrefixes_status]

/-- The record of a fault does not depend on the prefix flags, so the step takes it from the state before it (R176). -/
theorem takeFault_status_afterPrefixes (s : State) (ps : List PrefixByte) (x : FaultInfo) :
    (takeFault (s.afterPrefixes ps) x).status = (takeFault s x).status := by
  rw [State.afterPrefixes, State.foldl_applyPrefix]
  cases x <;> rfl

section
variable {s : State} {ps : List PrefixByte} {op modrm : Byte} (hrun : s.status = .running) (hm : s.mode = .real)
  (hps : ps.length < Config.prefixLimit)
include hrun hm hps

/-- A running Real-mode block takes a step where a byte that is no prefix stands within the limit. -/
theorem exists_step_of_codeAt {bs : List Byte} (h66 : op ≠ 0x66) (h67 : op ≠ 0x67)
    (hc : CodeAt s (ps.map PrefixByte.toByte ++ op :: bs)) : ∃ t, step s = .next t := by
  rw [step_of_running hrun]
  exact stepRunning_of_opcodeAt
    (State.prefixScan_run (s := s.clearPrefixes) hm hps h66 h67 (codeFrom_zero_of_codeAt hc))
    ((State.mode_afterPrefixes s ps).trans hm)

/-- Where an encoding that faults stands after the prefixes, the step takes the fault of its meaning. -/
theorem step_of_fault_encoding {i : Instr} {x : FaultInfo} (hf : Instr.faults i = true)
    (hwf : i.wf (s.afterPrefixes ps).addrWidth (s.afterPrefixes ps).opWidth = true)
    (hc : CodeAt s (ps.map PrefixByte.toByte ++ encode i))
    (hx : ∀ u, exec i u = .next (takeFault u x)) : step s = .next (takeFault s x) := by
  have hdec := decodeOfEncodeIsTheInstruction _ _ i [] hwf
  rw [List.append_nil] at hdec
  rw [step_of_codeAt hrun hm hps hc hdec (Instr.isPrefix_of_faults hf), hx, finish,
    takeFault_status_afterPrefixes]
  rfl

theorem step_of_invalidEncoding (hc : CodeAt s (ps.map PrefixByte.toByte ++ [op, modrm]))
    (h : invalidEncoding op (modrm.extractLsb' 3 3) = true) :
    step s = .next (takeFault s (.invalidOpcode op (modrm.extractLsb' 3 3))) := by
  obtain ⟨i, henc, hwf, hf⟩ := exists_encode_of_invalidEncoding (m := ModRm.ofByte modrm) h
    (s.afterPrefixes ps).addrWidth (s.afterPrefixes ps).opWidth
  rw [ModRm.toByte_ofByte] at henc
  exact step_of_fault_encoding hrun hm hps hf hwf (by rwa [henc]) (exec_of_encode_pair hf henc)

theorem step_of_unmapped (hc : CodeAt s (ps.map PrefixByte.toByte ++ [op])) (h : mappedOpcodes.contains op = false) :
    step s = .next (takeFault s (.unknownOpcode op)) :=
  step_of_fault_encoding (i := .unknown op) hrun hm hps rfl (by simpa [Instr.wf] using h) hc fun _ => rfl

/-- Any other bytes make the step complete: it halts at the sentinel, and else the block stays Running. -/
theorem status_of_valid_step {t : State} (h66 : op ≠ 0x66) (h67 : op ≠ 0x67)
    (hc : CodeAt s (ps.map PrefixByte.toByte ++ [op, modrm])) (ht : step s = .next t)
    (hinv : invalidEncoding op (modrm.extractLsb' 3 3) = false) (hmap : mappedOpcodes.contains op = true) :
    t.status = if op = 0 then .halted else .running := by
  obtain ⟨sib, hsib⟩ := hc.exists_next
  rw [List.append_assoc] at hsib
  obtain ⟨tail, i, rest, v, -, hdec, hv, rfl⟩ := step_code_cases hm hps h66 h67 hsib ht
  have hf : Instr.faults i = false := by
    obtain ⟨hfaults, -⟩ := decoderRejectsExactlyTheInvalidEncodings _ _ op modrm _ rest i hdec
    rw [hinv, hmap] at hfaults
    simpa using hfaults
  have hstatus := (exec_effect hv).status_of_not_faults ((State.mode_afterPrefixes s ps).trans hm) hf
  simp only [halt_iff_of_decode hdec, State.status_afterPrefixes, hrun] at hstatus
  have hvf : ¬v.status.isFaulted = true := by
    rw [hstatus]
    split <;> nofun
  rw [if_neg hvf, State.advanceEip_status, hstatus]

end

/-- Settles O37: the block takes a step, and each clause is the lemma above for its bytes. -/
theorem stepFaultsExactlyOnInvalidBytes : Obligations.StepFaultsExactlyOnInvalidBytes := by
  intro s ps op modrm hrun hm hps h66 h67 hc
  obtain ⟨t, ht⟩ := exists_step_of_codeAt hrun hm hps h66 h67 hc
  refine ⟨t, ht, fun hinv => ?invalid, fun hun => ?unmapped, status_of_valid_step hrun hm hps h66 h67 hc ht⟩
  case invalid =>
    cases ht.symm.trans (step_of_invalidEncoding hrun hm hps hc hinv)
    rfl
  case unmapped =>
    have hop : CodeAt s (ps.map PrefixByte.toByte ++ [op]) := CodeAt.left (bs := [modrm]) (by simpa using hc)
    cases ht.symm.trans (step_of_unmapped hrun hm hps hop hun)
    rfl

end Sys2Proof.Machine
end

section
/-! PROOFS. What the host reads (60_exceptions.md R177; 70_reset_and_hazards.md R194 to R196): the result, the register
views and the store. -/

namespace Sys2Proof.Machine

section
variable (s : State)

/-! ### The result (R177, R194) -/

theorem State.result_iff_status : (s.result = none ↔ s.status = .running) ∧
    (s.result = some .halted ↔ s.status = .halted) ∧
    ∀ r, s.result = some (.faulted r) ↔ s.status = .faulted r := by
  unfold State.result
  cases s.status <;> simp

/-! ### Reads (R195, R196) -/

variable {s}

theorem State.exists_getView {v : RegView} {i : Nat} (h : v.InRange i) : ∃ x, s.getView v i = .ok x := by
  unfold State.getView
  rw [if_neg (by rwa [RegView.count_le_iff, not_not])]
  exact ⟨_, rfl⟩

theorem State.readMem_of_ended (h : s.status ≠ .running) (p : Phys) : s.readMem p = .ok (s.physRead p) := by
  unfold State.readMem
  cases hs : s.status with
  | running => exact absurd hs h
  | halted | faulted r => rfl

theorem State.readMem_of_running (h : s.status = .running) (p : Phys) : s.readMem p = .error .running := by
  rw [State.readMem, h]

/-- A read after the run passes on what the accessor answers, its error too. -/
theorem State.readReg_of_ended (h : s.status ≠ .running) (v : RegView) (i : Nat) : s.readReg v i = s.getView v i := by
  unfold State.readReg
  cases s.getView v i with
  | error e => rfl
  | ok x =>
    cases hs : s.status with
    | running => exact absurd hs h
    | halted | faulted r => rfl

theorem State.readReg_of_running (h : s.status = .running) {v : RegView} {i : Nat} (hi : v.InRange i) :
    s.readReg v i = .error .running := by
  obtain ⟨x, hx⟩ := State.exists_getView (s := s) hi
  simp only [State.readReg, hx, h]

end

/-- Settles O50: the result is the status, and each read looks at the status. -/
theorem hostReadsOnlyAfterTheRun : Obligations.HostReadsOnlyAfterTheRun := by
  intro s
  obtain ⟨hnone, hhalted, hfaulted⟩ := s.result_iff_status
  exact ⟨hnone, hhalted, hfaulted, fun h p v i => ⟨State.readMem_of_ended h p, State.readReg_of_ended h v i⟩,
    fun h p _ _ => ⟨State.readMem_of_running h p, State.readReg_of_running h⟩⟩

end Sys2Proof.Machine
end

section
/-! PROOFS. The store after `load_memory` (10_state.md R36; 70_reset_and_hazards.md R191). -/

namespace Sys2Proof.Machine

/-- Byte `k` of the image is byte `k` of the store, `blankByte` after the image's end: every physical address lies
inside the store. -/
theorem State.physRead_loadMemory (s : State) (image : List Byte) (p : Phys) :
    (s.loadMemory image).physRead p = image.getD p.toNat blankByte := by
  have hp : 0 + p.toNat < Config.memSize := by rw [Nat.zero_add]; exact p.isLt
  rw [State.physRead, State.loadMemory_mem]
  simpa only [Nat.zero_add] using Memory.read_ofImage 0 image p.toNat hp

/-- Settles O51: the two address ranges are the two sides of the image's end; the store alone is replaced, by the
image's canonical list. -/
theorem loadMemorySetsEveryByte : Obligations.LoadMemorySetsEveryByte := by
  intro s image
  refine ⟨fun p h => ?insideImage, fun p h => ?afterImage, s.loadMemory_wf image, Memory.ofImage 0 image, rfl⟩
  case insideImage => rw [State.physRead_loadMemory, List.getD_eq_getElem _ _ h]
  case afterImage => rw [State.physRead_loadMemory, List.getD_eq_default _ _ h]

end Sys2Proof.Machine
end

section
/-! PROOFS. Memory round trips: a Real-mode read of a place that holds a value gives that value, so it gives back what
was stored there (20_memory.md R53, R54; 95_test_vectors.md L1-4). -/

namespace Sys2Proof.Machine

section
variable {s : State} {seg : Half} {off : Word}

/-! ### The value read is the one held -/

theorem State.readU8_of_holds {v : Byte} (hm : s.mode = .real) (h : Holds s seg off 1 (v.setWidth 32)) :
    s.readU8 seg off = .ok v := by
  rw [holds_iff_bytesAt, lowBytes_byte] at h
  rw [State.readU8_real hm]
  exact congrArg Except.ok (List.cons.inj h).1

theorem State.readU16_of_holds {v : Half} (hm : s.mode = .real) (h : Holds s seg off 2 (v.setWidth 32)) :
    s.readU16 seg off = .ok v := by
  rw [holds_iff_bytesAt, lowBytes_half] at h
  obtain ⟨h0, h⟩ := List.cons.inj h
  obtain ⟨h1, -⟩ := List.cons.inj h
  rw [State.readU16_real hm]
  exact congrArg Except.ok ((congrArg₂ le16 h0 h1).trans (le16_bytes16 v))

theorem State.readU32_of_holds {v : Word} (hm : s.mode = .real) (h : Holds s seg off 4 v) :
    s.readU32 seg off = .ok v := by
  have byte (k : Nat) (hk : k < 4) :
      s.physRead (realAddress seg (off + BitVec.ofNat 32 k)) = v.extractLsb' (8 * k) 8 := h k hk
  rw [State.readU32_real hm, byte 0 (by decide), byte 1 (by decide), byte 2 (by decide), byte 3 (by decide)]
  exact congrArg Except.ok (le32_bytes32 v)

/-- A write whose result holds `w` in `n` bytes, then a read that gives `x` wherever Real mode holds `w` there. -/
theorem bind_read_of_holds {α : Type} (hm : s.mode = .real) {n : Nat} {w : Word} {x : α} {addrs : List Phys}
    {written : Except FaultInfo State} {read : State → Except FaultInfo α}
    (hwrite : ∃ t, written = .ok t ∧ Holds t seg off n w ∧ OnlyBytes addrs s t ∧ Memory.wf t.mem = true)
    (hread : ∀ {t : State}, t.mode = .real → Holds t seg off n w → read t = .ok x) :
    written.bind read = .ok x := by
  obtain ⟨t, rfl, hholds, honly, -⟩ := hwrite
  exact hread (honly.control.mode.trans hm) hholds

end

/-- Settles O6: at each width the write leaves the value held at seg:off and the mode Real, and the read gives what is
held there. -/
theorem writeThenReadGivesTheValue : Obligations.WriteThenReadGivesTheValue := by
  intro s seg off hm hwf
  obtain ⟨hwrite8, hwrite16, hwrite32⟩ := (writesChangeExactlyTheirBytes s seg off).1 hm hwf
  exact ⟨fun v => bind_read_of_holds hm (hwrite8 v) State.readU8_of_holds,
    fun v => bind_read_of_holds hm (hwrite16 v) State.readU16_of_holds,
    fun v => bind_read_of_holds hm (hwrite32 v) State.readU32_of_holds⟩

end Sys2Proof.Machine
end

section
/-! PROOFS. Words written out from the encodings of the spec (30_encoding.md R70; 40_step_and_halt.md to 44_push.md): each
is the encoding of its instruction, so it decodes to it. -/

namespace Sys2Proof.Machine

/-- A word that is the encoding of a well-formed instruction decodes to it, with nothing left over. -/
theorem decode_of_encode_eq {aw : AddrWidth} {ow : OpWidth} {i : Instr} {word : List Byte} (hword : encode i = word)
    (hwf : i.wf aw ow = true) : decode aw ow word = .ok (i, []) := by
  have h := decodeOfEncodeIsTheInstruction aw ow i [] hwf
  rwa [List.append_nil, hword] at h

/-- Settles O44: fifteen words, each compared with the encoder's output, and `decode_of_encode_eq`. -/
theorem writtenOutWordsDecode : Obligations.WrittenOutWordsDecode := by
  unfold Obligations.WrittenOutWordsDecode
  and_intros <;> exact decode_of_encode_eq (by decide) (by decide)

end Sys2Proof.Machine
end
